-- ==== Sys2Proof/Word.lean ====
section
/-! DEFINITION. The value types of the multiplexer: the byte, the two kinds of encoded word, text and line
operands, the level of an output line. -/

namespace Sys2Proof

/-- One byte, `v[i]` its bit of weight `2^i` (spec/00_scope.md section 6.1). -/
abbrev Byte := BitVec 8

/-- An emitted word `w[8:0]`: `w[8]` the register-select level, `w[7:0]` the byte (R51). -/
abbrev EmittedWord := BitVec 9

/-- A host command word `cmd[7:0]` (R57). -/
abbrev CommandWord := BitVec 8

/-- A code point of a text operand: an unbounded natural, as decision D3 allows (R9, R71). -/
abbrev CodePoint := Nat

/-- A line identifier: an opaque natural; the block only stores it and hands it to the backend (R5, D27). -/
abbrev LineId := Nat

/-- A duration in seconds, exactly: every float that `sleep(durationSeconds: float)` can be given is rational. -/
abbrev Duration := Rat

/-- The level of an output line (R17). -/
inductive Level where
  /-- The block does not own the line; its electrical level is unspecified. -/
  | unclaimed
  /-- Claimed as an output and not yet written; its electrical level is unspecified. -/
  | undriven
  /-- Driven low. -/
  | low
  /-- Driven high. -/
  | high
deriving DecidableEq, Repr, Inhabited

end Sys2Proof
end

