-- ==== Sys2Proof/Syntax.lean ====
section
/-! DEFINITION. The instructions: one constructor for each row of spec/opcode_table.json (seven emitted words,
fourteen host operations), and the encoded forms they are read from. -/

namespace Sys2Proof

/-- The rows of spec/opcode_table.json. The first seven are the words the block emits to the controller (R51);
the other fourteen are the operations the host issues (R58). -/
inductive Instr where
  /-- `I_CLEAR`, the clear-display instruction word (R51). -/
  | iClear
  /-- `I_FUNC`, the function-set instruction word (R51). -/
  | iFunc
  /-- `I_DISP`, the display-control instruction word `00001DCB` (R51, R53). -/
  | iDisp (d c b : Bool)
  /-- `I_ENTRY`, the entry-mode instruction word (R51). -/
  | iEntry
  /-- `I_HOME`, the return-home instruction word (R51). -/
  | iHome
  /-- `D_CHAR`, a character data word with its seven-bit code point (R51, R54). -/
  | dChar (c : BitVec 7)
  /-- `D_NULL`, a null padding data word (R51, R87). -/
  | dNull
  /-- `CONSTRUCT` (R161). -/
  | construct (rs e : LineId) (d : List LineId)
  /-- `DESTRUCT` (R165). -/
  | destruct
  /-- `CLEAR` (R121). -/
  | clear
  /-- `SET_TEXT` (R131). -/
  | setText (text : List CodePoint)
  /-- `APPEND` (R139). -/
  | append (text : List CodePoint)
  /-- `SET_DISPLAY` (R104). -/
  | setDisplay (b : Bool)
  /-- `SET_CURSOR` (R105). -/
  | setCursor (b : Bool)
  /-- `SET_BLINK` (R106). -/
  | setBlink (b : Bool)
  /-- `DISPLAY_ON` (R107). -/
  | displayOn
  /-- `DISPLAY_OFF` (R108). -/
  | displayOff
  /-- `CURSOR_ON` (R109). -/
  | cursorOn
  /-- `CURSOR_OFF` (R110). -/
  | cursorOff
  /-- `BLINK_ON` (R111). -/
  | blinkOn
  /-- `BLINK_OFF` (R112). -/
  | blinkOff
deriving DecidableEq, Repr

/-- The names of the fourteen public operations (R58): what the sequencer's `op` ranges over (R19). -/
inductive OpName where
  | construct | destruct | clear | setText | append | setDisplay | setCursor | setBlink
  | displayOn | displayOff | cursorOn | cursorOff | blinkOn | blinkOff
deriving DecidableEq, Repr

/-- The operands the host delivers beside a command word (R57); an operation reads only its own. -/
structure Operands where
  /-- `rsLine` of `CONSTRUCT`. -/
  rs : LineId := 0
  /-- `eLine` of `CONSTRUCT`. -/
  e : LineId := 0
  /-- `dataLines` of `CONSTRUCT`, a list whose length the operation checks. -/
  d : List LineId := []
  /-- The text of `SET_TEXT` and `APPEND`. -/
  text : List CodePoint := []
deriving DecidableEq, Repr

/-- One operation as the host presents it: by name (the source's method call, R7, R58) or as a command word
(R57), with the operands beside it. -/
inductive HostCall where
  /-- A call by name; `a` is the boolean operand of the three set operations. -/
  | named (op : OpName) (a : Bool) (ops : Operands)
  /-- A command word. -/
  | word (w : CommandWord) (ops : Operands)
deriving DecidableEq, Repr

/-- The two layers of encoding (R50). -/
inductive Encoded where
  /-- A nine-bit word the block emits (R51). -/
  | emitted (w : EmittedWord)
  /-- An eight-bit host command word with its operands (R57). -/
  | command (w : CommandWord) (ops : Operands)
deriving DecidableEq, Repr

/-- The seven emitted words, as against the fourteen host operations (R50). -/
def Instr.isEmitted : Instr → Bool
  | .iClear | .iFunc | .iDisp _ _ _ | .iEntry | .iHome | .dChar _ | .dNull => true
  | .construct _ _ _ | .destruct | .clear | .setText _ | .append _ | .setDisplay _ | .setCursor _
  | .setBlink _ | .displayOn | .displayOff | .cursorOn | .cursorOff | .blinkOn | .blinkOff => false

/-- The row whose words an instruction shares: a wrapper's expansion (R59), and `D_CHAR` with code point 0 for
`D_NULL` ("bit for bit the same word", R51); every other row is its own. -/
def Instr.expansion : Instr → Instr
  | .displayOn => .setDisplay true
  | .displayOff => .setDisplay false
  | .cursorOn => .setCursor true
  | .cursorOff => .setCursor false
  | .blinkOn => .setBlink true
  | .blinkOff => .setBlink false
  | .dNull => .dChar 0#7
  | .iClear => .iClear
  | .iFunc => .iFunc
  | .iDisp d c b => .iDisp d c b
  | .iEntry => .iEntry
  | .iHome => .iHome
  | .dChar c => .dChar c
  | .construct rs e d => .construct rs e d
  | .destruct => .destruct
  | .clear => .clear
  | .setText t => .setText t
  | .append t => .append t
  | .setDisplay b => .setDisplay b
  | .setCursor b => .setCursor b
  | .setBlink b => .setBlink b

end Sys2Proof
end

