-- ==== Sys2Proof/Decode.lean ====
section
/-! DEFINITION. Decoding: the words of both layers to instructions, total, rejecting by name; then the encoder,
written from the same tables (R51, R53, R56, R57, R60). -/

namespace Sys2Proof

/-- Why a word is no instruction. -/
inductive Reject where
  /-- Operation number 0x8..0xF (R60). -/
  | reservedOperation
  /-- `cmd[3:1]` not zero (R60). -/
  | reservedBits
  /-- `cmd[0]` = 1 with an operation that has no boolean operand (R60). -/
  | reservedOperandBit
  /-- None of the seven kinds of emitted word (R51, R55). -/
  | notAnEmittedWord
deriving DecidableEq, Repr

/-- What decoding gives. -/
inductive Decoded where
  | instr (i : Instr)
  | reject (r : Reject)
deriving DecidableEq, Repr

/-- An operation whose `cmd[0]` must be 0 (R57). -/
def decodeNoOperand (a : Bool) (i : Instr) : Decoded :=
  if a then .reject .reservedOperandBit else .instr i

/-- The host command word (R57), with the reserved words of R60 rejected. -/
def decodeCommand (w : CommandWord) (ops : Operands) : Decoded :=
  let a := w.getLsbD 0
  if w.extractLsb' 1 3 = 0#3 then
    match (w.extractLsb' 4 4).toNat with
    | 0x0 => decodeNoOperand a (.construct ops.rs ops.e ops.d)
    | 0x1 => decodeNoOperand a .destruct
    | 0x2 => decodeNoOperand a .clear
    | 0x3 => decodeNoOperand a (.setText ops.text)
    | 0x4 => decodeNoOperand a (.append ops.text)
    | 0x5 => .instr (.setDisplay a)
    | 0x6 => .instr (.setCursor a)
    | 0x7 => .instr (.setBlink a)
    | _ => .reject .reservedOperation
  else .reject .reservedBits

/-- The emitted word: the first matching row of R56. `D_NULL` is read as `D_CHAR` with code point 0, the same
word (R51). -/
def decodeEmitted (w : EmittedWord) : Decoded :=
  if w = 0x001#9 then .instr .iClear
  else if w = 0x002#9 then .instr .iHome
  else if w = 0x006#9 then .instr .iEntry
  else if w = 0x038#9 then .instr .iFunc
  else if w.extractLsb' 3 6 = 0b000001#6 then
    .instr (.iDisp (w.getLsbD 2) (w.getLsbD 1) (w.getLsbD 0))
  else if w.extractLsb' 7 2 = 0b10#2 then .instr (.dChar (w.extractLsb' 0 7))
  else .reject .notAnEmittedWord

/-- Both layers. -/
def decode : Encoded → Decoded
  | .emitted w => decodeEmitted w
  | .command w ops => decodeCommand w ops

/-- A call by name (R58): `a` and the operands are read only by the operations that have them. -/
def decodeNamed (op : OpName) (a : Bool) (ops : Operands) : Instr :=
  match op with
  | .construct => .construct ops.rs ops.e ops.d
  | .destruct => .destruct
  | .clear => .clear
  | .setText => .setText ops.text
  | .append => .append ops.text
  | .setDisplay => .setDisplay a
  | .setCursor => .setCursor a
  | .setBlink => .setBlink a
  | .displayOn => .displayOn
  | .displayOff => .displayOff
  | .cursorOn => .cursorOn
  | .cursorOff => .cursorOff
  | .blinkOn => .blinkOn
  | .blinkOff => .blinkOff

/-- What the host presents, in either spelling. -/
def decodeCall : HostCall → Decoded
  | .named op a ops => .instr (decodeNamed op a ops)
  | .word w ops => decodeCommand w ops

/-- The instruction of a table word: eight bits are a host command word with operands of zeros, nine bits (in
whole bytes: sixteen, the seven above them 0) are an emitted word. -/
def decodeTableWord (nbits w : Nat) : Option Instr :=
  let d := if nbits ≤ 8 then
      (if w < 2 ^ 8 then decode (.command (BitVec.ofNat 8 w) {}) else .reject .reservedOperation)
    else if w < 2 ^ 9 then decode (.emitted (BitVec.ofNat 9 w)) else .reject .notAnEmittedWord
  match d with
  | .instr i => some i
  | .reject _ => none

/-! ## The encoder -/

/-- `w[8]` above `w[7:0]` (R51). -/
def emittedWord (rs : Bool) (v : Byte) : EmittedWord := BitVec.ofBool rs ++ v

/-- `cmd[7:4]`, three zeros, `cmd[0]` (R57). -/
def commandWord (op : BitVec 4) (a : Bool) : CommandWord := op ++ 0#3 ++ BitVec.ofBool a

/-- The words of an instruction, from the tables of R51, R53, R54, R57 and R59. -/
def encode : Instr → Encoded
  | .iClear => .emitted (emittedWord false 0b00000001#8)
  | .iFunc => .emitted (emittedWord false 0b00111000#8)
  | .iDisp d c b =>
    .emitted (emittedWord false (0b00001#5 ++ BitVec.ofBool d ++ BitVec.ofBool c ++ BitVec.ofBool b))
  | .iEntry => .emitted (emittedWord false 0b00000110#8)
  | .iHome => .emitted (emittedWord false 0b00000010#8)
  | .dChar c => .emitted (emittedWord true (0#1 ++ c))
  | .dNull => .emitted (emittedWord true 0b00000000#8)
  | .construct rs e d => .command (commandWord 0x0#4 false) { rs := rs, e := e, d := d }
  | .destruct => .command (commandWord 0x1#4 false) {}
  | .clear => .command (commandWord 0x2#4 false) {}
  | .setText t => .command (commandWord 0x3#4 false) { text := t }
  | .append t => .command (commandWord 0x4#4 false) { text := t }
  | .setDisplay b => .command (commandWord 0x5#4 b) {}
  | .setCursor b => .command (commandWord 0x6#4 b) {}
  | .setBlink b => .command (commandWord 0x7#4 b) {}
  | .displayOn => .command (commandWord 0x5#4 true) {}
  | .displayOff => .command (commandWord 0x5#4 false) {}
  | .cursorOn => .command (commandWord 0x6#4 true) {}
  | .cursorOff => .command (commandWord 0x6#4 false) {}
  | .blinkOn => .command (commandWord 0x7#4 true) {}
  | .blinkOff => .command (commandWord 0x7#4 false) {}

end Sys2Proof
end

