-- ==== Sys2Proof/Config.lean ====
section
/-! DEFINITION. The parameters the spec fixes (R8, R9), and the free values: constants without a body, one for
each value the spec leaves open while the block goes on. -/

namespace Sys2Proof

/-- `VISIBLE`: visible cells per row (R8). -/
@[simp] abbrev Config.visible : Nat := 16
/-- `ROW_CELLS`: addressable cells per row in the controller (R8). -/
@[simp] abbrev Config.rowCells : Nat := 40
/-- `ROWS`: display rows (R8). -/
@[simp] abbrev Config.rows : Nat := 2
/-- `HIDDEN`: hidden cells per row; also the number of null bytes in one skip (R8). -/
@[simp] abbrev Config.hidden : Nat := 24
/-- `SPAN`: the largest cursor position (R8). -/
@[simp] abbrev Config.span : Nat := 56
/-- `TEXT_MAX`: the largest `setText` length (R8). -/
@[simp] abbrev Config.textMax : Nat := 32
/-- `ROW0_END`: the cursor position at which `append` skips, and the bound of its branch (a) (R8). -/
@[simp] abbrev Config.row0End : Nat := 16
/-- `PAD_AT`: the pre-increment cursor position after which `setText` pads (R8, R133). -/
@[simp] abbrev Config.padAt : Nat := 15
/-- `ROW1_MIN`: the lower bound of `append`'s branch (b), a quirk the source keeps on purpose (R8, R141). -/
@[simp] abbrev Config.row1Min : Nat := 39
/-- `ASCII_LIMIT`: code points below this are encodable (R8). -/
@[simp] abbrev Config.asciiLimit : Nat := 128
/-- `LEN_W`: width in bits of a text operand's length (R9, D3). -/
@[simp] abbrev Config.lenW : Nat := 16
/-- `CPW`: width in bits of one code point (R9, D3). -/
@[simp] abbrev Config.cpW : Nat := 21
/-- The function-set byte `00111000`, "not reconfigurable" (R8, R16). -/
@[simp] abbrev Config.functionSet : Byte := 0x38#8
/-- The entry-mode byte `00000110` (R8, R16). -/
@[simp] abbrev Config.entryMode : Byte := 0x06#8
/-- The clear-display byte `00000001` (R51). -/
@[simp] abbrev Config.clearDisplay : Byte := 0x01#8
/-- The return-home byte `00000010` (R51). -/
@[simp] abbrev Config.returnHome : Byte := 0x02#8
/-- The null byte `00000000` of the padding (R51). -/
@[simp] abbrev Config.nullByte : Byte := 0x00#8
/-- The default of `ENABLE_DELAY`: 100 microseconds = 1/10000 second (R8, R9). The delay in force is
`State.enableDelay`: it is tunable. -/
def Config.defaultEnableDelay : Duration := mkRat 1 10000

/-! ## Free values

Nothing constrains these: a claim holds whatever they are. The argument is the position, counted from 1, of the
backend call at which the value arises, so that each occurrence has a value of its own. -/

/-- FREE VALUE: what a `configureAsOutput` or `writeLine` call that answered *fault* did to its line ("the line may or
may not have changed", R89, R186, D10): `unclaimed` stands for nothing done, anything else is the level it left. No such
call releases a line (R164). notes/assumptions/8.md. -/
opaque Config.faultedLevel : Nat → Level

/-- FREE VALUE: what the controller takes, if anything, where its input is indeterminate (R89; U2, U6 of
spec/93_implementation_defined.md). notes/assumptions/9.md. -/
opaque Config.strayLatch : Nat → Option (Bool × Byte)

/-- FREE VALUE: the bit the controller samples on a line whose level the spec leaves unspecified (R17; U3, U4).
Call position, then line. notes/assumptions/10.md. -/
opaque Config.floatingBit : Nat → LineId → Bool

/-- FREE VALUE: the six-bit cursor register after a data transmission that starts at 63, the one increment the
spec does not state (R13, R147, D12). notes/assumptions/11.md. -/
opaque Config.cursorAfterMax : Nat → BitVec 6

end Sys2Proof
end

