-- ==== Sys2Proof/Machine/State.lean ====
section
/-! DEFINITION. The state of one instance of the block (R10), the record of what it has done at its interfaces
(the event trace, the latched trace, the returned status: D1), and the inputs a step reads (the host's calls, the
backend's answers, the delay parameters: R22). Plain data throughout. -/

namespace Sys2Proof.Machine

/-- The status an operation returns (R180). -/
inductive Status where
  /-- 0: success. -/
  | ok
  /-- 1: "caller supplied out-of-contract arguments". -/
  | validationError
  /-- 2: "non-ASCII character encountered". -/
  | encodingError
  /-- 3: "malformed internal byte pattern". -/
  | protocolError
  /-- 4: "backend signals an I/O failure". -/
  | hardwareFault
  /-- 5: the operation is not accepted in the current lifecycle state. -/
  | lifecycleFault
deriving DecidableEq, Repr

/-- The lifecycle state (R18). -/
inductive Lifecycle where
  /-- Power-on; nothing bound, nothing claimed. -/
  | unbound
  /-- Constructed. -/
  | ready
  /-- A backend call answered *fault*. -/
  | faulted
  /-- `destruct` has run. -/
  | released
deriving DecidableEq, Repr

/-- A backend call: one entry of the event trace (R6, spec/00_scope.md section 6.3). -/
inductive BackendCall where
  /-- `configureAsOutput(l)`. -/
  | cfg (l : LineId)
  /-- `writeLine(l, b)`. -/
  | write (l : LineId) (b : Bool)
  /-- `sleep(d)`. -/
  | sleep (d : Duration)
  /-- `releaseAllClaimedLines()`. -/
  | rel
deriving DecidableEq, Repr

/-- One entry of the latched trace: what the controller takes at a falling edge of E (R88). -/
structure Latch where
  /-- The level of RS: `false` instruction, `true` character data. -/
  rs : Bool
  /-- The levels of D7..D0. -/
  byte : Byte
deriving DecidableEq, Repr

/-- An occasion on which the controller may have taken something the latched trace cannot vouch for (R89; U2, U6
of spec/93_implementation_defined.md). -/
structure Stray where
  /-- How many words stood in the latched trace then. -/
  after : Nat
  /-- What was taken, if anything: always a free value. -/
  word : Option (Bool × Byte)
deriving DecidableEq, Repr

/-- The operation-specific part of the sequencer's position (R19). -/
inductive Stage where
  /-- `CONSTRUCT`'s line set-up, with how many of its 20 calls are made (R162). -/
  | setup (done : Nat)
  /-- `CLEAR_SEQ`, with which of the five instructions is next, from 0 (R121). -/
  | clear (k : Nat)
  /-- The one `DISPLAY_CONTROL()` of a set operation (R104). -/
  | mode
  /-- The characters and padding of a text operation (R131, R139). -/
  | text
  /-- `DESTRUCT`'s `Rel()` (R165). -/
  | release
deriving DecidableEq, Repr

/-- The sequencer's position inside the operation in progress (R19). -/
structure SeqPos where
  /-- The operation in progress. -/
  op : OpName
  /-- The stage it has reached. -/
  stage : Stage
  /-- The encoded copy of the text operand (R42, D24). -/
  text : List (BitVec 7) := []
  /-- The index of the next character to send, `0..len(text)`. -/
  i : Nat := 0
  /-- The null bytes still to send in the current skip, 0..24. -/
  pad : Nat := 0
  /-- The backend calls of the current `TRANSMIT` already made, 0..21 (R82). -/
  phase : Nat := 0
deriving DecidableEq, Repr

/-- `seq` (R19): IDLE between operations. -/
inductive Seq where
  | idle
  | busy (p : SeqPos)
deriving DecidableEq, Repr

/-- The block's bytes in the controller's cell space (R30, R31), by linear position; a position that is not listed
holds an unknown byte (U9). -/
abbrev Memory := List Host.Cell

/-- The level of every line, by identifier; a line that is not listed is Unclaimed (R17). -/
abbrev Lines := List (LineId × Level)

/-- No operation of this block stops the machine: every error the spec describes is a status an operation returns
(R180, R191), so there is no fault to raise. -/
inductive Fault where
deriving DecidableEq, Repr

/-- Why an instruction is given no meaning. -/
inductive Refusal where
  /-- An instruction whose meaning is not written, by its mnemonic. Raised by `exec` alone; safe. -/
  | notModelled (mnemonic : String)
  /-- A host operation asked for while another is in progress on the same instance: "a model gives them no
  meaning (refuses them)" (R197, R222, U7). Raised by every host operation's meaning; safe. `step` never asks for
  one. -/
  | operationInProgress
deriving DecidableEq, Repr

/-- The state of one instance. -/
structure State where
  /-- `rsLine` (R11). -/
  rsLine : LineId
  /-- `eLine` (R11). -/
  eLine : LineId
  /-- `dataLines[0..7]`, index 0 the least-significant bit (R11). -/
  dataLines : Vector LineId 8
  /-- The mode flag `displayOn` (R12). -/
  displayOn : Bool
  /-- The mode flag `cursorOn` (R12). -/
  cursorOn : Bool
  /-- The mode flag `blinkOn` (R12). -/
  blinkOn : Bool
  /-- `cursorPosition`, `CURSOR_W` = 6 bits (R13, R14). -/
  cursorPosition : BitVec 6
  /-- `lifecycle` (R18). -/
  lifecycle : Lifecycle
  /-- `seq` (R19). -/
  seq : Seq
  /-- `level[l]` of every line (R17). -/
  levels : Lines
  /-- What the block has written to the controller's cells since they were last cleared (R31, R86). -/
  cells : Memory
  /-- The latched trace, oldest first (R88). -/
  latched : List Latch
  /-- The occasions the latched trace does not vouch for, oldest first (R89, U2, U6). -/
  stray : List Stray
  /-- The event trace, oldest first (spec/00_scope.md section 6.3). -/
  events : List BackendCall
  /-- How many backend calls have been made: the position of the last one in the run, and the counter that the
  free values of Config are applied to. -/
  calls : Nat
  /-- The status the block last returned to the host (R20); `none` before the first. -/
  returned : Option Status
  /-- INPUT: the operations the host will issue, the next one first (R7, R222). -/
  host : List HostCall
  /-- INPUT: the positions in the run, counted from 1, of the backend calls that answer *fault* (R6, U18). -/
  faultAt : List Nat
  /-- PARAMETER: `ENABLE_DELAY` in seconds (R8, R9). -/
  enableDelay : Duration
  /-- PARAMETER: `T_PW_MIN` in seconds (R9, U2). -/
  tPwMin : Duration
deriving DecidableEq, Repr

/-- Power-on (R24, R210). The line registers, which the spec leaves unspecified, hold 0 (notes/assumptions/1.md);
the inputs are the target environment's: no call waits, no backend call faults, the delay is the default and
`T_PW_MIN` is 0 (notes/assumptions/2.md, 6.md, 7.md). -/
def State.reset : State where
  rsLine := 0
  eLine := 0
  dataLines := Vector.replicate 8 0
  displayOn := true
  cursorOn := false
  blinkOn := false
  cursorPosition := 0#6
  lifecycle := .unbound
  seq := .idle
  levels := []
  cells := []
  latched := []
  stray := []
  events := []
  calls := 0
  returned := none
  host := []
  faultAt := []
  enableDelay := Config.defaultEnableDelay
  tPwMin := 0

end Sys2Proof.Machine
end

