-- ==== Sys2Proof/Machine/Ops.lean ====
section
/-! DEFINITION. The shared operations: finite maps in canonical form, line levels, the controller's cells, the
observer of the enable line, one backend call and its *fault* answer, raising a status and ending an operation. -/

namespace Sys2Proof.Machine

/-! ## Finite maps: association lists with strictly rising keys -/

/-- The value at a key. -/
def mapGet {β : Type} : List (Nat × β) → Nat → Option β
  | [], _ => none
  | (a, x) :: m, k => if a = k then some x else mapGet m k

/-- Write a value at a key, keeping the keys strictly rising. -/
def mapPut {β : Type} (k : Nat) (v : β) : List (Nat × β) → List (Nat × β)
  | [] => [(k, v)]
  | (a, x) :: m =>
    if k < a then (k, v) :: (a, x) :: m
    else if k = a then (k, v) :: m
    else (a, x) :: mapPut k v m

/-- Remove a key. -/
def mapDel {β : Type} (k : Nat) : List (Nat × β) → List (Nat × β)
  | [] => []
  | (a, x) :: m => if k = a then m else (a, x) :: mapDel k m

/-- The keys rise strictly. -/
abbrev KeysRise {β : Type} (m : List (Nat × β)) : Prop := m.Pairwise fun p q => p.1 < q.1

/-! ## Updates of one field -/

/-- Bind the ten line identifiers (R161). -/
def State.bindLines (s : State) (rs e : LineId) (d : Vector LineId 8) : State :=
  { s with rsLine := rs, eLine := e, dataLines := d }
/-- Write `displayOn`. -/
def State.setDisplayOn (s : State) (b : Bool) : State := { s with displayOn := b }
/-- Write `cursorOn`. -/
def State.setCursorOn (s : State) (b : Bool) : State := { s with cursorOn := b }
/-- Write `blinkOn`. -/
def State.setBlinkOn (s : State) (b : Bool) : State := { s with blinkOn := b }
/-- Write `cursorPosition`. -/
def State.setCursorPosition (s : State) (c : BitVec 6) : State := { s with cursorPosition := c }
/-- Write `lifecycle`. -/
def State.setLifecycle (s : State) (l : Lifecycle) : State := { s with lifecycle := l }
/-- Write `seq`. -/
def State.setSeq (s : State) (q : Seq) : State := { s with seq := q }
/-- Write the line levels. -/
def State.setLevels (s : State) (m : Lines) : State := { s with levels := m }
/-- Write the cells. -/
def State.setCells (s : State) (m : Memory) : State := { s with cells := m }
/-- Append to the latched trace. -/
def State.pushLatched (s : State) (w : Latch) : State := { s with latched := s.latched ++ [w] }
/-- Append to the occasions the latched trace does not vouch for. -/
def State.pushStray (s : State) (w : Option (Bool × Byte)) : State :=
  { s with stray := s.stray ++ [⟨s.latched.length, w⟩] }
/-- Append a backend call to the event trace and count it. -/
def State.recordCall (s : State) (c : BackendCall) : State :=
  { s with events := s.events ++ [c], calls := s.calls + 1 }
/-- Return a status to the host (R20). -/
def State.setReturned (s : State) (e : Status) : State := { s with returned := some e }
/-- The host's calls that are still to come. -/
def State.setHost (s : State) (h : List HostCall) : State := { s with host := h }

/-! ## Line levels (R17) -/

/-- `Level` of a driven line. -/
def levelOfBool (b : Bool) : Level := if b then .high else .low

/-- `level[l]`. -/
def State.levelOf (s : State) (l : LineId) : Level := (mapGet s.levels l).getD .unclaimed

/-- The level map with one line changed; Unclaimed is what an unlisted line reads as. -/
def linesPut (l : LineId) (v : Level) (m : Lines) : Lines :=
  if v = .unclaimed then mapDel l m else mapPut l v m

/-- Set `level[l]`. -/
def State.putLevel (s : State) (l : LineId) (v : Level) : State := s.setLevels (linesPut l v s.levels)

/-- The canonical form of the level map: lines rising, no Unclaimed entry. -/
abbrev Lines.wf (m : Lines) : Prop := KeysRise m ∧ ∀ p ∈ m, p.2 ≠ .unclaimed

/-! ## The controller's cell space (R30, R31) -/

/-- `2 x 40` cells (R30). -/
def cellCount : Nat := Config.rows * Config.rowCells

/-- The row of a linear position (R31). -/
def cellRow (p : Nat) : Nat := if p < Config.rowCells then 0 else 1

/-- The column of a linear position (R31). -/
def cellColumn (p : Nat) : Nat := if p < Config.rowCells then p else p - Config.rowCells

/-- Whether a linear position is shown: the first 16 columns of each row (R31). -/
def cellVisible (p : Nat) : Bool := decide (p < cellCount) && decide (cellColumn p < Config.visible)

/-- The byte the block wrote at a linear position since the cells were last cleared; `none` is unknown (U9). The
block itself cannot read a cell (R30): this is what claims are stated with. -/
def State.readCell (s : State) (p : Nat) : Option Byte := mapGet s.cells p

/-- `MemWrite(addr, 1, v)` (spec/00_scope.md section 6.2). -/
def memoryWrite (p : Nat) (v : Byte) (m : Memory) : Memory := mapPut p v m

/-- The canonical form of the cell memory: positions rising, each one of the 80 cells. -/
abbrev Memory.wf (m : Memory) : Prop := KeysRise m ∧ ∀ c ∈ m, c.1 < cellCount

/-! ## What the controller sees (R88) -/

/-- The bit sampled on a line: its level, or a free value where the level is unspecified (R17). -/
def State.sampleLine (s : State) (l : LineId) : Bool :=
  match s.levelOf l with
  | .high => true
  | .low => false
  | .undriven => Config.floatingBit s.calls l
  | .unclaimed => Config.floatingBit s.calls l

/-- The byte on D7..D0: line `D<i>` carries bit `v[i]` (R33). -/
def State.sampleByte (s : State) : Byte :=
  BitVec.ofBool (s.sampleLine s.dataLines[7]) ++ BitVec.ofBool (s.sampleLine s.dataLines[6])
    ++ BitVec.ofBool (s.sampleLine s.dataLines[5]) ++ BitVec.ofBool (s.sampleLine s.dataLines[4])
    ++ BitVec.ofBool (s.sampleLine s.dataLines[3]) ++ BitVec.ofBool (s.sampleLine s.dataLines[2])
    ++ BitVec.ofBool (s.sampleLine s.dataLines[1]) ++ BitVec.ofBool (s.sampleLine s.dataLines[0])

/-- What a latched word does to the cells: a data byte goes to the cell at `cursorPosition` (R86); the
clear-display word leaves every cell unknown (U9); no other word writes a cell. -/
def cellsAfterLatch (w : Latch) (cursor : BitVec 6) (m : Memory) : Memory :=
  if w.rs then memoryWrite cursor.toNat w.byte m
  else if w.byte = Config.clearDisplay then []
  else m

/-- The controller's input is indeterminate here: nothing may be assumed of what it took, and nothing about its
cells holds any longer (R89; U2, U6). -/
def State.indeterminate (s : State) : State := (s.pushStray (Config.strayLatch s.calls)).setCells []

/-- A falling edge of E: the controller latches RS and the byte (R88, D29), if the pulse is long enough for it;
with `ENABLE_DELAY < T_PW_MIN` what it takes is any value (R220, U2). -/
def State.observeFall (s : State) : State :=
  if s.tPwMin ≤ s.enableDelay then
    let w : Latch := ⟨s.sampleLine s.rsLine, s.sampleByte⟩
    (s.pushLatched w).setCells (cellsAfterLatch w s.cursorPosition s.cells)
  else s.indeterminate

/-! ## Backend calls (R6) -/

/-- What a completed call does. A falling edge is a write of 0 to E while E was 1 (R88). `Rel()` with E left high
may itself make E fall (U6). -/
def applyCall (c : BackendCall) (s : State) : State :=
  match c with
  | .cfg l => s.putLevel l .undriven
  | .write l b =>
    let t := s.putLevel l (levelOfBool b)
    if l = s.eLine ∧ b = false ∧ s.levelOf s.eLine = .high then t.observeFall else t
  | .sleep _ => s
  | .rel => (if s.levelOf s.eLine = .high then s.indeterminate else s).setLevels []

/-- The level a `Cfg` or `W` that answers *fault* leaves its line at: the level it had, or any level of a claimed line
(R89, R186, D10). A line that was claimed stays claimed (R164). -/
def State.faultedLevelOf (s : State) (l : LineId) : Level :=
  if Config.faultedLevel s.calls = .unclaimed then s.levelOf l else Config.faultedLevel s.calls

/-- What a call that answers *fault* does: the effect on its own line is unspecified (R89, R186, D10). `Rel()`
releases all the same (F8 of spec/95_test_vectors.md; its answer is swallowed, R165). -/
def faultCall (c : BackendCall) (s : State) : State :=
  match c with
  | .cfg l => s.putLevel l (s.faultedLevelOf l)
  | .write l _ => s.putLevel l (s.faultedLevelOf l)
  | .sleep _ => s
  | .rel => applyCall .rel s

/-- How far an operation has got. -/
inductive Run where
  /-- It goes on. -/
  | going (s : State)
  /-- It has ended with an error. -/
  | raised (e : Status) (s : State)
deriving DecidableEq, Repr

/-- The next statement of the operation, if it has not ended. -/
def Run.bind : Run → (State → Run) → Run
  | .going s, k => k s
  | .raised e s, _ => .raised e s

/-- Raising a status (R191): nothing is saved and control goes nowhere; `HardwareFault`, and `ProtocolError` with
it (R185), leave the handle FAULTED (R186); the others change nothing. -/
def raise (e : Status) (s : State) : Run :=
  match e with
  | .hardwareFault => .raised e (s.setLifecycle .faulted)
  | .protocolError => .raised e (s.setLifecycle .faulted)
  | .ok => .raised e s
  | .validationError => .raised e s
  | .encodingError => .raised e s
  | .lifecycleFault => .raised e s

/-- One backend call: it is made, and the backend answers done or *fault* (R6, R186). -/
def emit (c : BackendCall) (s : State) : Run :=
  let t := s.recordCall c
  if t.calls ∈ t.faultAt then raise .hardwareFault (faultCall c t) else .going (applyCall c t)

/-- Backend calls in order, cut short at the first that answers *fault* (R38, R186). -/
def emitAll : List BackendCall → State → Run
  | [], s => .going s
  | c :: cs, s => (emit c s).bind (emitAll cs)

/-- The total of the delays a trace asks for: the lower bound of its duration (R84, R230). -/
def sleepTotal : List BackendCall → Duration
  | [] => 0
  | .sleep d :: cs => d + sleepTotal cs
  | .cfg _ :: cs => sleepTotal cs
  | .write _ _ :: cs => sleepTotal cs
  | .rel :: cs => sleepTotal cs

/-! ## Ending an operation -/

/-- The status goes to the host and the sequencer is IDLE (R19, R20). -/
def State.endWith (s : State) (e : Status) : State := (s.setReturned e).setSeq .idle

/-- The end of a host operation: `return OK`, or the status it raised (R180, R191). -/
def finish : Run → Host.Outcome State Fault Refusal
  | .going s => .next (s.endWith .ok)
  | .raised e s => .next (s.endWith e)

/-- The end of one emitted word: a fault in it ends the enclosing operation (R89); otherwise the operation goes
on, and nothing is returned. -/
def finishWord : Run → Host.Outcome State Fault Refusal
  | .going s => .next s
  | .raised e s => .next (s.endWith e)

/-- A host operation: it has a meaning only when none is in progress on the instance (R197, R222). -/
def hostOp (k : State → Run) (s : State) : Host.Outcome State Fault Refusal :=
  if s.seq = .idle then finish (k s) else .refused .operationInProgress

/-- The result of an operation's checks: go on with `k`, or raise (R190). -/
def afterChecks {α : Type} (c : Except Status α) (s : State) (k : α → State → Run) : Run :=
  match c with
  | .error e => raise e s
  | .ok a => k a s

/-- The lifecycle check of every operation but `CONSTRUCT` and `DESTRUCT` (R187). -/
def checkReady (s : State) : Except Status Unit :=
  if s.lifecycle = .ready then .ok () else .error .lifecycleFault

/-- The number of a status (R180). -/
def Status.code : Status → Nat
  | .ok => 0
  | .validationError => 1
  | .encodingError => 2
  | .protocolError => 3
  | .hardwareFault => 4
  | .lifecycleFault => 5

end Sys2Proof.Machine
end

