-- ==== Sys2Proof/Machine/Flags.lean ====
section
/-! DEFINITION. The three mode flags and the display-control byte built from them (R12, R15, R53). -/

namespace Sys2Proof.Machine

/-- A flag as 0 or 1, weighted. -/
def flagWeight (b : Bool) (w : Byte) : Byte := if b then w else 0#8

/-- `0x08 + 4*D + 2*C + B` (R53). -/
def displayControlByte (d c b : Bool) : Byte :=
  0x08#8 + flagWeight d 4#8 + flagWeight c 2#8 + flagWeight b 1#8

/-- `DCB`: rebuilt from the flags whenever it is sent (R15). -/
def State.dcb (s : State) : Byte := displayControlByte s.displayOn s.cursorOn s.blinkOn

/-- The flags' values after `CONSTRUCT` (R12, R161). -/
def State.setDefaultFlags (s : State) : State := ((s.setDisplayOn true).setCursorOn false).setBlinkOn false

end Sys2Proof.Machine
end

