-- ==== Sys2Proof/Machine/Operands.lean ====
section
/-! DEFINITION. The operand forms: patterns, the text encoder and its inverse, the capacity rule, the list of data
lines. -/

namespace Sys2Proof.Machine

/-! ## Patterns (spec/00_scope.md section 6.1) -/

/-- `pat(v)`: the eight digits of a byte, most-significant first. -/
def patternOf (v : Byte) : List Nat :=
  [(v.getLsbD 7).toNat, (v.getLsbD 6).toNat, (v.getLsbD 5).toNat, (v.getLsbD 4).toNat,
    (v.getLsbD 3).toNat, (v.getLsbD 2).toNat, (v.getLsbD 1).toNat, (v.getLsbD 0).toNat]

/-- `val(p)`: the byte of a pattern, or `none` if it "is not exactly 8 bits / not composed of binary digits"
(R80, R83). -/
def patternValue (p : List Nat) : Option Byte :=
  if p.length = 8 ∧ ∀ x ∈ p, x ≤ 1 then some (BitVec.ofNat 8 (p.foldl (fun a x => 2 * a + x) 0)) else none

/-! ## The text encoder (R70-R77) -/

/-- `zext_8(c)` for `c < 256` (spec/00_scope.md section 6.1). -/
def byteOfCodePoint (c : CodePoint) : Byte := BitVec.ofNat 8 c

/-- `ENCODE(text)`: every code point is checked before anything is produced (R71, R72, R73). -/
def encodeText (text : List CodePoint) : Except Status (List Byte) :=
  if ∀ c ∈ text, c < Config.asciiLimit then .ok (text.map byteOfCodePoint) else .error .encodingError

/-- `DECODE(bytes)` (R76). -/
def decodeText (bytes : List Byte) : List CodePoint := bytes.map BitVec.toNat

/-- The seven-bit code point of an encoded byte, `w[6:0]` of `D_CHAR` (R51, R75). -/
def charOfByte (v : Byte) : BitVec 7 := v.extractLsb' 0 7

/-! ## The checks of the operations (R182, R190) -/

/-- `CAPACITY_OK(c, L)`, over unbounded naturals (R140, R147). -/
def capacityOk (c l : Nat) : Bool :=
  (decide (c ≤ Config.row0End) && decide (c + Config.hidden + l ≤ Config.span))
    || (decide (Config.row1Min ≤ c) && decide (c + l ≤ Config.span))

/-- The checks of `SET_TEXT`: lifecycle, length, encoding (R131). -/
def checkSetText (text : List CodePoint) (s : State) : Except Status (List Byte) :=
  if s.lifecycle ≠ .ready then .error .lifecycleFault
  else if Config.textMax < text.length then .error .validationError
  else encodeText text

/-- The checks of `APPEND`: lifecycle, emptiness, capacity, encoding (R139). -/
def checkAppend (text : List CodePoint) (s : State) : Except Status (List Byte) :=
  if s.lifecycle ≠ .ready then .error .lifecycleFault
  else if text.length = 0 then .error .validationError
  else if capacityOk s.cursorPosition.toNat text.length = false then .error .validationError
  else encodeText text

/-- A list of exactly eight data lines (R163). -/
def dataLinesOf (d : List LineId) : Except Status (Vector LineId 8) :=
  if h : d.length = 8 then .ok ⟨d.toArray, h⟩ else .error .validationError

/-- The checks of `CONSTRUCT`: lifecycle, length of the list (R161). -/
def checkConstruct (d : List LineId) (s : State) : Except Status (Vector LineId 8) :=
  if s.lifecycle ≠ .unbound ∧ s.lifecycle ≠ .released then .error .lifecycleFault
  else dataLinesOf d

end Sys2Proof.Machine
end

