-- ==== Sys2Proof/Machine/Emitted.lean ====
section
/-! DEFINITION. The byte transmitter and pulse sequencer, its three uses, and the meanings of the seven emitted
words (spec/41_transmitter.md, R51). -/

namespace Sys2Proof.Machine

/-! ## TRANSMIT (R80-R91) -/

/-- Calls 4 to 19 of `TRANSMIT`: for `n` in 0..7, line `D<7-n>` takes `v[7-n]`, then a delay (R81). -/
def dataCalls (s : State) (v : Byte) : List BackendCall :=
  List.flatMap (fun i : Fin 8 => [.write s.dataLines[i] (v.getLsbD i.val), .sleep s.enableDelay])
    [7, 6, 5, 4, 3, 2, 1, 0]

/-- Calls 1 to 20 of `TRANSMIT`: RS, the rise of E and a delay, the eight data lines, the fall of E (R81). -/
def pulseCalls (s : State) (v : Byte) (rs : Bool) : List BackendCall :=
  [.write s.rsLine rs, .write s.eLine true, .sleep s.enableDelay] ++ dataCalls s v ++ [.write s.eLine false]

/-- The 21 calls of `TRANSMIT` (R81). -/
def transmitCalls (s : State) (v : Byte) (rs : Bool) : List BackendCall :=
  pulseCalls s v rs ++ [.sleep s.enableDelay]

/-- A fault at one of the calls 1 to 20: "a model must not assume that a byte was or was not latched" (R89). -/
def pulseFault : Run → Run
  | .going s => .going s
  | .raised e s => .raised e s.indeterminate

/-- `TRANSMIT(v, rs)` from phase `k` on: the calls that phase `k` has still to make (R82). -/
def transmitFrom (k : Nat) (v : Byte) (rs : Bool) (s : State) : Run :=
  (pulseFault (emitAll ((pulseCalls s v rs).drop k) s)).bind fun t =>
    if k ≤ 20 then emit (.sleep s.enableDelay) t else .going t

/-- `TRANSMIT(v, rs)` (R81). -/
def transmit (v : Byte) (rs : Bool) (s : State) : Run := transmitFrom 0 v rs s

/-- The source's `transmit(pattern, isCharacterData)`: the pattern is checked before call 1 (R80, R83). -/
def transmitPattern (p : List Nat) (rs : Bool) (s : State) : Run :=
  match patternValue p with
  | none => raise .protocolError s
  | some v => transmit v rs s

/-! ## The three uses of TRANSMIT -/

/-- `SEND_INSTR(v)` (R85). -/
def sendInstr (v : Byte) (s : State) : Run := transmitPattern (patternOf v) false s

/-- `cursorPosition + 1` (R86). From 63, where the six-bit register cannot hold the sum and the spec states
nothing, a free value. -/
def State.advanceCursor (s : State) : State :=
  s.setCursorPosition
    (if s.cursorPosition = 63#6 then Config.cursorAfterMax s.calls else s.cursorPosition + 1#6)

/-- `SEND_DATA(v)`: the increment comes only after all 21 calls have completed (R86). -/
def sendData (v : Byte) (s : State) : Run :=
  (transmitPattern (patternOf v) true s).bind fun t => .going t.advanceCursor

/-- `n` null bytes, one by one. -/
def sendNulls : Nat → State → Run
  | 0, s => .going s
  | n + 1, s => (sendData Config.nullByte s).bind (sendNulls n)

/-- `PAD24()` (R87). -/
def pad24 (s : State) : Run := sendNulls Config.hidden s

/-- `DISPLAY_CONTROL()` (R101). -/
def displayControl (s : State) : Run := sendInstr s.dcb s

/-! ## The emitted words as instructions -/

/-- A word of the block, from phase `k` of its `TRANSMIT` on (R82, R85, R86): what the sequencer resumes. -/
def sendFrom (k : Nat) (v : Byte) (rs : Bool) (s : State) : Run :=
  (transmitFrom k v rs s).bind fun t => .going (if rs then t.advanceCursor else t)

/-- `I_CLEAR` (R51). -/
def execIClear (s : State) : Host.Outcome State Fault Refusal := finishWord (sendInstr Config.clearDisplay s)

/-- `I_FUNC` (R51). -/
def execIFunc (s : State) : Host.Outcome State Fault Refusal := finishWord (sendInstr Config.functionSet s)

/-- `I_DISP` with the bits D, C, B of the word (R51, R53). -/
def execIDisp (d c b : Bool) (s : State) : Host.Outcome State Fault Refusal :=
  finishWord (sendInstr (displayControlByte d c b) s)

/-- `I_ENTRY` (R51). -/
def execIEntry (s : State) : Host.Outcome State Fault Refusal := finishWord (sendInstr Config.entryMode s)

/-- `I_HOME` (R51). -/
def execIHome (s : State) : Host.Outcome State Fault Refusal := finishWord (sendInstr Config.returnHome s)

/-- `D_CHAR` (R51, R54, R86). -/
def execDChar (c : BitVec 7) (s : State) : Host.Outcome State Fault Refusal :=
  finishWord (sendData (c.setWidth 8) s)

/-- `D_NULL` (R51, R87). -/
def execDNull (s : State) : Host.Outcome State Fault Refusal := finishWord (sendData Config.nullByte s)

end Sys2Proof.Machine
end

