-- ==== Sys2Proof/Machine/Clear.lean ====
section
/-! DEFINITION. Clear and re-initialisation (spec/43_clear.md). -/

namespace Sys2Proof.Machine

/-- `CLEAR_SEQ()`: the cursor first, then the five instructions in the fixed order (R121, R122, R123). -/
def clearSeq (s : State) : Run :=
  (sendInstr Config.clearDisplay (s.setCursorPosition 0#6)).bind fun t =>
  (sendInstr Config.functionSet t).bind fun t =>
  (displayControl t).bind fun t =>
  (sendInstr Config.entryMode t).bind fun t =>
  sendInstr Config.returnHome t

/-- `CLEAR()` (R121). -/
def clearOp (s : State) : Run := afterChecks (checkReady s) s fun _ t => clearSeq t

/-- `CLEAR` (R121). -/
def execClear (s : State) : Host.Outcome State Fault Refusal := hostOp clearOp s

end Sys2Proof.Machine
end

