-- ==== Sys2Proof/Machine/Lifecycle.lean ====
section
/-! DEFINITION. Construction and destruction (spec/45_lifecycle.md). -/

namespace Sys2Proof.Machine

/-- The ten lines in the order of the set-up: RS, E, D0..D7 (R162). -/
def State.lines (s : State) : List LineId := s.rsLine :: s.eLine :: s.dataLines.toList

/-- The 20 calls of the line set-up: each line is claimed and at once driven low (R162). -/
def setupCalls (s : State) : List BackendCall := s.lines.flatMap fun l => [.cfg l, .write l false]

/-- The registers `CONSTRUCT` writes before its first call (R161). -/
def constructed (rs e : LineId) (d : Vector LineId 8) (s : State) : State :=
  (s.bindLines rs e d).setDefaultFlags.setCursorPosition 0#6

/-- `CONSTRUCT(rs, e, d)` (R161). -/
def constructOp (rs e : LineId) (d : List LineId) (s : State) : Run :=
  afterChecks (checkConstruct d s) s fun v t =>
    let u := constructed rs e v t
    (emitAll (setupCalls u) u).bind fun u => (clearSeq u).bind fun u => .going (u.setLifecycle .ready)

/-- A fault answer is ignored (R165). -/
def swallow : Run → State
  | .going s => s
  | .raised _ s => s

/-- `DESTRUCT()`: one `Rel()` in every lifecycle state; it never raises (R165, R166). -/
def destructOp (s : State) : Run := .going ((swallow (emit .rel s)).setLifecycle .released)

/-- `CONSTRUCT` (R161). -/
def execConstruct (rs e : LineId) (d : List LineId) (s : State) : Host.Outcome State Fault Refusal :=
  hostOp (constructOp rs e d) s

/-- `DESTRUCT` (R165). -/
def execDestruct (s : State) : Host.Outcome State Fault Refusal := hostOp destructOp s

end Sys2Proof.Machine
end

