-- ==== Sys2Proof/Machine/Mode.lean ====
section
/-! DEFINITION. The mode manager: the three set operations and the six wrappers (spec/42_mode.md). -/

namespace Sys2Proof.Machine

/-- A set operation: the lifecycle check, the flag, then one `DISPLAY_CONTROL()`, whether or not the flag
changed (R102, R104). -/
def modeOp (setFlag : State → State) (s : State) : Run :=
  afterChecks (checkReady s) s fun _ t => displayControl (setFlag t)

/-- `SET_DISPLAY(b)` (R104). -/
def setDisplayOp (b : Bool) (s : State) : Run := modeOp (fun t => t.setDisplayOn b) s

/-- `SET_CURSOR(b)` (R105). -/
def setCursorOp (b : Bool) (s : State) : Run := modeOp (fun t => t.setCursorOn b) s

/-- `SET_BLINK(b)` (R106). -/
def setBlinkOp (b : Bool) (s : State) : Run := modeOp (fun t => t.setBlinkOn b) s

/-- `SET_DISPLAY` (R104). -/
def execSetDisplay (b : Bool) (s : State) : Host.Outcome State Fault Refusal := hostOp (setDisplayOp b) s

/-- `SET_CURSOR` (R105). -/
def execSetCursor (b : Bool) (s : State) : Host.Outcome State Fault Refusal := hostOp (setCursorOp b) s

/-- `SET_BLINK` (R106). -/
def execSetBlink (b : Bool) (s : State) : Host.Outcome State Fault Refusal := hostOp (setBlinkOp b) s

/-- `DISPLAY_ON`: exactly `SET_DISPLAY(1)` (R107). -/
def execDisplayOn (s : State) : Host.Outcome State Fault Refusal := hostOp (setDisplayOp true) s

/-- `DISPLAY_OFF`: exactly `SET_DISPLAY(0)` (R108). -/
def execDisplayOff (s : State) : Host.Outcome State Fault Refusal := hostOp (setDisplayOp false) s

/-- `CURSOR_ON`: exactly `SET_CURSOR(1)` (R109). -/
def execCursorOn (s : State) : Host.Outcome State Fault Refusal := hostOp (setCursorOp true) s

/-- `CURSOR_OFF`: exactly `SET_CURSOR(0)` (R110). -/
def execCursorOff (s : State) : Host.Outcome State Fault Refusal := hostOp (setCursorOp false) s

/-- `BLINK_ON`: exactly `SET_BLINK(1)` (R111). -/
def execBlinkOn (s : State) : Host.Outcome State Fault Refusal := hostOp (setBlinkOp true) s

/-- `BLINK_OFF`: exactly `SET_BLINK(0)` (R112). -/
def execBlinkOff (s : State) : Host.Outcome State Fault Refusal := hostOp (setBlinkOp false) s

end Sys2Proof.Machine
end

