-- ==== Sys2Proof/Machine/Text.lean ====
section
/-! DEFINITION. The line-wrap cursor manager: `setText` and `append` (spec/44_text.md). -/

namespace Sys2Proof.Machine

/-- The loop of `SET_TEXT`: after the byte sent at pre-increment position 15, the skip (R131, R133). -/
def setTextLoop : List Byte → State → Run
  | [], s => .going s
  | v :: vs, s =>
    (sendData v s).bind fun t =>
      if s.cursorPosition.toNat = Config.padAt then (pad24 t).bind (setTextLoop vs) else setTextLoop vs t

/-- `SET_TEXT(text)`: checks and encoding first, then the clear, then the text (R131, R137). -/
def setTextOp (text : List CodePoint) (s : State) : Run :=
  afterChecks (checkSetText text s) s fun bytes t => (clearSeq t).bind (setTextLoop bytes)

/-- The loop of `APPEND`. A pass at position exactly 16 is the skip, and the character is deferred to the next
pass (R142); `PAD24` leaves 40, so the pass after a skip always sends. -/
def appendLoop : List Byte → State → Run
  | [], s => .going s
  | v :: vs, s =>
    if s.cursorPosition.toNat = Config.row0End then
      (pad24 s).bind fun t => (sendData v t).bind (appendLoop vs)
    else (sendData v s).bind (appendLoop vs)

/-- `APPEND(text)` (R139). -/
def appendOp (text : List CodePoint) (s : State) : Run :=
  afterChecks (checkAppend text s) s fun bytes t => appendLoop bytes t

/-- `SET_TEXT` (R131). -/
def execSetText (text : List CodePoint) (s : State) : Host.Outcome State Fault Refusal :=
  hostOp (setTextOp text) s

/-- `APPEND` (R139). -/
def execAppend (text : List CodePoint) (s : State) : Host.Outcome State Fault Refusal :=
  hostOp (appendOp text) s

end Sys2Proof.Machine
end

