-- ==== Sys2Proof/Machine/Dispatch.lean ====
section
/-! DEFINITION. One arm for each row of spec/opcode_table.json. -/

namespace Sys2Proof.Machine

def exec (i : Instr) (s : State) : Host.Outcome State Fault Refusal :=
  match i with
  | .iClear => Sys2Proof.Machine.execIClear s
  | .iFunc => Sys2Proof.Machine.execIFunc s
  | .iDisp d c b => Sys2Proof.Machine.execIDisp d c b s
  | .iEntry => Sys2Proof.Machine.execIEntry s
  | .iHome => Sys2Proof.Machine.execIHome s
  | .dChar c => Sys2Proof.Machine.execDChar c s
  | .dNull => Sys2Proof.Machine.execDNull s
  | .construct rs e d => Sys2Proof.Machine.execConstruct rs e d s
  | .destruct => Sys2Proof.Machine.execDestruct s
  | .clear => Sys2Proof.Machine.execClear s
  | .setText text => Sys2Proof.Machine.execSetText text s
  | .append text => Sys2Proof.Machine.execAppend text s
  | .setDisplay b => Sys2Proof.Machine.execSetDisplay b s
  | .setCursor b => Sys2Proof.Machine.execSetCursor b s
  | .setBlink b => Sys2Proof.Machine.execSetBlink b s
  | .displayOn => Sys2Proof.Machine.execDisplayOn s
  | .displayOff => Sys2Proof.Machine.execDisplayOff s
  | .cursorOn => Sys2Proof.Machine.execCursorOn s
  | .cursorOff => Sys2Proof.Machine.execCursorOff s
  | .blinkOn => Sys2Proof.Machine.execBlinkOn s
  | .blinkOff => Sys2Proof.Machine.execBlinkOff s

end Sys2Proof.Machine
end

