-- ==== Sys2Proof/Machine/Sequencer.lean ====
section
/-! DEFINITION. The sequencer inside one operation (R19), the multiplexer's source select (R62), and where an
instruction is placed for the next step. -/

namespace Sys2Proof.Machine

/-- The operation a host instruction names. -/
def opOf : Instr → Option OpName
  | .construct _ _ _ => some .construct
  | .destruct => some .destruct
  | .clear => some .clear
  | .setText _ => some .setText
  | .append _ => some .append
  | .setDisplay _ => some .setDisplay
  | .setCursor _ => some .setCursor
  | .setBlink _ => some .setBlink
  | .displayOn => some .displayOn
  | .displayOff => some .displayOff
  | .cursorOn => some .cursorOn
  | .cursorOff => some .cursorOff
  | .blinkOn => some .blinkOn
  | .blinkOff => some .blinkOff
  | .iClear | .iFunc | .iDisp _ _ _ | .iEntry | .iHome | .dChar _ | .dNull => none

/-! ## Beginning an operation -/

/-- The operation begins at a position, or ends at once with the status its checks raise (R190). -/
def startWith {α : Type} (c : Except Status α) (s : State) (k : α → State) : State :=
  match c with
  | .error e => s.endWith e
  | .ok a => k a

/-- A set operation at its one word. -/
def startMode (op : OpName) (setFlag : State → State) (s : State) : State :=
  startWith (checkReady s) s fun _ => (setFlag s).setSeq (.busy { op := op, stage := .mode })

/-- The state in which an operation has passed its checks and made no backend call: its first register writes are
done and `seq` stands at its beginning. An emitted word is no operation of the host. -/
def startOp (i : Instr) (s : State) : State :=
  match i with
  | .construct rs e d =>
    startWith (checkConstruct d s) s fun v =>
      (constructed rs e v s).setSeq (.busy { op := .construct, stage := .setup 0 })
  | .destruct => s.setSeq (.busy { op := .destruct, stage := .release })
  | .clear =>
    startWith (checkReady s) s fun _ =>
      (s.setCursorPosition 0#6).setSeq (.busy { op := .clear, stage := .clear 0 })
  | .setText text =>
    startWith (checkSetText text s) s fun bytes =>
      (s.setCursorPosition 0#6).setSeq
        (.busy { op := .setText, stage := .clear 0, text := bytes.map charOfByte })
  | .append text =>
    startWith (checkAppend text s) s fun bytes =>
      s.setSeq (.busy { op := .append, stage := .text, text := bytes.map charOfByte })
  | .setDisplay b => startMode .setDisplay (fun t => t.setDisplayOn b) s
  | .setCursor b => startMode .setCursor (fun t => t.setCursorOn b) s
  | .setBlink b => startMode .setBlink (fun t => t.setBlinkOn b) s
  | .displayOn => startMode .displayOn (fun t => t.setDisplayOn true) s
  | .displayOff => startMode .displayOff (fun t => t.setDisplayOn false) s
  | .cursorOn => startMode .cursorOn (fun t => t.setCursorOn true) s
  | .cursorOff => startMode .cursorOff (fun t => t.setCursorOn false) s
  | .blinkOn => startMode .blinkOn (fun t => t.setBlinkOn true) s
  | .blinkOff => startMode .blinkOff (fun t => t.setBlinkOn false) s
  | .iClear | .iFunc | .iDisp _ _ _ | .iEntry | .iHome | .dChar _ | .dNull => s

/-! ## The source select (R62) -/

/-- The next character at a position, if there is one. -/
def nextChar (p : SeqPos) : Option (BitVec 7) := p.text[p.i]?

/-- The emitted word a position stands at; `none` where it stands at no transmission. -/
def selectWord (p : SeqPos) (s : State) : Option Instr :=
  match p.stage with
  | .setup _ => none
  | .release => none
  | .mode => some (.iDisp s.displayOn s.cursorOn s.blinkOn)
  | .clear 0 => some .iClear
  | .clear 1 => some .iFunc
  | .clear 2 => some (.iDisp s.displayOn s.cursorOn s.blinkOn)
  | .clear 3 => some .iEntry
  | .clear 4 => some .iHome
  | .clear _ => none
  | .text =>
    if 0 < p.pad then some .dNull
    else match nextChar p with
      | none => none
      | some c =>
        if p.op = .append ∧ s.cursorPosition.toNat = Config.row0End then some .dNull else some (.dChar c)

/-- The position at the start of the text, or the end of the operation if the text is empty. -/
def textOrEnd (p : SeqPos) : Option SeqPos :=
  if p.text = [] then none else some { p with stage := .text, i := 0, pad := 0, phase := 0 }

/-- A position within the text, or the end of the operation once nothing is left to send. -/
def stillText (p : SeqPos) : Option SeqPos :=
  if p.pad = 0 ∧ p.text.length ≤ p.i then none else some { p with phase := 0 }

/-- The position after the word a position stands at has been transmitted; `none` ends the operation with OK.
`s` is the state before the word (the tests use the pre-increment cursor, R133, R142). -/
def nextPos (p : SeqPos) (s : State) : Option SeqPos :=
  match p.stage with
  | .setup _ => none
  | .release => none
  | .mode => none
  | .clear k =>
    if k < 4 then some { p with stage := .clear (k + 1), phase := 0 }
    else if p.op = .setText then textOrEnd p
    else none
  | .text =>
    if 0 < p.pad then stillText { p with pad := p.pad - 1 }
    else if p.op = .append then
      if s.cursorPosition.toNat = Config.row0End then some { p with pad := Config.hidden - 1, phase := 0 }
      else stillText { p with i := p.i + 1 }
    else if s.cursorPosition.toNat = Config.padAt then
      some { p with i := p.i + 1, pad := Config.hidden, phase := 0 }
    else stillText { p with i := p.i + 1 }

/-! ## Going on -/

/-- `return OK`: `CONSTRUCT` makes the handle READY as it ends (R161). -/
def completeOp (op : OpName) (s : State) : State :=
  (if op = .construct then s.setLifecycle .ready else s).endWith .ok

/-- The sequencer after a word: on to the next position, or the end of the operation. A word in which a fault has
ended the operation leaves it ended. -/
def afterWord (op : OpName) (q : Option SeqPos) :
    Host.Outcome State Fault Refusal → Host.Outcome State Fault Refusal
  | .next t =>
    if t.seq = .idle then .next t
    else match q with
      | some p => .next (t.setSeq (.busy p))
      | none => .next (completeOp op t)
  | .fault r => .fault r
  | .refused r => .refused r

/-- The byte and register-select level of an emitted word (R62). -/
def wordParts : Instr → Option (Byte × Bool)
  | .iClear => some (Config.clearDisplay, false)
  | .iFunc => some (Config.functionSet, false)
  | .iDisp d c b => some (displayControlByte d c b, false)
  | .iEntry => some (Config.entryMode, false)
  | .iHome => some (Config.returnHome, false)
  | .dChar c => some (c.setWidth 8, true)
  | .dNull => some (Config.nullByte, true)
  | .construct _ _ _ | .destruct | .clear | .setText _ | .append _ | .setDisplay _ | .setCursor _
  | .setBlink _ | .displayOn | .displayOff | .cursorOn | .cursorOff | .blinkOn | .blinkOff => none

/-- The rest of a word whose `TRANSMIT` is already at phase `k` (R82). -/
def resumeWord (k : Nat) (i : Instr) (s : State) : Host.Outcome State Fault Refusal :=
  match wordParts i with
  | some (v, rs) => finishWord (sendFrom k v rs s)
  | none => .next s

/-- The rest of `CONSTRUCT`'s line set-up, then the clear sequence (R161, R162). -/
def resumeSetup (k : Nat) (p : SeqPos) (s : State) : Host.Outcome State Fault Refusal :=
  match emitAll ((setupCalls s).drop k) s with
  | .going t => .next (t.setSeq (.busy { p with stage := .clear 0, phase := 0 }))
  | .raised e t => .next (t.endWith e)

/-- A position that stands at no transmission: the line set-up, the release, or the end of the operation. -/
def resumeStage (p : SeqPos) (s : State) : Host.Outcome State Fault Refusal :=
  match p.stage with
  | .setup k => resumeSetup k p s
  | .release => finish (destructOp s)
  | .mode => .next (completeOp p.op s)
  | .clear _ => .next (completeOp p.op s)
  | .text => .next (completeOp p.op s)

/-- A reserved command word is answered with `ValidationError`, in every lifecycle state (R60). -/
def rejectCommand (s : State) : Host.Outcome State Fault Refusal := finish (raise .validationError s)

/-! ## Placing an instruction for the next step -/

/-- A position at which the multiplexer selects a given emitted word, with the flags `I_DISP` is built from; a
host operation is placed by its call instead. -/
def placeWord (i : Instr) (s : State) : State :=
  match i with
  | .iClear => s.setSeq (.busy { op := .clear, stage := .clear 0 })
  | .iFunc => s.setSeq (.busy { op := .clear, stage := .clear 1 })
  | .iDisp d c b =>
    (((s.setDisplayOn d).setCursorOn c).setBlinkOn b).setSeq (.busy { op := .setDisplay, stage := .mode })
  | .iEntry => s.setSeq (.busy { op := .clear, stage := .clear 3 })
  | .iHome => s.setSeq (.busy { op := .clear, stage := .clear 4 })
  | .dChar c => s.setSeq (.busy { op := .setText, stage := .text, text := [c] })
  | .dNull => s.setSeq (.busy { op := .setText, stage := .text, pad := 1 })
  | .construct _ _ _ | .destruct | .clear | .setText _ | .append _ | .setDisplay _ | .setCursor _
  | .setBlink _ | .displayOn | .displayOff | .cursorOn | .cursorOff | .blinkOn | .blinkOff => s

/-- A table word where the next step takes its instruction: a command word at the head of the host's calls with
the block IDLE, an emitted word as the sequencer's selection. -/
def placeTableWord (s : State) (nbits w : Nat) : State :=
  if nbits ≤ 8 then (s.setSeq .idle).setHost (.word (BitVec.ofNat 8 w) {} :: s.host)
  else match decodeTableWord nbits w with
    | some i => placeWord i s
    | none => s

end Sys2Proof.Machine
end

