-- ==== Sys2Proof/Machine/Step.lean ====
section
/-! DEFINITION. One step: between operations it takes the host's next call and performs the whole operation
(R7, R19); inside one it performs what the sequencer's position stands at. -/

namespace Sys2Proof.Machine

/-- One step. Idle with no call waiting, all state is held (R198). -/
def step (s : State) : Host.Outcome State Fault Refusal :=
  match s.seq with
  | .idle =>
    match s.host with
    | [] => .next s
    | c :: rest =>
      match decodeCall c with
      | .instr i => exec i (s.setHost rest)
      | .reject _ => rejectCommand (s.setHost rest)
  | .busy p =>
    match selectWord p s with
    | none => resumeStage p s
    | some i =>
      afterWord p.op (nextPos p s) (if p.phase = 0 then exec i s else resumeWord p.phase i s)

/-- `s` with a table word where `step` takes its next instruction. -/
def State.withFetchWord (s : State) (nbits w : Nat) : State := placeTableWord s nbits w

end Sys2Proof.Machine
end

