-- ==== Sys2Proof/Safety.lean ====
section
/-! DEFINITION. The terms claims are stated in: what the surroundings must provide, what a run of transmissions
leaves behind and leaves alone, the words of the text operations, the invariants. -/

namespace Sys2Proof.Machine

/-! ## What the surroundings provide -/

/-- None of the next `k` backend calls answers *fault* (R6, U18). -/
abbrev State.quietFor (s : State) (k : Nat) : Prop := ∀ n ∈ s.faultAt, n ≤ s.calls ∨ s.calls + k < n

/-- The ten line identifiers are pairwise distinct: the premise of every claim about the latched trace (R170,
D14). -/
abbrev State.linesDistinct (s : State) : Prop := s.lines.Nodup

/-- `ENABLE_DELAY >= T_PW_MIN` (R213, R220). -/
abbrev State.timingMet (s : State) : Prop := s.tPwMin ≤ s.enableDelay

/-- READY, and no operation in progress. -/
abbrev State.isReady (s : State) : Prop := s.lifecycle = .ready ∧ s.seq = .idle

/-! ## What a run of transmissions leaves behind -/

/-- The lines show a word at rest: RS and D7..D0 hold it and E is low (R81, R90). -/
abbrev State.shows (s : State) (w : Latch) : Prop :=
  s.levelOf s.rsLine = levelOfBool w.rs ∧ s.levelOf s.eLine = .low ∧
    ∀ i : Fin 8, s.levelOf s.dataLines[i] = levelOfBool (w.byte.getLsbD i.val)

/-- The line configuration is unchanged. -/
abbrev SameLines (s t : State) : Prop :=
  t.rsLine = s.rsLine ∧ t.eLine = s.eLine ∧ t.dataLines = s.dataLines

/-- The three mode flags are unchanged. -/
abbrev SameFlags (s t : State) : Prop :=
  t.displayOn = s.displayOn ∧ t.cursorOn = s.cursorOn ∧ t.blinkOn = s.blinkOn

/-- The inputs and parameters are unchanged. -/
abbrev SameInputs (s t : State) : Prop :=
  t.host = s.host ∧ t.faultAt = s.faultAt ∧ t.enableDelay = s.enableDelay ∧ t.tPwMin = s.tPwMin

/-- An instruction word (RS low). -/
abbrev instrWord (v : Byte) : Latch := ⟨false, v⟩

/-- A data word (RS high). -/
abbrev dataWord (v : Byte) : Latch := ⟨true, v⟩

/-- `D:00x24` (spec/00_scope.md section 6.3). -/
def nullWords : List Latch := List.replicate Config.hidden (dataWord Config.nullByte)

/-- `t` is `s` after the words `ws` have been transmitted to the end, as far as the lines and the traces go: the
21 calls of each word in order (R81), E left low (R90), no other line touched. The latched words are claimed only
for distinct lines (R170) and a delay the controller can follow (R220). -/
def Transmitted (s t : State) (ws : List Latch) : Prop :=
  t.events = s.events ++ ws.flatMap (fun w => transmitCalls s w.byte w.rs) ∧
  t.calls = s.calls + 21 * ws.length ∧
  SameLines s t ∧ SameInputs s t ∧
  (∀ l, ws = [] ∨ l ∉ s.lines → t.levelOf l = s.levelOf l) ∧
  (ws ≠ [] → t.levelOf s.eLine = .low) ∧
  (s.linesDistinct → s.timingMet →
    t.latched = s.latched ++ ws ∧ t.stray = s.stray ∧ ∀ w, ws.getLast? = some w → t.shows w)

/-- How many of the words are data. -/
def dataCount (ws : List Latch) : Nat := ws.countP fun w => w.rs

/-- The five words of `CLEAR_SEQ` with a display-control byte (R121). -/
def clearWords (dcb : Byte) : List Latch :=
  [instrWord Config.clearDisplay, instrWord Config.functionSet, instrWord dcb, instrWord Config.entryMode,
    instrWord Config.returnHome]

/-- The characters of a text as data words. -/
def charWords (text : List CodePoint) : List Latch := text.map fun c => dataWord (byteOfCodePoint c)

/-- The data words of `SET_TEXT` (R132): up to 16 characters, the skip if there are 16, the rest. -/
def setTextWords (text : List CodePoint) : List Latch :=
  if text.length < 16 then charWords text
  else charWords (text.take 16) ++ nullWords ++ charWords (text.drop 16)

/-- `cursorPosition` after `SET_TEXT` of length `l` (R132). -/
def setTextEnd (l : Nat) : Nat := if l < 16 then l else l + 24

/-- The data words of `APPEND` from position `c` (R143). -/
def appendWords (c : Nat) (text : List CodePoint) : List Latch :=
  if c ≤ 16 ∧ 16 < c + text.length then
    charWords (text.take (16 - c)) ++ nullWords ++ charWords (text.drop (16 - c))
  else charWords text

/-- `cursorPosition` after `APPEND` of length `l` from position `c` (R143). -/
def appendEnd (c l : Nat) : Nat := if c ≤ 16 ∧ 16 < c + l then c + l + 24 else c + l

/-- Where character `k` of an `APPEND` from position `c` lands: past the hidden cells once row 0 is full
(R139, R142). -/
def appendCell (c k : Nat) : Nat := if c ≤ 16 ∧ 16 ≤ c + k then c + k + 24 else c + k

/-! ## The operations as a whole -/

/-- The backend calls of an accepted operation that meets no fault (R230), and of one emitted word. -/
def callCount (i : Instr) (s : State) : Nat :=
  match i with
  | .iClear | .iFunc | .iDisp _ _ _ | .iEntry | .iHome | .dChar _ | .dNull => 21
  | .setDisplay _ | .setCursor _ | .setBlink _ => 21
  | .displayOn | .displayOff | .cursorOn | .cursorOff | .blinkOn | .blinkOff => 21
  | .clear => 105
  | .construct _ _ _ => 125
  | .destruct => 1
  | .setText t => if t.length < 16 then 21 * (5 + t.length) else 21 * (29 + t.length)
  | .append t =>
    if s.cursorPosition.toNat ≤ 16 ∧ 16 < s.cursorPosition.toNat + t.length then 21 * (t.length + 24)
    else 21 * t.length

/-- The registers as an operation leaves them before its first backend call: a clear zeroes the cursor first (R123), a
set operation writes its flag first (R104), `CONSTRUCT` writes all of them (R161). -/
def firstWrites (i : Instr) (s : State) : State :=
  match i with
  | .construct rs e d =>
    match dataLinesOf d with
    | .ok v => constructed rs e v s
    | .error _ => s
  | .clear => s.setCursorPosition 0#6
  | .setText _ => s.setCursorPosition 0#6
  | .setDisplay b => s.setDisplayOn b
  | .setCursor b => s.setCursorOn b
  | .setBlink b => s.setBlinkOn b
  | .displayOn => s.setDisplayOn true
  | .displayOff => s.setDisplayOn false
  | .cursorOn => s.setCursorOn true
  | .cursorOff => s.setCursorOn false
  | .blinkOn => s.setBlinkOn true
  | .blinkOff => s.setBlinkOn false
  | .destruct | .append _ => s
  | .iClear | .iFunc | .iDisp _ _ _ | .iEntry | .iHome | .dChar _ | .dNull => s

/-- The words a host operation transmits when no call faults. -/
def opWords (i : Instr) (s : State) : List Latch :=
  match i with
  | .construct _ _ _ => clearWords (displayControlByte true false false)
  | .clear => clearWords s.dcb
  | .setText text => clearWords s.dcb ++ setTextWords text
  | .append text => appendWords s.cursorPosition.toNat text
  | .setDisplay _ | .setCursor _ | .setBlink _ => [instrWord (firstWrites i s).dcb]
  | .displayOn | .displayOff | .cursorOn | .cursorOff | .blinkOn | .blinkOff => [instrWord (firstWrites i s).dcb]
  | .destruct => []
  | .iClear | .iFunc | .iDisp _ _ _ | .iEntry | .iHome | .dChar _ | .dNull => []

/-- The backend calls a host operation makes before its first word: `CONSTRUCT`'s line set-up (R162) and `DESTRUCT`'s
release (R165). -/
def callsBeforeWords (i : Instr) (s : State) : List BackendCall :=
  match i with
  | .construct _ _ _ => setupCalls (firstWrites i s)
  | .destruct => [.rel]
  | .clear | .setText _ | .append _ | .setDisplay _ | .setCursor _ | .setBlink _ => []
  | .displayOn | .displayOff | .cursorOn | .cursorOff | .blinkOn | .blinkOff => []
  | .iClear | .iFunc | .iDisp _ _ _ | .iEntry | .iHome | .dChar _ | .dNull => []

/-- The whole event trace of an accepted host operation when no call faults. -/
def opCalls (i : Instr) (s : State) : List BackendCall :=
  callsBeforeWords i s ++
    (opWords i s).flatMap fun w => transmitCalls (firstWrites i s) w.byte w.rs

/-- How many data transmissions of a host operation have completed when call `n` of it is the one that faults: those
of the words all of whose 21 calls come before it (R86, R186). -/
def dataSentBefore (i : Instr) (s : State) (n : Nat) : Nat :=
  dataCount ((opWords i s).take ((n - 1 - (callsBeforeWords i s).length) / 21))

/-- What the controller may and may not be said to have seen of a word whose transmission ends with a fault at call
`k` (R89, U6). That it was latched when `k` = 21 is the rule's. Before that the rule lets nothing be assumed: that the
doubt then stands as one entry of `stray`, its word a free value, with `latched` untouched and no cell known any longer,
is the model's own way of saying so (notes/assumptions/9.md). -/
def FaultSeen (s t : State) (w : Latch) (k : Nat) : Prop :=
  if k = 21 then t.latched = s.latched ++ [w] ∧ t.stray = s.stray
  else t.latched = s.latched ∧ (∃ x, t.stray = s.stray ++ [⟨s.latched.length, x⟩]) ∧ ∀ p, t.readCell p = none

/-- The checks of an operation (R190): the status it ends with before any backend call, if it does. -/
def refusalOf (i : Instr) (s : State) : Option Status :=
  let ofCheck {α : Type} (c : Except Status α) : Option Status :=
    match c with
    | .error e => some e
    | .ok _ => none
  match i with
  | .iClear | .iFunc | .iDisp _ _ _ | .iEntry | .iHome | .dChar _ | .dNull => none
  | .construct _ _ d => ofCheck (checkConstruct d s)
  | .destruct => none
  | .setText t => ofCheck (checkSetText t s)
  | .append t => ofCheck (checkAppend t s)
  | .clear => ofCheck (checkReady s)
  | .setDisplay _ | .setCursor _ | .setBlink _ => ofCheck (checkReady s)
  | .displayOn | .displayOff | .cursorOn | .cursorOff | .blinkOn | .blinkOff => ofCheck (checkReady s)

/-! ## Invariants -/

/-- The positions the operations can leave the cursor at (R14). -/
abbrev cursorReachable (c : Nat) : Prop := c ≤ 16 ∨ (40 ≤ c ∧ c ≤ 56)

/-- A line that is driven, low or high. -/
abbrev State.driven (s : State) (l : LineId) : Prop := s.levelOf l = .low ∨ s.levelOf l = .high

/-- The two finite maps are in canonical form. -/
abbrev State.canonical (s : State) : Prop := Lines.wf s.levels ∧ Memory.wf s.cells

/-- Between operations a READY block has its cursor where an operation can leave it (R14), E low (R90) and its ten
lines driven (R17). -/
def State.atRest (s : State) : Prop :=
  s.seq = .idle ∧
    (s.lifecycle = .ready →
      cursorReachable s.cursorPosition.toNat ∧ s.levelOf s.eLine = .low ∧ ∀ l ∈ s.lines, s.driven l)

/-- The data words latched since the last clear-display word: the controller's write position as the latched
trace gives it (R13, R31). -/
def dataSinceClear (ws : List Latch) : Nat :=
  ws.foldl (fun n w => if w.rs then n + 1 else if w.byte = Config.clearDisplay then 0 else n) 0

/-- The shadow is true: in a READY block with distinct lines and a sufficient delay, `cursorPosition` is the number
of data words latched since the last clear (R13, R21, R43), and the cells written since then are those below it. -/
def State.shadowTrue (s : State) : Prop :=
  s.seq = .idle ∧
    (s.lifecycle = .ready → s.linesDistinct → s.timingMet →
      cursorReachable s.cursorPosition.toNat ∧
      s.cursorPosition.toNat = dataSinceClear s.latched ∧
      ∀ p, (s.readCell p).isSome = decide (p < s.cursorPosition.toNat))

end Sys2Proof.Machine
end

