-- ==== Sys2Proof/WellFormed.lean ====
section
/-! DEFINITION. Which instructions the host side can present at all: a text operand's length fits `LEN_W` bits
and each code point fits `CPW` bits (R9, R61). Everything else about an operand is checked by the operation. -/

namespace Sys2Proof

/-- A text operand fits its two widths (R61, D3). -/
def wellFormedText (text : List CodePoint) : Bool :=
  decide (text.length < 2 ^ Config.lenW) && text.all fun c => decide (c < 2 ^ Config.cpW)

/-- An instruction whose operands fit their widths. Line identifiers have no width to fit (`LINE_ID_W` is OPEN,
R9), and the length of `CONSTRUCT`'s list is the operation's own check (R163). -/
def Instr.wellFormed : Instr → Bool
  | .setText t => wellFormedText t
  | .append t => wellFormedText t
  | .iClear | .iFunc | .iDisp _ _ _ | .iEntry | .iHome | .dChar _ | .dNull => true
  | .construct _ _ _ | .destruct | .clear | .setDisplay _ | .setCursor _ | .setBlink _ => true
  | .displayOn | .displayOff | .cursorOn | .cursorOff | .blinkOn | .blinkOff => true

end Sys2Proof
end

