-- ==== Sys2Proof/Certificates/Slice0/Obligations.lean ====
section
/-! DEFINITION. The statements for the provers. -/

open Sys2Proof Sys2Proof.Machine

/-! ## Encoding and decoding -/

/-- Decoding the words of any instruction, at every value of its operands, gives the row that owns those words: the
instruction itself, a wrapper's expansion (R59), or `D_CHAR` 0 for `D_NULL` (R51). -/
def Obligations.DecodeOfEncodeIsExpansion : Prop :=
  ∀ i : Instr, decode (encode i) = .instr i.expansion ∧ encode i.expansion = encode i

/-- A word that decodes is the word its instruction encodes to: no two words of a layer are one instruction. -/
def Obligations.DecodedWordIsReencoded : Prop :=
  (∀ w i, decodeEmitted w = .instr i → encode i = .emitted w) ∧
    ∀ w ops i, decodeCommand w ops = .instr i → ∃ ops', encode i = .command w ops' ∧ decodeCommand w ops' = .instr i

/-- Words written out from the spec's encodings decode to the instructions they stand for, one of every family. -/
def Obligations.WordsOfTheTablesDecode : Prop :=
  decodeEmitted 0b000000001#9 = .instr .iClear ∧ decodeEmitted 0b000001110#9 = .instr (.iDisp true true false) ∧
    decodeEmitted 0b101000001#9 = .instr (.dChar 0x41#7) ∧
    decodeCommand 0b00110000#8 { text := [72, 105] } = .instr (.setText [72, 105]) ∧
    decodeCommand 0b01100001#8 {} = .instr (.setCursor true) ∧ decodeCommand 0b00010000#8 {} = .instr .destruct

/-- The words that are emitted words at all (R51, R55): the four fixed instruction bytes, 0x08..0x0F, and the data
bytes 0x00..0x7F. -/
def Obligations.ExactlySevenKindsDecode : Prop :=
  ∀ w : EmittedWord, (∃ i, decodeEmitted w = .instr i) ↔
    (w = 0x001#9 ∨ w = 0x002#9 ∨ w = 0x006#9 ∨ w = 0x038#9 ∨ (0x008 ≤ w.toNat ∧ w.toNat ≤ 0x00F) ∨
      (0x100 ≤ w.toNat ∧ w.toNat ≤ 0x17F))

/-- R60: a reserved command word is answered with `ValidationError`; nothing is emitted and nothing changes, in
every lifecycle state. The reserved words are exactly those the rule lists. -/
def Obligations.ReservedCommandIsRejected : Prop :=
  ∀ (s : State) (w : CommandWord) (ops : Operands) (rest : List HostCall),
    s.seq = .idle → s.host = .word w ops :: rest →
    (8 ≤ (w.extractLsb' 4 4).toNat ∨ w.extractLsb' 1 3 ≠ 0#3 ∨
      (w.getLsbD 0 = true ∧ (w.extractLsb' 4 4).toNat ≤ 4) →
      step s = .next ((s.setHost rest).setReturned .validationError)) ∧
    (¬ (8 ≤ (w.extractLsb' 4 4).toNat ∨ w.extractLsb' 1 3 ≠ 0#3 ∨
      (w.getLsbD 0 = true ∧ (w.extractLsb' 4 4).toNat ≤ 4)) →
      ∃ i, decodeCommand w ops = .instr i ∧ step s = exec i (s.setHost rest))

/-! ## The step -/

/-- Between operations a step runs the instruction the host's next call decodes to, on the state without that
call. -/
def Obligations.StepRunsTheDecodedCall : Prop :=
  ∀ (s : State) (c : HostCall) (rest : List HostCall) (i : Instr),
    s.seq = .idle → s.host = c :: rest → decodeCall c = .instr i → step s = exec i (s.setHost rest)

/-- Inside an operation a step runs the emitted word the multiplexer selects (R62) and then moves the sequencer on
(R19); a word that stands at phase 0 is run whole. -/
def Obligations.StepRunsTheSelectedWord : Prop :=
  ∀ (s : State) (p : SeqPos) (i : Instr),
    s.seq = .busy p → selectWord p s = some i → p.phase = 0 →
      step s = afterWord p.op (nextPos p s) (exec i s)

/-- A word already at phase `k` of its `TRANSMIT` makes exactly the calls that remain (R82); then the cursor, if it
is a data word, and the sequencer move on. -/
def Obligations.StepMakesTheRemainingCalls : Prop :=
  ∀ (s : State) (p : SeqPos) (i : Instr) (v : Byte) (rs : Bool),
    s.seq = .busy p → selectWord p s = some i → wordParts i = some (v, rs) → 1 ≤ p.phase → p.phase ≤ 21 →
    s.quietFor (21 - p.phase) →
      ∃ t, step s = .next t ∧ t.events = s.events ++ (transmitCalls s v rs).drop p.phase ∧
        t.calls = s.calls + (21 - p.phase) ∧ SameLines s t ∧ SameFlags s t ∧ SameInputs s t ∧
        (rs = false → t.cursorPosition = s.cursorPosition) ∧
        (rs = true → s.cursorPosition.toNat < 63 → t.cursorPosition.toNat = s.cursorPosition.toNat + 1) ∧
        (match nextPos p s with
          | some q => t.seq = .busy q ∧ t.lifecycle = s.lifecycle ∧ t.returned = s.returned
          | none => t.seq = .idle ∧ t.returned = some .ok)

/-- Idle with no call waiting, the block holds all its state (R198). -/
def Obligations.IdleBlockHoldsItsState : Prop :=
  ∀ s : State, s.seq = .idle → s.host = [] → step s = .next s

/-- Every step answers a next state: no operation, error or fault answer stops the block. -/
def Obligations.EveryStepAnswersNext : Prop := ∀ s : State, ∃ t, step s = .next t

/-- A table word placed for the next step is the instruction that step runs: notes/assumptions/5.md (the model's own
way of placing one). -/
def Obligations.PlacedWordRunsNext : Prop :=
  ∀ (s : State) (nbits w : Nat) (i : Instr), decodeTableWord nbits w = some i →
    (nbits ≤ 8 → step (s.withFetchWord nbits w) = exec i (s.setSeq .idle)) ∧
    (8 < nbits → ∃ p, (s.withFetchWord nbits w).seq = .busy p ∧
      step (s.withFetchWord nbits w) =
        afterWord p.op (nextPos p (s.withFetchWord nbits w)) (exec i (s.withFetchWord nbits w)))

/-! ## The transmitter -/

/-- `TRANSMIT(v, rs)` makes its 21 calls in the order of R81 and asks for ten delays (R84); the block's registers
and flags are not written (R80), E ends low (R90), no line but the ten is touched. -/
def Obligations.TransmitMakesItsCalls : Prop :=
  ∀ (s : State) (v : Byte) (rs : Bool), s.quietFor 21 →
    ∃ t, transmit v rs s = .going t ∧
      t.events = s.events ++
        [.write s.rsLine rs, .write s.eLine true, .sleep s.enableDelay,
          .write s.dataLines[7] (v.getLsbD 7), .sleep s.enableDelay,
          .write s.dataLines[6] (v.getLsbD 6), .sleep s.enableDelay,
          .write s.dataLines[5] (v.getLsbD 5), .sleep s.enableDelay,
          .write s.dataLines[4] (v.getLsbD 4), .sleep s.enableDelay,
          .write s.dataLines[3] (v.getLsbD 3), .sleep s.enableDelay,
          .write s.dataLines[2] (v.getLsbD 2), .sleep s.enableDelay,
          .write s.dataLines[1] (v.getLsbD 1), .sleep s.enableDelay,
          .write s.dataLines[0] (v.getLsbD 0), .sleep s.enableDelay,
          .write s.eLine false, .sleep s.enableDelay] ∧
      sleepTotal t.events = sleepTotal s.events + 10 * s.enableDelay ∧
      t.levelOf s.eLine = .low ∧ (∀ l, l ∉ s.lines → t.levelOf l = s.levelOf l) ∧
      SameLines s t ∧ SameFlags s t ∧ SameInputs s t ∧ t.cursorPosition = s.cursorPosition ∧
      t.lifecycle = s.lifecycle ∧ t.seq = s.seq ∧ t.returned = s.returned

/-- One completed `TRANSMIT(v, rs)` appends exactly `(rs, v)` to the latched trace, and the lines then show it
(R88, R90). -/
def Obligations.TransmitLatchesItsWord : Prop :=
  ∀ (s : State) (v : Byte) (rs : Bool), s.quietFor 21 → s.linesDistinct → s.timingMet →
    ∃ t, transmit v rs s = .going t ∧ t.latched = s.latched ++ [⟨rs, v⟩] ∧ t.stray = s.stray ∧ t.shows ⟨rs, v⟩

/-- A pattern that is not eight binary digits raises `ProtocolError` before call 1 and leaves the handle FAULTED;
any other is transmitted as its byte (R80, R83, R185). -/
def Obligations.MalformedPatternIsAProtocolError : Prop :=
  ∀ (p : List Nat) (rs : Bool) (s : State),
    (¬ (p.length = 8 ∧ ∀ x ∈ p, x = 0 ∨ x = 1) →
      transmitPattern p rs s = .raised .protocolError (s.setLifecycle .faulted)) ∧
    (p.length = 8 ∧ (∀ x ∈ p, x = 0 ∨ x = 1) → ∃ v, patternOf v = p ∧ transmitPattern p rs s = transmit v rs s)

/-- A fault answer at call `k` of `TRANSMIT` (R89): calls 1 to `k-1` have taken effect and no later call is made,
the handle is FAULTED, the cursor has not moved. E is left high from call 3 to 19: R89 says 3 to 20, and that the effect
of call 20, E's own, is unspecified; the model follows the latter (notes/assumptions/8.md). At call 21 the word has been
latched and `stray` gets nothing. Before it nothing may be assumed of what was latched; that `latched` then stays as it
was and `stray` gets one entry is the model's choice (notes/assumptions/9.md). That call `k` itself is counted and in the
event trace: notes/assumptions/17.md. -/
def Obligations.FaultInsideATransmission : Prop :=
  ∀ (s : State) (v : Byte) (rs : Bool) (k : Nat), 1 ≤ k → k ≤ 21 → s.quietFor (k - 1) → s.calls + k ∈ s.faultAt →
    ∃ t, transmit v rs s = .raised .hardwareFault t ∧ t.lifecycle = .faulted ∧ t.calls = s.calls + k ∧
      t.events = s.events ++ (transmitCalls s v rs).take k ∧ t.cursorPosition = s.cursorPosition ∧
      SameLines s t ∧ SameFlags s t ∧ SameInputs s t ∧
      (s.linesDistinct →
        (1 < k → t.levelOf s.rsLine = levelOfBool rs) ∧
        (3 ≤ k → k ≤ 19 → t.levelOf s.eLine = .high) ∧
        (∀ i : Fin 8, (18 < k + 2 * i.val → t.levelOf s.dataLines[i] = levelOfBool (v.getLsbD i.val)) ∧
          (k + 2 * i.val < 18 → t.levelOf s.dataLines[i] = s.levelOf s.dataLines[i])) ∧
        (s.timingMet → FaultSeen s t ⟨rs, v⟩ k))

/-- `PAD24()` (R87) makes 504 backend calls, latches 24 null data words and adds 24 to the cursor; it asks for 240
delays. -/
def Obligations.PadSkipsTheHiddenCells : Prop :=
  ∀ s : State, s.cursorPosition.toNat ≤ 39 → s.quietFor 504 →
    ∃ t, pad24 s = .going t ∧ t.calls = s.calls + 504 ∧ t.events.length = s.events.length + 504 ∧
      t.cursorPosition.toNat = s.cursorPosition.toNat + 24 ∧
      (s.cursorPosition.toNat = 16 → t.cursorPosition.toNat = 40) ∧
      sleepTotal t.events = sleepTotal s.events + 240 * s.enableDelay ∧
      (s.linesDistinct → s.timingMet →
        t.latched = s.latched ++ List.replicate 24 (dataWord 0x00#8) ∧
        ∀ p, t.readCell p = if s.cursorPosition.toNat ≤ p ∧ p < s.cursorPosition.toNat + 24 then some 0x00#8
          else s.readCell p)

/-! ## The emitted words -/

/-- The five instruction words (R51, R85): each completes, latches its byte with RS low and leaves the cursor, the
flags and the lifecycle alone; `I_CLEAR` leaves every cell unknown (U9, notes/assumptions/4.md), the others write no
cell. -/
def Obligations.InstructionWordsComplete : Prop :=
  ∀ (s : State) (i : Instr) (v : Byte),
    ((i = .iClear ∧ v = 0x01#8) ∨ (i = .iFunc ∧ v = 0x38#8) ∨ (i = .iEntry ∧ v = 0x06#8) ∨
      (i = .iHome ∧ v = 0x02#8) ∨ ∃ d c b, i = .iDisp d c b ∧ v = displayControlByte d c b) →
    s.quietFor 21 →
    ∃ t, exec i s = .next t ∧ Transmitted s t [instrWord v] ∧ SameFlags s t ∧
      t.cursorPosition = s.cursorPosition ∧ t.lifecycle = s.lifecycle ∧ t.seq = s.seq ∧ t.returned = s.returned ∧
      (s.linesDistinct → s.timingMet → ∀ p, t.readCell p = if i = .iClear then none else s.readCell p)

/-- The two data words (R51, R86): each completes, latches its byte with RS high, writes the cell at
`cursorPosition` and no other, and advances the cursor by 1 (below 63, the largest the register holds). -/
def Obligations.DataWordsComplete : Prop :=
  ∀ (s : State) (i : Instr) (v : Byte),
    ((∃ c : BitVec 7, i = .dChar c ∧ v.toNat = c.toNat) ∨ (i = .dNull ∧ v = 0x00#8)) →
    s.quietFor 21 →
    ∃ t, exec i s = .next t ∧ Transmitted s t [dataWord v] ∧ SameFlags s t ∧
      t.lifecycle = s.lifecycle ∧ t.seq = s.seq ∧ t.returned = s.returned ∧
      (s.cursorPosition.toNat < 63 → t.cursorPosition.toNat = s.cursorPosition.toNat + 1) ∧
      (s.linesDistinct → s.timingMet →
        ∀ p, t.readCell p = if p = s.cursorPosition.toNat then some v else s.readCell p)

/-- An emitted word whose transmission meets a fault at call `k` (R86, R89, R186): it ends the operation it belongs to
with `HardwareFault`, the handle is FAULTED, calls 1 to `k` are made and no later one, and the cursor has not moved, nor
any other register. What is said of the latched trace for `k` up to 20 is the model's choice (notes/assumptions/9.md);
that call `k` is counted and in the event trace: notes/assumptions/17.md. -/
def Obligations.FaultInsideAnEmittedWord : Prop :=
  ∀ (s : State) (i : Instr) (v : Byte) (rs : Bool) (k : Nat), wordParts i = some (v, rs) →
    1 ≤ k → k ≤ 21 → s.quietFor (k - 1) → s.calls + k ∈ s.faultAt →
    ∃ t, exec i s = .next t ∧ t.returned = some .hardwareFault ∧ t.lifecycle = .faulted ∧ t.seq = .idle ∧
      t.calls = s.calls + k ∧ t.events = s.events ++ (transmitCalls s v rs).take k ∧
      t.cursorPosition = s.cursorPosition ∧ SameLines s t ∧ SameFlags s t ∧ SameInputs s t ∧
      (s.linesDistinct → s.timingMet → FaultSeen s t ⟨rs, v⟩ k)

/-- The same inside an operation, from any phase of the word the sequencer stands at (R82, R89): a fault at the `k`-th
of the calls that remain ends the operation there. The doubtful occasion, if the transmission had not reached its last
call, goes to `stray` alone: the model's choice (notes/assumptions/9.md). The call is counted and in the event trace:
notes/assumptions/17.md. -/
def Obligations.FaultInsideAStep : Prop :=
  ∀ (s : State) (p : SeqPos) (i : Instr) (v : Byte) (rs : Bool) (k : Nat),
    s.seq = .busy p → selectWord p s = some i → wordParts i = some (v, rs) → 1 ≤ k → p.phase + k ≤ 21 →
    s.quietFor (k - 1) → s.calls + k ∈ s.faultAt →
    ∃ t, step s = .next t ∧ t.returned = some .hardwareFault ∧ t.lifecycle = .faulted ∧ t.seq = .idle ∧
      t.calls = s.calls + k ∧ t.events = s.events ++ ((transmitCalls s v rs).drop p.phase).take k ∧
      t.cursorPosition = s.cursorPosition ∧ SameLines s t ∧ SameFlags s t ∧ SameInputs s t ∧
      (s.linesDistinct → s.timingMet →
        (p.phase + k ≤ 20 → t.latched = s.latched ∧ ∃ x, t.stray = s.stray ++ [⟨s.latched.length, x⟩]) ∧
        (p.phase + k = 21 → t.stray = s.stray))

/-! ## The mode operations -/

/-- R53: the display-control word is `0x08 + 4*D + 2*C + B` of the flags as they stand when it is built, with the
table's eight values. -/
def Obligations.DisplayControlWordFromFlags : Prop :=
  (∀ d c b : Bool, (displayControlByte d c b).toNat = 8 + 4 * d.toNat + 2 * c.toNat + b.toNat ∧
    encode (.iDisp d c b) = .emitted (emittedWord false (displayControlByte d c b))) ∧
  (∀ s : State, displayControl s = sendInstr (displayControlByte s.displayOn s.cursorOn s.blinkOn) s) ∧
  displayControlByte false false false = 0b00001000#8 ∧ displayControlByte false false true = 0b00001001#8 ∧
  displayControlByte false true false = 0b00001010#8 ∧ displayControlByte false true true = 0b00001011#8 ∧
  displayControlByte true false false = 0b00001100#8 ∧ displayControlByte true false true = 0b00001101#8 ∧
  displayControlByte true true false = 0b00001110#8 ∧ displayControlByte true true true = 0b00001111#8

/-- R102: the nine mode operations (R104-R112): in READY each completes with OK, writes its own flag only, sends
exactly one display-control word with the new flags whether or not the flag changed, and touches nothing else. -/
def Obligations.ModeOperationsComplete : Prop :=
  ∀ (s : State) (i : Instr) (d c b : Bool),
    ((i = .setDisplay d ∧ c = s.cursorOn ∧ b = s.blinkOn) ∨
      (i = .setCursor c ∧ d = s.displayOn ∧ b = s.blinkOn) ∨
      (i = .setBlink b ∧ d = s.displayOn ∧ c = s.cursorOn) ∨
      (i = .displayOn ∧ d = true ∧ c = s.cursorOn ∧ b = s.blinkOn) ∨
      (i = .displayOff ∧ d = false ∧ c = s.cursorOn ∧ b = s.blinkOn) ∨
      (i = .cursorOn ∧ c = true ∧ d = s.displayOn ∧ b = s.blinkOn) ∨
      (i = .cursorOff ∧ c = false ∧ d = s.displayOn ∧ b = s.blinkOn) ∨
      (i = .blinkOn ∧ b = true ∧ d = s.displayOn ∧ c = s.cursorOn) ∨
      (i = .blinkOff ∧ b = false ∧ d = s.displayOn ∧ c = s.cursorOn)) →
    s.isReady → s.quietFor 21 →
    ∃ t, exec i s = .next t ∧ t.displayOn = d ∧ t.cursorOn = c ∧ t.blinkOn = b ∧
      Transmitted s t [instrWord (displayControlByte d c b)] ∧ t.cursorPosition = s.cursorPosition ∧
      t.isReady ∧ t.returned = some .ok ∧
      (s.linesDistinct → s.timingMet → ∀ p, t.readCell p = s.readCell p)

/-- R59: a wrapper has exactly the behaviour of its expansion, status included, in every state. -/
def Obligations.WrappersBehaveAsTheirExpansions : Prop :=
  ∀ s : State, exec .displayOn s = exec (.setDisplay true) s ∧ exec .displayOff s = exec (.setDisplay false) s ∧
    exec .cursorOn s = exec (.setCursor true) s ∧ exec .cursorOff s = exec (.setCursor false) s ∧
    exec .blinkOn s = exec (.setBlink true) s ∧ exec .blinkOff s = exec (.setBlink false) s

/-- Issuing the same set operation twice in a row leaves the flags as after the first and latches the same word
twice (R103). -/
def Obligations.SettingTwiceResendsTheWord : Prop :=
  ∀ (s : State) (i : Instr) (b : Bool), i = .setDisplay b ∨ i = .setCursor b ∨ i = .setBlink b →
    s.isReady → s.quietFor 42 → s.linesDistinct → s.timingMet →
    ∃ t u w, exec i s = .next t ∧ exec i t = .next u ∧ SameFlags t u ∧
      t.latched = s.latched ++ [w] ∧ u.latched = s.latched ++ [w, w] ∧
      u.cursorPosition = s.cursorPosition ∧ u.isReady

/-! ## Clear, construct, destruct -/

/-- `CLEAR` in READY (R121-R123, R126): it completes with OK, the cursor is 0, the five instructions go out in the
fixed order and nothing else does, the flags are re-sent unchanged; no cell is written, so all are unknown
(U9; the model's choice, notes/assumptions/4.md). -/
def Obligations.ClearCompletes : Prop :=
  ∀ s : State, s.isReady → s.quietFor 105 →
    ∃ t, exec .clear s = .next t ∧ t.cursorPosition = 0#6 ∧
      Transmitted s t [instrWord 0x01#8, instrWord 0x38#8,
        instrWord (displayControlByte s.displayOn s.cursorOn s.blinkOn), instrWord 0x06#8, instrWord 0x02#8] ∧
      SameFlags s t ∧ t.isReady ∧ t.returned = some .ok ∧
      (s.linesDistinct → s.timingMet → ∀ p, t.readCell p = none)

/-- `CONSTRUCT` from UNBOUND or RELEASED (R161, R162, R211): the lines are bound, the flags take their defaults, the
cursor is 0, each of the ten lines is claimed and driven low, then the clear sequence runs and the handle is READY.
With distinct lines and a sufficient delay the controller has latched the five words and nothing else, and the lines
show the return-home word. That no cell is known then is the model's choice (notes/assumptions/4.md). -/
def Obligations.ConstructCompletes : Prop :=
  ∀ (s : State) (rs e : LineId) (d : Vector LineId 8),
    s.seq = .idle → (s.lifecycle = .unbound ∨ s.lifecycle = .released) → s.quietFor 125 →
    ∃ t, exec (.construct rs e d.toList) s = .next t ∧ t.rsLine = rs ∧ t.eLine = e ∧ t.dataLines = d ∧
      t.displayOn = true ∧ t.cursorOn = false ∧ t.blinkOn = false ∧ t.cursorPosition = 0#6 ∧ t.isReady ∧
      t.returned = some .ok ∧ SameInputs s t ∧ t.calls = s.calls + 125 ∧
      t.events = s.events ++ (rs :: e :: d.toList).flatMap (fun l => [.cfg l, .write l false]) ++
        (clearWords 0x0C#8).flatMap (fun w => transmitCalls t w.byte w.rs) ∧
      t.levelOf e = .low ∧ (∀ l, l ∉ rs :: e :: d.toList → t.levelOf l = s.levelOf l) ∧
      (t.linesDistinct → t.timingMet →
        t.latched = s.latched ++ [instrWord 0x01#8, instrWord 0x38#8, instrWord 0x0C#8, instrWord 0x06#8,
          instrWord 0x02#8] ∧
        t.stray = s.stray ∧ t.shows (instrWord 0x02#8) ∧ ∀ p, t.readCell p = none)

/-- R164: a `CONSTRUCT` whose backend call `n` answers *fault* ends there with `HardwareFault` and FAULTED. The lines
already configured stay claimed, the line of the faulting call included once its `Cfg` is done; with distinct lines those
not reached keep the level they had. The registers stay as it wrote them. Afterwards only `DESTRUCT` is accepted, and it
releases. (That call `n` is counted: notes/assumptions/17.md.) -/
def Obligations.FailedConstructKeepsItsLines : Prop :=
  ∀ (s : State) (rs e : LineId) (d : Vector LineId 8) (n : Nat),
    s.seq = .idle → (s.lifecycle = .unbound ∨ s.lifecycle = .released) → 1 ≤ n → n ≤ 125 →
    s.quietFor (n - 1) → s.calls + n ∈ s.faultAt →
    ∃ t, exec (.construct rs e d.toList) s = .next t ∧ t.returned = some .hardwareFault ∧ t.lifecycle = .faulted ∧
      t.seq = .idle ∧ t.calls = s.calls + n ∧
      (∀ j l, (rs :: e :: d.toList)[j]? = some l → 2 * j + 1 < n → t.levelOf l ≠ .unclaimed) ∧
      ((rs :: e :: d.toList).Nodup →
        ∀ j l, (rs :: e :: d.toList)[j]? = some l → n < 2 * j + 1 → t.levelOf l = s.levelOf l) ∧
      t.rsLine = rs ∧ t.eLine = e ∧ t.dataLines = d ∧ t.displayOn = true ∧ t.cursorOn = false ∧
      t.blinkOn = false ∧ t.cursorPosition = 0#6 ∧
      (∀ i : Instr, i.isEmitted = false → i ≠ .destruct → exec i t = .next (t.setReturned .lifecycleFault)) ∧
      ∃ u, exec .destruct t = .next u ∧ u.returned = some .ok ∧ u.lifecycle = .released

/-- `CONSTRUCT` with a list that is not eight lines long claims nothing, binds nothing and returns
`ValidationError`; the handle stays in the lifecycle state it had (R163). -/
def Obligations.WrongLineCountIsRefused : Prop :=
  ∀ (s : State) (rs e : LineId) (d : List LineId),
    s.seq = .idle → (s.lifecycle = .unbound ∨ s.lifecycle = .released) → d.length ≠ 8 →
    exec (.construct rs e d) s = .next (s.setReturned .validationError)

/-- `DESTRUCT` completes with OK in every lifecycle state, whatever the backend answers: one `Rel()`, every line
Unclaimed, the handle RELEASED; flags, cursor and line configuration keep their values (R165, R166). Two clauses are the
model's own: that every line is Unclaimed even if `Rel()` answered *fault*, which R186 leaves open
(notes/assumptions/18.md), and that the latched trace stays as it was even if E was high, where U6 lets `Rel()` cause a
fall (notes/assumptions/9.md). Unless E was high, nothing the controller holds is put in doubt. -/
def Obligations.DestructAlwaysCompletes : Prop :=
  ∀ s : State, s.seq = .idle →
    ∃ t, exec .destruct s = .next t ∧ t.returned = some .ok ∧ t.lifecycle = .released ∧ t.seq = .idle ∧
      t.events = s.events ++ [.rel] ∧ t.calls = s.calls + 1 ∧ (∀ l, t.levelOf l = .unclaimed) ∧
      SameLines s t ∧ SameFlags s t ∧ SameInputs s t ∧ t.cursorPosition = s.cursorPosition ∧
      t.latched = s.latched ∧
      (s.levelOf s.eLine ≠ .high → t.stray = s.stray ∧ ∀ p, t.readCell p = s.readCell p)

/-- From any lifecycle state, FAULTED included, `DESTRUCT` and then `CONSTRUCT` start a new handle (R169, R192). -/
def Obligations.DestructThenConstructStartsAfresh : Prop :=
  ∀ (s : State) (rs e : LineId) (d : Vector LineId 8), s.seq = .idle →
    (∀ n ∈ s.faultAt, n ≤ s.calls + 1 ∨ s.calls + 126 < n) →
    ∃ t u, exec .destruct s = .next t ∧ exec (.construct rs e d.toList) t = .next u ∧ u.isReady ∧
      u.returned = some .ok ∧ u.rsLine = rs ∧ u.eLine = e ∧ u.dataLines = d ∧ u.cursorPosition = 0#6 ∧
      u.displayOn = true ∧ u.cursorOn = false ∧ u.blinkOn = false

/-! ## The text operations -/

/-- R72: `ENCODE` fails with `EncodingError` exactly if some code point is 128 or more, wherever it stands and
however many there are; otherwise it gives each character's byte, and no error is partial. -/
def Obligations.EncoderAcceptsExactlyAscii : Prop :=
  ∀ text : List CodePoint,
    ((∃ c ∈ text, 128 ≤ c) → encodeText text = .error .encodingError) ∧
    ((∀ c ∈ text, c < 128) → encodeText text = .ok (text.map byteOfCodePoint))

/-- The encoder's result has one byte per character, all below 0x80, and decodes back to the text; every list of
bytes below 0x80 is the encoding of its decoding (R74, R75, R76). -/
def Obligations.EncoderRoundTrip : Prop :=
  (∀ text bytes, encodeText text = .ok bytes → bytes.length = text.length ∧ (∀ v ∈ bytes, v.toNat < 128) ∧
    decodeText bytes = text) ∧
  ∀ bytes : List Byte, (∀ v ∈ bytes, v.toNat < 128) → encodeText (decodeText bytes) = .ok bytes

/-- R132: `SET_TEXT` of an ASCII text of at most 32 characters in READY (R131): it completes with OK; the clear
sequence, then up to 16 characters, the 24 nulls if there are 16, and the rest are sent; the cursor ends at the
length, plus 24 from 16 on; the flags are unchanged. -/
def Obligations.SetTextCompletes : Prop :=
  ∀ (s : State) (text : List CodePoint), s.isReady → text.length ≤ 32 → (∀ c ∈ text, c < 128) →
    s.quietFor (callCount (.setText text) s) →
    ∃ t, exec (.setText text) s = .next t ∧
      t.cursorPosition.toNat = (if text.length < 16 then text.length else text.length + 24) ∧
      Transmitted s t (clearWords (displayControlByte s.displayOn s.cursorOn s.blinkOn) ++
        if text.length < 16 then charWords text
        else charWords (text.take 16) ++ nullWords ++ charWords (text.drop 16)) ∧
      t.calls = s.calls + callCount (.setText text) s ∧ SameFlags s t ∧ t.isReady ∧ t.returned = some .ok

/-- Where a `SET_TEXT` writes (R135): character `k` of a `SET_TEXT` lands in cell `k` if `k < 16` and in cell `k + 24` otherwise, that is in row 0
column `k` or row 1 column `k - 16`, where it is seen (R31); the hidden cells 16 to 39 receive 0x00 when there are 16
characters or more and nothing otherwise. -/
def Obligations.SetTextPlacesItsCharacters : Prop :=
  ∀ (s : State) (text : List CodePoint), s.isReady → text.length ≤ 32 → (∀ c ∈ text, c < 128) →
    s.quietFor (callCount (.setText text) s) → s.linesDistinct → s.timingMet →
    ∃ t, exec (.setText text) s = .next t ∧
      (∀ (k : Nat) (h : k < text.length),
        t.readCell (if k < 16 then k else k + 24) = some (byteOfCodePoint text[k]) ∧
        cellRow (if k < 16 then k else k + 24) = (if k < 16 then 0 else 1) ∧
        cellColumn (if k < 16 then k else k + 24) = (if k < 16 then k else k - 16) ∧
        cellVisible (if k < 16 then k else k + 24) = true) ∧
      (∀ p, 16 ≤ p → p ≤ 39 →
        cellVisible p = false ∧ t.readCell p = if 16 ≤ text.length then some 0x00#8 else none)

/-- R137: a `SET_TEXT` that is too long returns `ValidationError`, and one of a text of legal length that is not
ASCII `EncodingError`; in both cases the state is exactly as before the call. -/
def Obligations.FailedSetTextChangesNothing : Prop :=
  ∀ (s : State) (text : List CodePoint), s.isReady →
    (32 < text.length → exec (.setText text) s = .next (s.setReturned .validationError)) ∧
    (text.length ≤ 32 → (∃ c ∈ text, 128 ≤ c) → exec (.setText text) s = .next (s.setReturned .encodingError))

/-- `SET_TEXT` of the empty text is accepted, encodes to nothing and is in effect a `CLEAR` (R136). -/
def Obligations.EmptySetTextIsAClear : Prop :=
  encodeText [] = .ok [] ∧ ∀ s : State, exec (.setText []) s = exec .clear s

/-- R140: the capacity rule, with its two branches and the source's two examples; a READY `APPEND` of a non-empty
text that it rejects ends with `ValidationError` and changes nothing. -/
def Obligations.AppendCapacityRule : Prop :=
  (∀ c l : Nat, capacityOk c l = true ↔ (c ≤ 16 ∧ c + 24 + l ≤ 56) ∨ (39 ≤ c ∧ c + l ≤ 56)) ∧
  capacityOk 50 4 = true ∧ capacityOk 10 30 = false ∧
  ∀ (s : State) (text : List CodePoint), s.isReady → text ≠ [] →
    (capacityOk s.cursorPosition.toNat text.length = false →
      exec (.append text) s = .next (s.setReturned .validationError)) ∧
    (capacityOk s.cursorPosition.toNat text.length = true →
      ∀ t, exec (.append text) s = .next t → t.returned ≠ some .validationError)

/-- R144: the largest accepted length for every entry position; every length from 1 up to it is accepted and no
other. -/
def Obligations.LargestAcceptedAppend : Prop :=
  ∀ c l : Nat, c ≤ 63 → 1 ≤ l →
    (capacityOk c l = true ↔
      l ≤ if c ≤ 16 then 32 - c else if c ≤ 38 then 0 else if c ≤ 56 then 56 - c else 0)

/-- R143: `APPEND` of an accepted ASCII text in READY (R139, R142): it completes with OK; the characters are sent,
with the 24 nulls before the first one that would stand at position 16; the flags are unchanged and no instruction
word is sent. -/
def Obligations.AppendCompletes : Prop :=
  ∀ (s : State) (text : List CodePoint), s.isReady → text ≠ [] →
    capacityOk s.cursorPosition.toNat text.length = true → (∀ c ∈ text, c < 128) →
    s.quietFor (callCount (.append text) s) →
    ∃ t, exec (.append text) s = .next t ∧
      t.cursorPosition.toNat =
        (if s.cursorPosition.toNat ≤ 16 ∧ 16 < s.cursorPosition.toNat + text.length then
          s.cursorPosition.toNat + text.length + 24 else s.cursorPosition.toNat + text.length) ∧
      Transmitted s t
        (if s.cursorPosition.toNat ≤ 16 ∧ 16 < s.cursorPosition.toNat + text.length then
          charWords (text.take (16 - s.cursorPosition.toNat)) ++ nullWords ++
            charWords (text.drop (16 - s.cursorPosition.toNat))
          else charWords text) ∧
      t.calls = s.calls + callCount (.append text) s ∧ SameFlags s t ∧ t.isReady ∧ t.returned = some .ok

/-- Where an `APPEND` writes: character `k` goes to the next cell after those before it, past the hidden cells once
row 0 is full; a skip writes 0x00 to the hidden cells; every other cell keeps what it had (R139, R142). -/
def Obligations.AppendPlacesItsCharacters : Prop :=
  ∀ (s : State) (text : List CodePoint), s.isReady → text ≠ [] →
    capacityOk s.cursorPosition.toNat text.length = true → (∀ c ∈ text, c < 128) →
    s.quietFor (callCount (.append text) s) → s.linesDistinct → s.timingMet →
    ∃ t, exec (.append text) s = .next t ∧
      (∀ (k : Nat) (h : k < text.length),
        t.readCell (appendCell s.cursorPosition.toNat k) = some (byteOfCodePoint text[k])) ∧
      (s.cursorPosition.toNat ≤ 16 → 16 < s.cursorPosition.toNat + text.length →
        ∀ p, 16 ≤ p → p ≤ 39 → t.readCell p = some 0x00#8) ∧
      (∀ p, p < s.cursorPosition.toNat ∨ t.cursorPosition.toNat ≤ p → t.readCell p = s.readCell p)

/-- The status tests of `APPEND` (R146): an `APPEND` of the empty text, or of one that does not fit, returns
`ValidationError`; one that fits but is not ASCII returns `EncodingError`; in every case all state is as before. -/
def Obligations.FailedAppendChangesNothing : Prop :=
  ∀ (s : State) (text : List CodePoint), s.isReady →
    (text = [] ∨ capacityOk s.cursorPosition.toNat text.length = false →
      exec (.append text) s = .next (s.setReturned .validationError)) ∧
    (text ≠ [] → capacityOk s.cursorPosition.toNat text.length = true → (∃ c ∈ text, 128 ≤ c) →
      exec (.append text) s = .next (s.setReturned .encodingError))

/-- An `APPEND` that ends exactly at the boundary leaves the skip to the next one: from a READY block, `SET_TEXT` of
16 characters ends at 40, `CLEAR` and `APPEND` of the same 16 end at 16, and the next `APPEND` begins with the 24
nulls (R145). -/
def Obligations.BoundarySkipIsLeftToTheNextAppend : Prop :=
  ∀ (s : State) (text : List CodePoint) (c : CodePoint), s.isReady → text.length = 16 → (∀ x ∈ text, x < 128) →
    c < 128 → s.quietFor 966 → s.linesDistinct → s.timingMet →
    (∃ t, exec (.setText text) s = .next t ∧ t.cursorPosition.toNat = 40) ∧
    ∃ t u w, exec .clear s = .next t ∧ exec (.append text) t = .next u ∧ exec (.append [c]) u = .next w ∧
      u.cursorPosition.toNat = 16 ∧ u.latched = t.latched ++ charWords text ∧
      w.latched = u.latched ++ nullWords ++ charWords [c] ∧ w.cursorPosition.toNat = 41

/-! ## Errors -/

/-- R187: an operation issued in a lifecycle state that does not accept it returns `LifecycleFault`, whatever its
operands; it emits nothing and changes nothing. -/
def Obligations.LifecycleFaultChangesNothing : Prop :=
  ∀ (s : State) (i : Instr), i.isEmitted = false → i ≠ .destruct → s.seq = .idle →
    ((∃ rs e d, i = .construct rs e d) → s.lifecycle = .ready ∨ s.lifecycle = .faulted →
      exec i s = .next (s.setReturned .lifecycleFault)) ∧
    ((∀ rs e d, i ≠ .construct rs e d) → s.lifecycle ≠ .ready →
      exec i s = .next (s.setReturned .lifecycleFault))

/-- The statuses an operation can end with (R184); `ProtocolError` is none of them. -/
def Obligations.OperationsEndOnlyWithTheirStatuses : Prop :=
  ∀ (s t : State) (i : Instr), i.isEmitted = false → exec i s = .next t →
    (t.returned = some .ok ∨
      (t.returned = some .validationError ∧
        ((∃ rs e d, i = .construct rs e d) ∨ (∃ x, i = .setText x) ∨ ∃ x, i = .append x)) ∨
      (t.returned = some .encodingError ∧ ((∃ x, i = .setText x) ∨ ∃ x, i = .append x)) ∨
      (t.returned = some .hardwareFault ∧ i ≠ .destruct) ∨
      (t.returned = some .lifecycleFault ∧ i ≠ .destruct))

/-- An operation that ends with `ValidationError`, `EncodingError` or `LifecycleFault` leaves the state it found,
but for the status it returns (R191). -/
def Obligations.PreciseErrorsChangeNothing : Prop :=
  ∀ (s t : State) (i : Instr) (e : Status), i.isEmitted = false → exec i s = .next t → t.returned = some e →
    e = .validationError ∨ e = .encodingError ∨ e = .lifecycleFault → t = s.setReturned e

/-- An operation that passes its checks and meets no fault answer ends with OK after exactly the backend calls of
R230. -/
def Obligations.AcceptedOperationMakesItsCalls : Prop :=
  ∀ (s : State) (i : Instr), i.isEmitted = false → s.seq = .idle → refusalOf i s = none →
    s.quietFor (callCount i s) →
    ∃ t, exec i s = .next t ∧ t.returned = some .ok ∧ t.seq = .idle ∧ t.calls = s.calls + callCount i s ∧
      t.events.length = s.events.length + callCount i s

/-- An operation other than `DESTRUCT` that passes its checks and meets a fault answer ends at the first one, its call
`n`, with `HardwareFault`: no later call is made, and the handle is FAULTED (R186). What was written stays written: the
lines bound, a flag set before its transmission (R104), the cursor zeroed before the clear sequence (R123); and the
cursor counts exactly the data transmissions that completed (R86, R186). That call `n` is counted and in the event trace:
notes/assumptions/17.md. -/
def Obligations.HardwareFaultEndsTheOperation : Prop :=
  ∀ (s : State) (i : Instr), i.isEmitted = false → i ≠ .destruct → s.seq = .idle → refusalOf i s = none →
    ¬ s.quietFor (callCount i s) →
    ∃ t n, exec i s = .next t ∧ t.returned = some .hardwareFault ∧ t.lifecycle = .faulted ∧ t.seq = .idle ∧
      1 ≤ n ∧ n ≤ callCount i s ∧ s.calls + n ∈ s.faultAt ∧ s.quietFor (n - 1) ∧ t.calls = s.calls + n ∧
      t.events = s.events ++ (opCalls i s).take n ∧ SameInputs s t ∧
      SameLines (firstWrites i s) t ∧ SameFlags (firstWrites i s) t ∧
      t.cursorPosition.toNat = (firstWrites i s).cursorPosition.toNat + dataSentBefore i s n

/-- Nothing but `DESTRUCT` unclaims a line, whatever the backend answers (R164, R186). -/
def Obligations.ClaimedLinesStayClaimed : Prop :=
  ∀ (s t : State) (i : Instr) (l : LineId), i ≠ .destruct → exec i s = .next t →
    s.levelOf l ≠ .unclaimed → t.levelOf l ≠ .unclaimed

/-- A fault answer only cuts an operation's event trace short: what was emitted is the beginning of what the
operation emits when no call faults (R38, R186). -/
def Obligations.FaultOnlyCutsTheTrace : Prop :=
  ∀ (s t u : State) (i : Instr), exec i s = .next t → exec i { s with faultAt := [] } = .next u →
    t.events <+: u.events

/-- A host operation asked for while another is in progress has no meaning (R197, R222); with none in progress every
one of them answers a next state. -/
def Obligations.OverlappingOperationIsRefused : Prop :=
  ∀ (s : State) (i : Instr), i.isEmitted = false →
    ((∀ p, s.seq = .busy p → exec i s = .refused .operationInProgress) ∧
      (s.seq = .idle → ∃ t, exec i s = .next t ∧ t.seq = .idle))

/-! ## The whole machine -/

/-- The line configuration is written by `CONSTRUCT` only (R11, R168). -/
def Obligations.OnlyConstructBindsLines : Prop :=
  ∀ (s t : State) (i : Instr), exec i s = .next t →
    SameLines s t ∨ ∃ d : Vector LineId 8, i = .construct t.rsLine t.eLine d.toList ∧ t.dataLines = d

/-- A mode flag is written only by its own set operation, its two wrappers, and `CONSTRUCT`'s default (R12). -/
def Obligations.FlagsWrittenOnlyByTheirOperations : Prop :=
  ∀ (s t : State) (i : Instr), exec i s = .next t →
    (t.displayOn ≠ s.displayOn → i = .setDisplay t.displayOn ∨ (i = .displayOn ∧ t.displayOn = true) ∨
      (i = .displayOff ∧ t.displayOn = false) ∨ ((∃ rs e d, i = .construct rs e d) ∧ t.displayOn = true)) ∧
    (t.cursorOn ≠ s.cursorOn → i = .setCursor t.cursorOn ∨ (i = .cursorOn ∧ t.cursorOn = true) ∨
      (i = .cursorOff ∧ t.cursorOn = false) ∨ ((∃ rs e d, i = .construct rs e d) ∧ t.cursorOn = false)) ∧
    (t.blinkOn ≠ s.blinkOn → i = .setBlink t.blinkOn ∨ (i = .blinkOn ∧ t.blinkOn = true) ∨
      (i = .blinkOff ∧ t.blinkOn = false) ∨ ((∃ rs e d, i = .construct rs e d) ∧ t.blinkOn = false))

/-- The lifecycle changes only as R18 lists: to READY by a `CONSTRUCT` that succeeds from UNBOUND or RELEASED, to
FAULTED by a hardware fault, to RELEASED by `DESTRUCT`, which always does it. -/
def Obligations.LifecycleChangesOnlyAsListed : Prop :=
  ∀ (s t : State) (i : Instr), exec i s = .next t →
    (i = .destruct → t.lifecycle = .released) ∧
    (t.lifecycle ≠ s.lifecycle →
      (t.lifecycle = .ready ∧ (∃ rs e d, i = .construct rs e d) ∧ t.returned = some .ok ∧
        (s.lifecycle = .unbound ∨ s.lifecycle = .released)) ∨
      (t.lifecycle = .faulted ∧ t.returned = some .hardwareFault ∧ i ≠ .destruct) ∨
      (t.lifecycle = .released ∧ i = .destruct))

/-- With distinct lines and a sufficient delay, nothing but the seven kinds of word enters the latched trace (R51,
R55). R55 speaks of runs without a fault. That it holds of a run a fault cuts short rests on the model's choice to keep
the doubtful occasions out of `latched` (notes/assumptions/9.md): `stray` gets at most one of them, and only where the
instruction ended with `HardwareFault` or `DESTRUCT` found E high. -/
def Obligations.OnlyEmittedWordsAreLatched : Prop :=
  ∀ (s t : State) (i : Instr), exec i s = .next t → t.linesDistinct → t.timingMet →
    (∃ ws, t.latched = s.latched ++ ws ∧ ∀ w ∈ ws, ∃ j, decodeEmitted (emittedWord w.rs w.byte) = .instr j) ∧
      (t.stray = s.stray ∨
        ((∃ x, t.stray = s.stray ++ [⟨t.latched.length, x⟩]) ∧
          (t.returned = some .hardwareFault ∨ (i = .destruct ∧ s.levelOf s.eLine = .high))))

/-! ## Invariants -/

/-- The line levels and the cell memory keep their canonical form at every step, from every state. -/
def Obligations.StepKeepsCanonicalForm : Prop :=
  ∀ s t : State, s.canonical → step s = .next t → t.canonical

/-- Every step from a block at rest leaves it at rest: a READY block has its cursor in {0..16} or {40..56} (R14), E
low (R90) and its ten lines driven (R17). -/
def Obligations.StepKeepsRest : Prop := ∀ s t : State, s.atRest → step s = .next t → t.atRest

/-- Every step keeps the shadow true: in a READY block with distinct lines and a sufficient delay, `cursorPosition`
is the number of data words latched since the last clear, and the cells written since then are exactly those below
it (R13, R21, R31, R43). -/
def Obligations.StepKeepsTheShadowTrue : Prop := ∀ s t : State, s.shadowTrue → step s = .next t → t.shadowTrue

/-- After reset the three invariants hold. -/
def Obligations.ResetMeetsTheInvariants : Prop :=
  State.reset.canonical ∧ State.reset.atRest ∧ State.reset.shadowTrue

/-- Power-on: the registers, the sequencer and the lines as R24 and R210 give them. That the two traces are empty is
the model's choice for its own records (notes/assumptions/22.md). -/
def Obligations.ResetValues : Prop :=
  State.reset.lifecycle = .unbound ∧ State.reset.displayOn = true ∧ State.reset.cursorOn = false ∧
    State.reset.blinkOn = false ∧ State.reset.cursorPosition = 0#6 ∧ State.reset.seq = .idle ∧
    (∀ l, State.reset.levelOf l = .unclaimed) ∧ State.reset.latched = [] ∧ State.reset.events = []

/-- The sequencer refines the operation: begun at any idle state and run step by step, one transmission a step, the
sequencer of R19 ends in exactly the state the whole operation answers, fault answers included. -/
def Obligations.SequencerRunsTheWholeOperation : Prop :=
  ∀ (s : State) (i : Instr), i.isEmitted = false → s.seq = .idle →
    ∃ n, Host.Core.run Sys2Proof.core n (startOp i s) = exec i s
end

