-- ==== Sys2Proof/Laws/State.lean ====
section
/-! SUPPORT. One lemma per field per update of State, so that no later proof unfolds a record update. -/

namespace Sys2Proof.Machine

/-! ## `State.bindLines` -/

@[simp] theorem State.bindLines_rsLine (s : State) (rs e : LineId) (d : Vector LineId 8) : (s.bindLines rs e d).rsLine = rs := rfl
@[simp] theorem State.bindLines_eLine (s : State) (rs e : LineId) (d : Vector LineId 8) : (s.bindLines rs e d).eLine = e := rfl
@[simp] theorem State.bindLines_dataLines (s : State) (rs e : LineId) (d : Vector LineId 8) : (s.bindLines rs e d).dataLines = d := rfl
@[simp] theorem State.bindLines_displayOn (s : State) (rs e : LineId) (d : Vector LineId 8) : (s.bindLines rs e d).displayOn = s.displayOn := rfl
@[simp] theorem State.bindLines_cursorOn (s : State) (rs e : LineId) (d : Vector LineId 8) : (s.bindLines rs e d).cursorOn = s.cursorOn := rfl
@[simp] theorem State.bindLines_blinkOn (s : State) (rs e : LineId) (d : Vector LineId 8) : (s.bindLines rs e d).blinkOn = s.blinkOn := rfl
@[simp] theorem State.bindLines_cursorPosition (s : State) (rs e : LineId) (d : Vector LineId 8) : (s.bindLines rs e d).cursorPosition = s.cursorPosition := rfl
@[simp] theorem State.bindLines_lifecycle (s : State) (rs e : LineId) (d : Vector LineId 8) : (s.bindLines rs e d).lifecycle = s.lifecycle := rfl
@[simp] theorem State.bindLines_seq (s : State) (rs e : LineId) (d : Vector LineId 8) : (s.bindLines rs e d).seq = s.seq := rfl
@[simp] theorem State.bindLines_levels (s : State) (rs e : LineId) (d : Vector LineId 8) : (s.bindLines rs e d).levels = s.levels := rfl
@[simp] theorem State.bindLines_cells (s : State) (rs e : LineId) (d : Vector LineId 8) : (s.bindLines rs e d).cells = s.cells := rfl
@[simp] theorem State.bindLines_latched (s : State) (rs e : LineId) (d : Vector LineId 8) : (s.bindLines rs e d).latched = s.latched := rfl
@[simp] theorem State.bindLines_stray (s : State) (rs e : LineId) (d : Vector LineId 8) : (s.bindLines rs e d).stray = s.stray := rfl
@[simp] theorem State.bindLines_events (s : State) (rs e : LineId) (d : Vector LineId 8) : (s.bindLines rs e d).events = s.events := rfl
@[simp] theorem State.bindLines_calls (s : State) (rs e : LineId) (d : Vector LineId 8) : (s.bindLines rs e d).calls = s.calls := rfl
@[simp] theorem State.bindLines_returned (s : State) (rs e : LineId) (d : Vector LineId 8) : (s.bindLines rs e d).returned = s.returned := rfl
@[simp] theorem State.bindLines_host (s : State) (rs e : LineId) (d : Vector LineId 8) : (s.bindLines rs e d).host = s.host := rfl
@[simp] theorem State.bindLines_faultAt (s : State) (rs e : LineId) (d : Vector LineId 8) : (s.bindLines rs e d).faultAt = s.faultAt := rfl
@[simp] theorem State.bindLines_enableDelay (s : State) (rs e : LineId) (d : Vector LineId 8) : (s.bindLines rs e d).enableDelay = s.enableDelay := rfl
@[simp] theorem State.bindLines_tPwMin (s : State) (rs e : LineId) (d : Vector LineId 8) : (s.bindLines rs e d).tPwMin = s.tPwMin := rfl

/-! ## `State.setDisplayOn` -/

@[simp] theorem State.setDisplayOn_rsLine (s : State) (b : Bool) : (s.setDisplayOn b).rsLine = s.rsLine := rfl
@[simp] theorem State.setDisplayOn_eLine (s : State) (b : Bool) : (s.setDisplayOn b).eLine = s.eLine := rfl
@[simp] theorem State.setDisplayOn_dataLines (s : State) (b : Bool) : (s.setDisplayOn b).dataLines = s.dataLines := rfl
@[simp] theorem State.setDisplayOn_displayOn (s : State) (b : Bool) : (s.setDisplayOn b).displayOn = b := rfl
@[simp] theorem State.setDisplayOn_cursorOn (s : State) (b : Bool) : (s.setDisplayOn b).cursorOn = s.cursorOn := rfl
@[simp] theorem State.setDisplayOn_blinkOn (s : State) (b : Bool) : (s.setDisplayOn b).blinkOn = s.blinkOn := rfl
@[simp] theorem State.setDisplayOn_cursorPosition (s : State) (b : Bool) : (s.setDisplayOn b).cursorPosition = s.cursorPosition := rfl
@[simp] theorem State.setDisplayOn_lifecycle (s : State) (b : Bool) : (s.setDisplayOn b).lifecycle = s.lifecycle := rfl
@[simp] theorem State.setDisplayOn_seq (s : State) (b : Bool) : (s.setDisplayOn b).seq = s.seq := rfl
@[simp] theorem State.setDisplayOn_levels (s : State) (b : Bool) : (s.setDisplayOn b).levels = s.levels := rfl
@[simp] theorem State.setDisplayOn_cells (s : State) (b : Bool) : (s.setDisplayOn b).cells = s.cells := rfl
@[simp] theorem State.setDisplayOn_latched (s : State) (b : Bool) : (s.setDisplayOn b).latched = s.latched := rfl
@[simp] theorem State.setDisplayOn_stray (s : State) (b : Bool) : (s.setDisplayOn b).stray = s.stray := rfl
@[simp] theorem State.setDisplayOn_events (s : State) (b : Bool) : (s.setDisplayOn b).events = s.events := rfl
@[simp] theorem State.setDisplayOn_calls (s : State) (b : Bool) : (s.setDisplayOn b).calls = s.calls := rfl
@[simp] theorem State.setDisplayOn_returned (s : State) (b : Bool) : (s.setDisplayOn b).returned = s.returned := rfl
@[simp] theorem State.setDisplayOn_host (s : State) (b : Bool) : (s.setDisplayOn b).host = s.host := rfl
@[simp] theorem State.setDisplayOn_faultAt (s : State) (b : Bool) : (s.setDisplayOn b).faultAt = s.faultAt := rfl
@[simp] theorem State.setDisplayOn_enableDelay (s : State) (b : Bool) : (s.setDisplayOn b).enableDelay = s.enableDelay := rfl
@[simp] theorem State.setDisplayOn_tPwMin (s : State) (b : Bool) : (s.setDisplayOn b).tPwMin = s.tPwMin := rfl

/-! ## `State.setCursorOn` -/

@[simp] theorem State.setCursorOn_rsLine (s : State) (b : Bool) : (s.setCursorOn b).rsLine = s.rsLine := rfl
@[simp] theorem State.setCursorOn_eLine (s : State) (b : Bool) : (s.setCursorOn b).eLine = s.eLine := rfl
@[simp] theorem State.setCursorOn_dataLines (s : State) (b : Bool) : (s.setCursorOn b).dataLines = s.dataLines := rfl
@[simp] theorem State.setCursorOn_displayOn (s : State) (b : Bool) : (s.setCursorOn b).displayOn = s.displayOn := rfl
@[simp] theorem State.setCursorOn_cursorOn (s : State) (b : Bool) : (s.setCursorOn b).cursorOn = b := rfl
@[simp] theorem State.setCursorOn_blinkOn (s : State) (b : Bool) : (s.setCursorOn b).blinkOn = s.blinkOn := rfl
@[simp] theorem State.setCursorOn_cursorPosition (s : State) (b : Bool) : (s.setCursorOn b).cursorPosition = s.cursorPosition := rfl
@[simp] theorem State.setCursorOn_lifecycle (s : State) (b : Bool) : (s.setCursorOn b).lifecycle = s.lifecycle := rfl
@[simp] theorem State.setCursorOn_seq (s : State) (b : Bool) : (s.setCursorOn b).seq = s.seq := rfl
@[simp] theorem State.setCursorOn_levels (s : State) (b : Bool) : (s.setCursorOn b).levels = s.levels := rfl
@[simp] theorem State.setCursorOn_cells (s : State) (b : Bool) : (s.setCursorOn b).cells = s.cells := rfl
@[simp] theorem State.setCursorOn_latched (s : State) (b : Bool) : (s.setCursorOn b).latched = s.latched := rfl
@[simp] theorem State.setCursorOn_stray (s : State) (b : Bool) : (s.setCursorOn b).stray = s.stray := rfl
@[simp] theorem State.setCursorOn_events (s : State) (b : Bool) : (s.setCursorOn b).events = s.events := rfl
@[simp] theorem State.setCursorOn_calls (s : State) (b : Bool) : (s.setCursorOn b).calls = s.calls := rfl
@[simp] theorem State.setCursorOn_returned (s : State) (b : Bool) : (s.setCursorOn b).returned = s.returned := rfl
@[simp] theorem State.setCursorOn_host (s : State) (b : Bool) : (s.setCursorOn b).host = s.host := rfl
@[simp] theorem State.setCursorOn_faultAt (s : State) (b : Bool) : (s.setCursorOn b).faultAt = s.faultAt := rfl
@[simp] theorem State.setCursorOn_enableDelay (s : State) (b : Bool) : (s.setCursorOn b).enableDelay = s.enableDelay := rfl
@[simp] theorem State.setCursorOn_tPwMin (s : State) (b : Bool) : (s.setCursorOn b).tPwMin = s.tPwMin := rfl

/-! ## `State.setBlinkOn` -/

@[simp] theorem State.setBlinkOn_rsLine (s : State) (b : Bool) : (s.setBlinkOn b).rsLine = s.rsLine := rfl
@[simp] theorem State.setBlinkOn_eLine (s : State) (b : Bool) : (s.setBlinkOn b).eLine = s.eLine := rfl
@[simp] theorem State.setBlinkOn_dataLines (s : State) (b : Bool) : (s.setBlinkOn b).dataLines = s.dataLines := rfl
@[simp] theorem State.setBlinkOn_displayOn (s : State) (b : Bool) : (s.setBlinkOn b).displayOn = s.displayOn := rfl
@[simp] theorem State.setBlinkOn_cursorOn (s : State) (b : Bool) : (s.setBlinkOn b).cursorOn = s.cursorOn := rfl
@[simp] theorem State.setBlinkOn_blinkOn (s : State) (b : Bool) : (s.setBlinkOn b).blinkOn = b := rfl
@[simp] theorem State.setBlinkOn_cursorPosition (s : State) (b : Bool) : (s.setBlinkOn b).cursorPosition = s.cursorPosition := rfl
@[simp] theorem State.setBlinkOn_lifecycle (s : State) (b : Bool) : (s.setBlinkOn b).lifecycle = s.lifecycle := rfl
@[simp] theorem State.setBlinkOn_seq (s : State) (b : Bool) : (s.setBlinkOn b).seq = s.seq := rfl
@[simp] theorem State.setBlinkOn_levels (s : State) (b : Bool) : (s.setBlinkOn b).levels = s.levels := rfl
@[simp] theorem State.setBlinkOn_cells (s : State) (b : Bool) : (s.setBlinkOn b).cells = s.cells := rfl
@[simp] theorem State.setBlinkOn_latched (s : State) (b : Bool) : (s.setBlinkOn b).latched = s.latched := rfl
@[simp] theorem State.setBlinkOn_stray (s : State) (b : Bool) : (s.setBlinkOn b).stray = s.stray := rfl
@[simp] theorem State.setBlinkOn_events (s : State) (b : Bool) : (s.setBlinkOn b).events = s.events := rfl
@[simp] theorem State.setBlinkOn_calls (s : State) (b : Bool) : (s.setBlinkOn b).calls = s.calls := rfl
@[simp] theorem State.setBlinkOn_returned (s : State) (b : Bool) : (s.setBlinkOn b).returned = s.returned := rfl
@[simp] theorem State.setBlinkOn_host (s : State) (b : Bool) : (s.setBlinkOn b).host = s.host := rfl
@[simp] theorem State.setBlinkOn_faultAt (s : State) (b : Bool) : (s.setBlinkOn b).faultAt = s.faultAt := rfl
@[simp] theorem State.setBlinkOn_enableDelay (s : State) (b : Bool) : (s.setBlinkOn b).enableDelay = s.enableDelay := rfl
@[simp] theorem State.setBlinkOn_tPwMin (s : State) (b : Bool) : (s.setBlinkOn b).tPwMin = s.tPwMin := rfl

/-! ## `State.setCursorPosition` -/

@[simp] theorem State.setCursorPosition_rsLine (s : State) (c : BitVec 6) : (s.setCursorPosition c).rsLine = s.rsLine := rfl
@[simp] theorem State.setCursorPosition_eLine (s : State) (c : BitVec 6) : (s.setCursorPosition c).eLine = s.eLine := rfl
@[simp] theorem State.setCursorPosition_dataLines (s : State) (c : BitVec 6) : (s.setCursorPosition c).dataLines = s.dataLines := rfl
@[simp] theorem State.setCursorPosition_displayOn (s : State) (c : BitVec 6) : (s.setCursorPosition c).displayOn = s.displayOn := rfl
@[simp] theorem State.setCursorPosition_cursorOn (s : State) (c : BitVec 6) : (s.setCursorPosition c).cursorOn = s.cursorOn := rfl
@[simp] theorem State.setCursorPosition_blinkOn (s : State) (c : BitVec 6) : (s.setCursorPosition c).blinkOn = s.blinkOn := rfl
@[simp] theorem State.setCursorPosition_cursorPosition (s : State) (c : BitVec 6) : (s.setCursorPosition c).cursorPosition = c := rfl
@[simp] theorem State.setCursorPosition_lifecycle (s : State) (c : BitVec 6) : (s.setCursorPosition c).lifecycle = s.lifecycle := rfl
@[simp] theorem State.setCursorPosition_seq (s : State) (c : BitVec 6) : (s.setCursorPosition c).seq = s.seq := rfl
@[simp] theorem State.setCursorPosition_levels (s : State) (c : BitVec 6) : (s.setCursorPosition c).levels = s.levels := rfl
@[simp] theorem State.setCursorPosition_cells (s : State) (c : BitVec 6) : (s.setCursorPosition c).cells = s.cells := rfl
@[simp] theorem State.setCursorPosition_latched (s : State) (c : BitVec 6) : (s.setCursorPosition c).latched = s.latched := rfl
@[simp] theorem State.setCursorPosition_stray (s : State) (c : BitVec 6) : (s.setCursorPosition c).stray = s.stray := rfl
@[simp] theorem State.setCursorPosition_events (s : State) (c : BitVec 6) : (s.setCursorPosition c).events = s.events := rfl
@[simp] theorem State.setCursorPosition_calls (s : State) (c : BitVec 6) : (s.setCursorPosition c).calls = s.calls := rfl
@[simp] theorem State.setCursorPosition_returned (s : State) (c : BitVec 6) : (s.setCursorPosition c).returned = s.returned := rfl
@[simp] theorem State.setCursorPosition_host (s : State) (c : BitVec 6) : (s.setCursorPosition c).host = s.host := rfl
@[simp] theorem State.setCursorPosition_faultAt (s : State) (c : BitVec 6) : (s.setCursorPosition c).faultAt = s.faultAt := rfl
@[simp] theorem State.setCursorPosition_enableDelay (s : State) (c : BitVec 6) : (s.setCursorPosition c).enableDelay = s.enableDelay := rfl
@[simp] theorem State.setCursorPosition_tPwMin (s : State) (c : BitVec 6) : (s.setCursorPosition c).tPwMin = s.tPwMin := rfl

/-! ## `State.setLifecycle` -/

@[simp] theorem State.setLifecycle_rsLine (s : State) (l : Lifecycle) : (s.setLifecycle l).rsLine = s.rsLine := rfl
@[simp] theorem State.setLifecycle_eLine (s : State) (l : Lifecycle) : (s.setLifecycle l).eLine = s.eLine := rfl
@[simp] theorem State.setLifecycle_dataLines (s : State) (l : Lifecycle) : (s.setLifecycle l).dataLines = s.dataLines := rfl
@[simp] theorem State.setLifecycle_displayOn (s : State) (l : Lifecycle) : (s.setLifecycle l).displayOn = s.displayOn := rfl
@[simp] theorem State.setLifecycle_cursorOn (s : State) (l : Lifecycle) : (s.setLifecycle l).cursorOn = s.cursorOn := rfl
@[simp] theorem State.setLifecycle_blinkOn (s : State) (l : Lifecycle) : (s.setLifecycle l).blinkOn = s.blinkOn := rfl
@[simp] theorem State.setLifecycle_cursorPosition (s : State) (l : Lifecycle) : (s.setLifecycle l).cursorPosition = s.cursorPosition := rfl
@[simp] theorem State.setLifecycle_lifecycle (s : State) (l : Lifecycle) : (s.setLifecycle l).lifecycle = l := rfl
@[simp] theorem State.setLifecycle_seq (s : State) (l : Lifecycle) : (s.setLifecycle l).seq = s.seq := rfl
@[simp] theorem State.setLifecycle_levels (s : State) (l : Lifecycle) : (s.setLifecycle l).levels = s.levels := rfl
@[simp] theorem State.setLifecycle_cells (s : State) (l : Lifecycle) : (s.setLifecycle l).cells = s.cells := rfl
@[simp] theorem State.setLifecycle_latched (s : State) (l : Lifecycle) : (s.setLifecycle l).latched = s.latched := rfl
@[simp] theorem State.setLifecycle_stray (s : State) (l : Lifecycle) : (s.setLifecycle l).stray = s.stray := rfl
@[simp] theorem State.setLifecycle_events (s : State) (l : Lifecycle) : (s.setLifecycle l).events = s.events := rfl
@[simp] theorem State.setLifecycle_calls (s : State) (l : Lifecycle) : (s.setLifecycle l).calls = s.calls := rfl
@[simp] theorem State.setLifecycle_returned (s : State) (l : Lifecycle) : (s.setLifecycle l).returned = s.returned := rfl
@[simp] theorem State.setLifecycle_host (s : State) (l : Lifecycle) : (s.setLifecycle l).host = s.host := rfl
@[simp] theorem State.setLifecycle_faultAt (s : State) (l : Lifecycle) : (s.setLifecycle l).faultAt = s.faultAt := rfl
@[simp] theorem State.setLifecycle_enableDelay (s : State) (l : Lifecycle) : (s.setLifecycle l).enableDelay = s.enableDelay := rfl
@[simp] theorem State.setLifecycle_tPwMin (s : State) (l : Lifecycle) : (s.setLifecycle l).tPwMin = s.tPwMin := rfl

/-! ## `State.setSeq` -/

@[simp] theorem State.setSeq_rsLine (s : State) (q : Seq) : (s.setSeq q).rsLine = s.rsLine := rfl
@[simp] theorem State.setSeq_eLine (s : State) (q : Seq) : (s.setSeq q).eLine = s.eLine := rfl
@[simp] theorem State.setSeq_dataLines (s : State) (q : Seq) : (s.setSeq q).dataLines = s.dataLines := rfl
@[simp] theorem State.setSeq_displayOn (s : State) (q : Seq) : (s.setSeq q).displayOn = s.displayOn := rfl
@[simp] theorem State.setSeq_cursorOn (s : State) (q : Seq) : (s.setSeq q).cursorOn = s.cursorOn := rfl
@[simp] theorem State.setSeq_blinkOn (s : State) (q : Seq) : (s.setSeq q).blinkOn = s.blinkOn := rfl
@[simp] theorem State.setSeq_cursorPosition (s : State) (q : Seq) : (s.setSeq q).cursorPosition = s.cursorPosition := rfl
@[simp] theorem State.setSeq_lifecycle (s : State) (q : Seq) : (s.setSeq q).lifecycle = s.lifecycle := rfl
@[simp] theorem State.setSeq_seq (s : State) (q : Seq) : (s.setSeq q).seq = q := rfl
@[simp] theorem State.setSeq_levels (s : State) (q : Seq) : (s.setSeq q).levels = s.levels := rfl
@[simp] theorem State.setSeq_cells (s : State) (q : Seq) : (s.setSeq q).cells = s.cells := rfl
@[simp] theorem State.setSeq_latched (s : State) (q : Seq) : (s.setSeq q).latched = s.latched := rfl
@[simp] theorem State.setSeq_stray (s : State) (q : Seq) : (s.setSeq q).stray = s.stray := rfl
@[simp] theorem State.setSeq_events (s : State) (q : Seq) : (s.setSeq q).events = s.events := rfl
@[simp] theorem State.setSeq_calls (s : State) (q : Seq) : (s.setSeq q).calls = s.calls := rfl
@[simp] theorem State.setSeq_returned (s : State) (q : Seq) : (s.setSeq q).returned = s.returned := rfl
@[simp] theorem State.setSeq_host (s : State) (q : Seq) : (s.setSeq q).host = s.host := rfl
@[simp] theorem State.setSeq_faultAt (s : State) (q : Seq) : (s.setSeq q).faultAt = s.faultAt := rfl
@[simp] theorem State.setSeq_enableDelay (s : State) (q : Seq) : (s.setSeq q).enableDelay = s.enableDelay := rfl
@[simp] theorem State.setSeq_tPwMin (s : State) (q : Seq) : (s.setSeq q).tPwMin = s.tPwMin := rfl

/-! ## `State.setLevels` -/

@[simp] theorem State.setLevels_rsLine (s : State) (m : Lines) : (s.setLevels m).rsLine = s.rsLine := rfl
@[simp] theorem State.setLevels_eLine (s : State) (m : Lines) : (s.setLevels m).eLine = s.eLine := rfl
@[simp] theorem State.setLevels_dataLines (s : State) (m : Lines) : (s.setLevels m).dataLines = s.dataLines := rfl
@[simp] theorem State.setLevels_displayOn (s : State) (m : Lines) : (s.setLevels m).displayOn = s.displayOn := rfl
@[simp] theorem State.setLevels_cursorOn (s : State) (m : Lines) : (s.setLevels m).cursorOn = s.cursorOn := rfl
@[simp] theorem State.setLevels_blinkOn (s : State) (m : Lines) : (s.setLevels m).blinkOn = s.blinkOn := rfl
@[simp] theorem State.setLevels_cursorPosition (s : State) (m : Lines) : (s.setLevels m).cursorPosition = s.cursorPosition := rfl
@[simp] theorem State.setLevels_lifecycle (s : State) (m : Lines) : (s.setLevels m).lifecycle = s.lifecycle := rfl
@[simp] theorem State.setLevels_seq (s : State) (m : Lines) : (s.setLevels m).seq = s.seq := rfl
@[simp] theorem State.setLevels_levels (s : State) (m : Lines) : (s.setLevels m).levels = m := rfl
@[simp] theorem State.setLevels_cells (s : State) (m : Lines) : (s.setLevels m).cells = s.cells := rfl
@[simp] theorem State.setLevels_latched (s : State) (m : Lines) : (s.setLevels m).latched = s.latched := rfl
@[simp] theorem State.setLevels_stray (s : State) (m : Lines) : (s.setLevels m).stray = s.stray := rfl
@[simp] theorem State.setLevels_events (s : State) (m : Lines) : (s.setLevels m).events = s.events := rfl
@[simp] theorem State.setLevels_calls (s : State) (m : Lines) : (s.setLevels m).calls = s.calls := rfl
@[simp] theorem State.setLevels_returned (s : State) (m : Lines) : (s.setLevels m).returned = s.returned := rfl
@[simp] theorem State.setLevels_host (s : State) (m : Lines) : (s.setLevels m).host = s.host := rfl
@[simp] theorem State.setLevels_faultAt (s : State) (m : Lines) : (s.setLevels m).faultAt = s.faultAt := rfl
@[simp] theorem State.setLevels_enableDelay (s : State) (m : Lines) : (s.setLevels m).enableDelay = s.enableDelay := rfl
@[simp] theorem State.setLevels_tPwMin (s : State) (m : Lines) : (s.setLevels m).tPwMin = s.tPwMin := rfl

/-! ## `State.setCells` -/

@[simp] theorem State.setCells_rsLine (s : State) (m : Memory) : (s.setCells m).rsLine = s.rsLine := rfl
@[simp] theorem State.setCells_eLine (s : State) (m : Memory) : (s.setCells m).eLine = s.eLine := rfl
@[simp] theorem State.setCells_dataLines (s : State) (m : Memory) : (s.setCells m).dataLines = s.dataLines := rfl
@[simp] theorem State.setCells_displayOn (s : State) (m : Memory) : (s.setCells m).displayOn = s.displayOn := rfl
@[simp] theorem State.setCells_cursorOn (s : State) (m : Memory) : (s.setCells m).cursorOn = s.cursorOn := rfl
@[simp] theorem State.setCells_blinkOn (s : State) (m : Memory) : (s.setCells m).blinkOn = s.blinkOn := rfl
@[simp] theorem State.setCells_cursorPosition (s : State) (m : Memory) : (s.setCells m).cursorPosition = s.cursorPosition := rfl
@[simp] theorem State.setCells_lifecycle (s : State) (m : Memory) : (s.setCells m).lifecycle = s.lifecycle := rfl
@[simp] theorem State.setCells_seq (s : State) (m : Memory) : (s.setCells m).seq = s.seq := rfl
@[simp] theorem State.setCells_levels (s : State) (m : Memory) : (s.setCells m).levels = s.levels := rfl
@[simp] theorem State.setCells_cells (s : State) (m : Memory) : (s.setCells m).cells = m := rfl
@[simp] theorem State.setCells_latched (s : State) (m : Memory) : (s.setCells m).latched = s.latched := rfl
@[simp] theorem State.setCells_stray (s : State) (m : Memory) : (s.setCells m).stray = s.stray := rfl
@[simp] theorem State.setCells_events (s : State) (m : Memory) : (s.setCells m).events = s.events := rfl
@[simp] theorem State.setCells_calls (s : State) (m : Memory) : (s.setCells m).calls = s.calls := rfl
@[simp] theorem State.setCells_returned (s : State) (m : Memory) : (s.setCells m).returned = s.returned := rfl
@[simp] theorem State.setCells_host (s : State) (m : Memory) : (s.setCells m).host = s.host := rfl
@[simp] theorem State.setCells_faultAt (s : State) (m : Memory) : (s.setCells m).faultAt = s.faultAt := rfl
@[simp] theorem State.setCells_enableDelay (s : State) (m : Memory) : (s.setCells m).enableDelay = s.enableDelay := rfl
@[simp] theorem State.setCells_tPwMin (s : State) (m : Memory) : (s.setCells m).tPwMin = s.tPwMin := rfl

/-! ## `State.pushLatched` -/

@[simp] theorem State.pushLatched_rsLine (s : State) (w : Latch) : (s.pushLatched w).rsLine = s.rsLine := rfl
@[simp] theorem State.pushLatched_eLine (s : State) (w : Latch) : (s.pushLatched w).eLine = s.eLine := rfl
@[simp] theorem State.pushLatched_dataLines (s : State) (w : Latch) : (s.pushLatched w).dataLines = s.dataLines := rfl
@[simp] theorem State.pushLatched_displayOn (s : State) (w : Latch) : (s.pushLatched w).displayOn = s.displayOn := rfl
@[simp] theorem State.pushLatched_cursorOn (s : State) (w : Latch) : (s.pushLatched w).cursorOn = s.cursorOn := rfl
@[simp] theorem State.pushLatched_blinkOn (s : State) (w : Latch) : (s.pushLatched w).blinkOn = s.blinkOn := rfl
@[simp] theorem State.pushLatched_cursorPosition (s : State) (w : Latch) : (s.pushLatched w).cursorPosition = s.cursorPosition := rfl
@[simp] theorem State.pushLatched_lifecycle (s : State) (w : Latch) : (s.pushLatched w).lifecycle = s.lifecycle := rfl
@[simp] theorem State.pushLatched_seq (s : State) (w : Latch) : (s.pushLatched w).seq = s.seq := rfl
@[simp] theorem State.pushLatched_levels (s : State) (w : Latch) : (s.pushLatched w).levels = s.levels := rfl
@[simp] theorem State.pushLatched_cells (s : State) (w : Latch) : (s.pushLatched w).cells = s.cells := rfl
@[simp] theorem State.pushLatched_latched (s : State) (w : Latch) : (s.pushLatched w).latched = s.latched ++ [w] := rfl
@[simp] theorem State.pushLatched_stray (s : State) (w : Latch) : (s.pushLatched w).stray = s.stray := rfl
@[simp] theorem State.pushLatched_events (s : State) (w : Latch) : (s.pushLatched w).events = s.events := rfl
@[simp] theorem State.pushLatched_calls (s : State) (w : Latch) : (s.pushLatched w).calls = s.calls := rfl
@[simp] theorem State.pushLatched_returned (s : State) (w : Latch) : (s.pushLatched w).returned = s.returned := rfl
@[simp] theorem State.pushLatched_host (s : State) (w : Latch) : (s.pushLatched w).host = s.host := rfl
@[simp] theorem State.pushLatched_faultAt (s : State) (w : Latch) : (s.pushLatched w).faultAt = s.faultAt := rfl
@[simp] theorem State.pushLatched_enableDelay (s : State) (w : Latch) : (s.pushLatched w).enableDelay = s.enableDelay := rfl
@[simp] theorem State.pushLatched_tPwMin (s : State) (w : Latch) : (s.pushLatched w).tPwMin = s.tPwMin := rfl

/-! ## `State.pushStray` -/

@[simp] theorem State.pushStray_rsLine (s : State) (w : Option (Bool × Byte)) : (s.pushStray w).rsLine = s.rsLine := rfl
@[simp] theorem State.pushStray_eLine (s : State) (w : Option (Bool × Byte)) : (s.pushStray w).eLine = s.eLine := rfl
@[simp] theorem State.pushStray_dataLines (s : State) (w : Option (Bool × Byte)) : (s.pushStray w).dataLines = s.dataLines := rfl
@[simp] theorem State.pushStray_displayOn (s : State) (w : Option (Bool × Byte)) : (s.pushStray w).displayOn = s.displayOn := rfl
@[simp] theorem State.pushStray_cursorOn (s : State) (w : Option (Bool × Byte)) : (s.pushStray w).cursorOn = s.cursorOn := rfl
@[simp] theorem State.pushStray_blinkOn (s : State) (w : Option (Bool × Byte)) : (s.pushStray w).blinkOn = s.blinkOn := rfl
@[simp] theorem State.pushStray_cursorPosition (s : State) (w : Option (Bool × Byte)) : (s.pushStray w).cursorPosition = s.cursorPosition := rfl
@[simp] theorem State.pushStray_lifecycle (s : State) (w : Option (Bool × Byte)) : (s.pushStray w).lifecycle = s.lifecycle := rfl
@[simp] theorem State.pushStray_seq (s : State) (w : Option (Bool × Byte)) : (s.pushStray w).seq = s.seq := rfl
@[simp] theorem State.pushStray_levels (s : State) (w : Option (Bool × Byte)) : (s.pushStray w).levels = s.levels := rfl
@[simp] theorem State.pushStray_cells (s : State) (w : Option (Bool × Byte)) : (s.pushStray w).cells = s.cells := rfl
@[simp] theorem State.pushStray_latched (s : State) (w : Option (Bool × Byte)) : (s.pushStray w).latched = s.latched := rfl
@[simp] theorem State.pushStray_stray (s : State) (w : Option (Bool × Byte)) : (s.pushStray w).stray = s.stray ++ [⟨s.latched.length, w⟩] := rfl
@[simp] theorem State.pushStray_events (s : State) (w : Option (Bool × Byte)) : (s.pushStray w).events = s.events := rfl
@[simp] theorem State.pushStray_calls (s : State) (w : Option (Bool × Byte)) : (s.pushStray w).calls = s.calls := rfl
@[simp] theorem State.pushStray_returned (s : State) (w : Option (Bool × Byte)) : (s.pushStray w).returned = s.returned := rfl
@[simp] theorem State.pushStray_host (s : State) (w : Option (Bool × Byte)) : (s.pushStray w).host = s.host := rfl
@[simp] theorem State.pushStray_faultAt (s : State) (w : Option (Bool × Byte)) : (s.pushStray w).faultAt = s.faultAt := rfl
@[simp] theorem State.pushStray_enableDelay (s : State) (w : Option (Bool × Byte)) : (s.pushStray w).enableDelay = s.enableDelay := rfl
@[simp] theorem State.pushStray_tPwMin (s : State) (w : Option (Bool × Byte)) : (s.pushStray w).tPwMin = s.tPwMin := rfl

/-! ## `State.recordCall` -/

@[simp] theorem State.recordCall_rsLine (s : State) (c : BackendCall) : (s.recordCall c).rsLine = s.rsLine := rfl
@[simp] theorem State.recordCall_eLine (s : State) (c : BackendCall) : (s.recordCall c).eLine = s.eLine := rfl
@[simp] theorem State.recordCall_dataLines (s : State) (c : BackendCall) : (s.recordCall c).dataLines = s.dataLines := rfl
@[simp] theorem State.recordCall_displayOn (s : State) (c : BackendCall) : (s.recordCall c).displayOn = s.displayOn := rfl
@[simp] theorem State.recordCall_cursorOn (s : State) (c : BackendCall) : (s.recordCall c).cursorOn = s.cursorOn := rfl
@[simp] theorem State.recordCall_blinkOn (s : State) (c : BackendCall) : (s.recordCall c).blinkOn = s.blinkOn := rfl
@[simp] theorem State.recordCall_cursorPosition (s : State) (c : BackendCall) : (s.recordCall c).cursorPosition = s.cursorPosition := rfl
@[simp] theorem State.recordCall_lifecycle (s : State) (c : BackendCall) : (s.recordCall c).lifecycle = s.lifecycle := rfl
@[simp] theorem State.recordCall_seq (s : State) (c : BackendCall) : (s.recordCall c).seq = s.seq := rfl
@[simp] theorem State.recordCall_levels (s : State) (c : BackendCall) : (s.recordCall c).levels = s.levels := rfl
@[simp] theorem State.recordCall_cells (s : State) (c : BackendCall) : (s.recordCall c).cells = s.cells := rfl
@[simp] theorem State.recordCall_latched (s : State) (c : BackendCall) : (s.recordCall c).latched = s.latched := rfl
@[simp] theorem State.recordCall_stray (s : State) (c : BackendCall) : (s.recordCall c).stray = s.stray := rfl
@[simp] theorem State.recordCall_events (s : State) (c : BackendCall) : (s.recordCall c).events = s.events ++ [c] := rfl
@[simp] theorem State.recordCall_calls (s : State) (c : BackendCall) : (s.recordCall c).calls = s.calls + 1 := rfl
@[simp] theorem State.recordCall_returned (s : State) (c : BackendCall) : (s.recordCall c).returned = s.returned := rfl
@[simp] theorem State.recordCall_host (s : State) (c : BackendCall) : (s.recordCall c).host = s.host := rfl
@[simp] theorem State.recordCall_faultAt (s : State) (c : BackendCall) : (s.recordCall c).faultAt = s.faultAt := rfl
@[simp] theorem State.recordCall_enableDelay (s : State) (c : BackendCall) : (s.recordCall c).enableDelay = s.enableDelay := rfl
@[simp] theorem State.recordCall_tPwMin (s : State) (c : BackendCall) : (s.recordCall c).tPwMin = s.tPwMin := rfl

/-! ## `State.setReturned` -/

@[simp] theorem State.setReturned_rsLine (s : State) (e : Status) : (s.setReturned e).rsLine = s.rsLine := rfl
@[simp] theorem State.setReturned_eLine (s : State) (e : Status) : (s.setReturned e).eLine = s.eLine := rfl
@[simp] theorem State.setReturned_dataLines (s : State) (e : Status) : (s.setReturned e).dataLines = s.dataLines := rfl
@[simp] theorem State.setReturned_displayOn (s : State) (e : Status) : (s.setReturned e).displayOn = s.displayOn := rfl
@[simp] theorem State.setReturned_cursorOn (s : State) (e : Status) : (s.setReturned e).cursorOn = s.cursorOn := rfl
@[simp] theorem State.setReturned_blinkOn (s : State) (e : Status) : (s.setReturned e).blinkOn = s.blinkOn := rfl
@[simp] theorem State.setReturned_cursorPosition (s : State) (e : Status) : (s.setReturned e).cursorPosition = s.cursorPosition := rfl
@[simp] theorem State.setReturned_lifecycle (s : State) (e : Status) : (s.setReturned e).lifecycle = s.lifecycle := rfl
@[simp] theorem State.setReturned_seq (s : State) (e : Status) : (s.setReturned e).seq = s.seq := rfl
@[simp] theorem State.setReturned_levels (s : State) (e : Status) : (s.setReturned e).levels = s.levels := rfl
@[simp] theorem State.setReturned_cells (s : State) (e : Status) : (s.setReturned e).cells = s.cells := rfl
@[simp] theorem State.setReturned_latched (s : State) (e : Status) : (s.setReturned e).latched = s.latched := rfl
@[simp] theorem State.setReturned_stray (s : State) (e : Status) : (s.setReturned e).stray = s.stray := rfl
@[simp] theorem State.setReturned_events (s : State) (e : Status) : (s.setReturned e).events = s.events := rfl
@[simp] theorem State.setReturned_calls (s : State) (e : Status) : (s.setReturned e).calls = s.calls := rfl
@[simp] theorem State.setReturned_returned (s : State) (e : Status) : (s.setReturned e).returned = some e := rfl
@[simp] theorem State.setReturned_host (s : State) (e : Status) : (s.setReturned e).host = s.host := rfl
@[simp] theorem State.setReturned_faultAt (s : State) (e : Status) : (s.setReturned e).faultAt = s.faultAt := rfl
@[simp] theorem State.setReturned_enableDelay (s : State) (e : Status) : (s.setReturned e).enableDelay = s.enableDelay := rfl
@[simp] theorem State.setReturned_tPwMin (s : State) (e : Status) : (s.setReturned e).tPwMin = s.tPwMin := rfl

/-! ## `State.setHost` -/

@[simp] theorem State.setHost_rsLine (s : State) (h : List HostCall) : (s.setHost h).rsLine = s.rsLine := rfl
@[simp] theorem State.setHost_eLine (s : State) (h : List HostCall) : (s.setHost h).eLine = s.eLine := rfl
@[simp] theorem State.setHost_dataLines (s : State) (h : List HostCall) : (s.setHost h).dataLines = s.dataLines := rfl
@[simp] theorem State.setHost_displayOn (s : State) (h : List HostCall) : (s.setHost h).displayOn = s.displayOn := rfl
@[simp] theorem State.setHost_cursorOn (s : State) (h : List HostCall) : (s.setHost h).cursorOn = s.cursorOn := rfl
@[simp] theorem State.setHost_blinkOn (s : State) (h : List HostCall) : (s.setHost h).blinkOn = s.blinkOn := rfl
@[simp] theorem State.setHost_cursorPosition (s : State) (h : List HostCall) : (s.setHost h).cursorPosition = s.cursorPosition := rfl
@[simp] theorem State.setHost_lifecycle (s : State) (h : List HostCall) : (s.setHost h).lifecycle = s.lifecycle := rfl
@[simp] theorem State.setHost_seq (s : State) (h : List HostCall) : (s.setHost h).seq = s.seq := rfl
@[simp] theorem State.setHost_levels (s : State) (h : List HostCall) : (s.setHost h).levels = s.levels := rfl
@[simp] theorem State.setHost_cells (s : State) (h : List HostCall) : (s.setHost h).cells = s.cells := rfl
@[simp] theorem State.setHost_latched (s : State) (h : List HostCall) : (s.setHost h).latched = s.latched := rfl
@[simp] theorem State.setHost_stray (s : State) (h : List HostCall) : (s.setHost h).stray = s.stray := rfl
@[simp] theorem State.setHost_events (s : State) (h : List HostCall) : (s.setHost h).events = s.events := rfl
@[simp] theorem State.setHost_calls (s : State) (h : List HostCall) : (s.setHost h).calls = s.calls := rfl
@[simp] theorem State.setHost_returned (s : State) (h : List HostCall) : (s.setHost h).returned = s.returned := rfl
@[simp] theorem State.setHost_host (s : State) (h : List HostCall) : (s.setHost h).host = h := rfl
@[simp] theorem State.setHost_faultAt (s : State) (h : List HostCall) : (s.setHost h).faultAt = s.faultAt := rfl
@[simp] theorem State.setHost_enableDelay (s : State) (h : List HostCall) : (s.setHost h).enableDelay = s.enableDelay := rfl
@[simp] theorem State.setHost_tPwMin (s : State) (h : List HostCall) : (s.setHost h).tPwMin = s.tPwMin := rfl

/-! ## `State.endWith` -/

@[simp] theorem State.endWith_rsLine (s : State) (e : Status) : (s.endWith e).rsLine = s.rsLine := rfl
@[simp] theorem State.endWith_eLine (s : State) (e : Status) : (s.endWith e).eLine = s.eLine := rfl
@[simp] theorem State.endWith_dataLines (s : State) (e : Status) : (s.endWith e).dataLines = s.dataLines := rfl
@[simp] theorem State.endWith_displayOn (s : State) (e : Status) : (s.endWith e).displayOn = s.displayOn := rfl
@[simp] theorem State.endWith_cursorOn (s : State) (e : Status) : (s.endWith e).cursorOn = s.cursorOn := rfl
@[simp] theorem State.endWith_blinkOn (s : State) (e : Status) : (s.endWith e).blinkOn = s.blinkOn := rfl
@[simp] theorem State.endWith_cursorPosition (s : State) (e : Status) : (s.endWith e).cursorPosition = s.cursorPosition := rfl
@[simp] theorem State.endWith_lifecycle (s : State) (e : Status) : (s.endWith e).lifecycle = s.lifecycle := rfl
@[simp] theorem State.endWith_seq (s : State) (e : Status) : (s.endWith e).seq = .idle := rfl
@[simp] theorem State.endWith_levels (s : State) (e : Status) : (s.endWith e).levels = s.levels := rfl
@[simp] theorem State.endWith_cells (s : State) (e : Status) : (s.endWith e).cells = s.cells := rfl
@[simp] theorem State.endWith_latched (s : State) (e : Status) : (s.endWith e).latched = s.latched := rfl
@[simp] theorem State.endWith_stray (s : State) (e : Status) : (s.endWith e).stray = s.stray := rfl
@[simp] theorem State.endWith_events (s : State) (e : Status) : (s.endWith e).events = s.events := rfl
@[simp] theorem State.endWith_calls (s : State) (e : Status) : (s.endWith e).calls = s.calls := rfl
@[simp] theorem State.endWith_returned (s : State) (e : Status) : (s.endWith e).returned = some e := rfl
@[simp] theorem State.endWith_host (s : State) (e : Status) : (s.endWith e).host = s.host := rfl
@[simp] theorem State.endWith_faultAt (s : State) (e : Status) : (s.endWith e).faultAt = s.faultAt := rfl
@[simp] theorem State.endWith_enableDelay (s : State) (e : Status) : (s.endWith e).enableDelay = s.enableDelay := rfl
@[simp] theorem State.endWith_tPwMin (s : State) (e : Status) : (s.endWith e).tPwMin = s.tPwMin := rfl

end Sys2Proof.Machine
end

