-- ==== Sys2Proof/Laws/Map.lean ====
section
/-! SUPPORT. The laws of the finite maps: read after write, and that every operation keeps the canonical form. -/

namespace Sys2Proof.Machine

variable {β : Type}

@[simp] theorem mapGet_mapPut_self (k : Nat) (v : β) (m : List (Nat × β)) : mapGet (mapPut k v m) k = some v := by
  induction m with
  | nil => simp [mapPut, mapGet]
  | cons p m ih =>
    obtain ⟨a, x⟩ := p
    unfold mapPut
    split
    · simp [mapGet]
    · split
      · simp [mapGet]
      · rename_i h1 h2
        simp [mapGet, ih, Ne.symm h2]

theorem mapGet_mapPut_ne {k j : Nat} (h : j ≠ k) (v : β) (m : List (Nat × β)) :
    mapGet (mapPut k v m) j = mapGet m j := by
  induction m with
  | nil => simp [mapPut, mapGet, Ne.symm h]
  | cons p m ih =>
    obtain ⟨a, x⟩ := p
    unfold mapPut
    split
    · simp [mapGet, Ne.symm h]
    · split
      · rename_i h2
        subst h2
        simp [mapGet, Ne.symm h]
      · simp [mapGet, ih]

theorem mapGet_mapDel_ne {k j : Nat} (h : j ≠ k) (m : List (Nat × β)) :
    mapGet (mapDel k m) j = mapGet m j := by
  induction m with
  | nil => rfl
  | cons p m ih =>
    obtain ⟨a, x⟩ := p
    unfold mapDel
    split
    · rename_i h2
      subst h2
      simp [mapGet, Ne.symm h]
    · simp [mapGet, ih]

/-- A key below every key of the map is not in it. -/
theorem mapGet_of_lt {k : Nat} {m : List (Nat × β)} (h : ∀ p ∈ m, k < p.1) : mapGet m k = none := by
  induction m with
  | nil => rfl
  | cons p m ih =>
    obtain ⟨a, x⟩ := p
    have ha : k < a := h (a, x) (by simp)
    simp only [mapGet]
    rw [if_neg (by omega)]
    exact ih fun q hq => h q (by simp [hq])

theorem mapGet_mapDel_self {k : Nat} {m : List (Nat × β)} (h : KeysRise m) : mapGet (mapDel k m) k = none := by
  induction m with
  | nil => rfl
  | cons p m ih =>
    obtain ⟨a, x⟩ := p
    rw [KeysRise, List.pairwise_cons] at h
    unfold mapDel
    split
    · rename_i h2
      subst h2
      exact mapGet_of_lt fun q hq => h.1 q hq
    · rename_i h2
      simp only [mapGet]
      rw [if_neg (Ne.symm h2)]
      exact ih h.2

theorem mem_mapPut {k : Nat} {v : β} {m : List (Nat × β)} {q : Nat × β} (h : q ∈ mapPut k v m) :
    q = (k, v) ∨ q ∈ m := by
  induction m with
  | nil => simpa [mapPut] using h
  | cons p m ih =>
    obtain ⟨a, x⟩ := p
    unfold mapPut at h
    split at h
    · simpa using h
    · split at h
      · simp only [List.mem_cons] at h ⊢
        tauto
      · simp only [List.mem_cons] at h ⊢
        rcases h with h | h
        · tauto
        · rcases ih h with h | h <;> tauto

theorem mem_mapDel {k : Nat} {m : List (Nat × β)} {q : Nat × β} (h : q ∈ mapDel k m) : q ∈ m := by
  induction m with
  | nil => simp [mapDel] at h
  | cons p m ih =>
    obtain ⟨a, x⟩ := p
    unfold mapDel at h
    split at h
    · simp [h]
    · simp only [List.mem_cons] at h ⊢
      rcases h with h | h
      · tauto
      · exact Or.inr (ih h)

theorem keysRise_mapPut {k : Nat} {v : β} {m : List (Nat × β)} (h : KeysRise m) : KeysRise (mapPut k v m) := by
  induction m with
  | nil => simp [mapPut, KeysRise]
  | cons p m ih =>
    obtain ⟨a, x⟩ := p
    have hc := h
    rw [KeysRise, List.pairwise_cons] at h
    unfold mapPut
    split
    · rename_i hlt
      rw [KeysRise, List.pairwise_cons]
      refine ⟨fun q hq => ?_, hc⟩
      rcases List.mem_cons.1 hq with rfl | hq
      · exact hlt
      · have := h.1 q hq
        simp only at this ⊢
        omega
    · split
      · rename_i h2
        subst h2
        rw [KeysRise, List.pairwise_cons]
        exact ⟨fun q hq => h.1 q hq, h.2⟩
      · rename_i h1 h2
        rw [KeysRise, List.pairwise_cons]
        refine ⟨fun q hq => ?_, ih h.2⟩
        rcases mem_mapPut hq with rfl | hq
        · simp only
          omega
        · exact h.1 q hq

theorem keysRise_mapDel {k : Nat} {m : List (Nat × β)} (h : KeysRise m) : KeysRise (mapDel k m) := by
  induction m with
  | nil => exact h
  | cons p m ih =>
    obtain ⟨a, x⟩ := p
    rw [KeysRise, List.pairwise_cons] at h
    unfold mapDel
    split
    · exact h.2
    · rw [KeysRise, List.pairwise_cons]
      exact ⟨fun q hq => h.1 q (mem_mapDel hq), ih h.2⟩

theorem linesWf_linesPut {l : LineId} {v : Level} {m : Lines} (h : Lines.wf m) : Lines.wf (linesPut l v m) := by
  unfold linesPut
  split
  · exact ⟨keysRise_mapDel h.1, fun p hp => h.2 p (mem_mapDel hp)⟩
  · rename_i hv
    refine ⟨keysRise_mapPut h.1, fun p hp => ?_⟩
    rcases mem_mapPut hp with rfl | hp
    · exact hv
    · exact h.2 p hp

theorem linesWf_nil : Lines.wf [] := ⟨List.Pairwise.nil, by simp⟩

theorem memoryWf_nil : Memory.wf [] := ⟨List.Pairwise.nil, by simp⟩

theorem memoryWf_memoryWrite {p : Nat} {v : Byte} {m : Memory} (hp : p < cellCount) (h : Memory.wf m) :
    Memory.wf (memoryWrite p v m) := by
  refine ⟨keysRise_mapPut h.1, fun c hc => ?_⟩
  rcases mem_mapPut hc with rfl | hc
  · exact hp
  · exact h.2 c hc

/-- Read after write, same line; an Unclaimed level is a line that is not listed. -/
theorem levelOf_putLevel_self (s : State) (l : LineId) (v : Level) (h : KeysRise s.levels ∨ v ≠ .unclaimed) :
    (s.putLevel l v).levelOf l = v := by
  simp only [State.putLevel, State.levelOf, State.setLevels_levels, linesPut]
  by_cases hv : v = .unclaimed
  · have hk : KeysRise s.levels := by
      rcases h with h | h
      · exact h
      · exact absurd hv h
    rw [if_pos hv, mapGet_mapDel_self hk, hv]
    rfl
  · rw [if_neg hv, mapGet_mapPut_self]
    rfl

/-- A write to a line leaves every other line alone. -/
theorem levelOf_putLevel_ne (s : State) {l j : LineId} (h : j ≠ l) (v : Level) :
    (s.putLevel l v).levelOf j = s.levelOf j := by
  simp only [State.putLevel, State.levelOf, State.setLevels_levels, linesPut]
  split
  · rw [mapGet_mapDel_ne h]
  · rw [mapGet_mapPut_ne h]

@[simp] theorem levelOfBool_ne_unclaimed (b : Bool) : levelOfBool b ≠ .unclaimed := by
  cases b <;> simp [levelOfBool]

@[simp] theorem levelOfBool_true : levelOfBool true = .high := rfl
@[simp] theorem levelOfBool_false : levelOfBool false = .low := rfl

/-- Read after write of a driven level, any line. -/
theorem levelOf_putLevel_bool (s : State) (l j : LineId) (b : Bool) :
    (s.putLevel l (levelOfBool b)).levelOf j = if j = l then levelOfBool b else s.levelOf j := by
  split
  · rename_i h
    subst h
    exact levelOf_putLevel_self s j _ (Or.inr (by simp))
  · exact levelOf_putLevel_ne s ‹_› _

theorem levelOf_putLevel_undriven (s : State) (l j : LineId) :
    (s.putLevel l .undriven).levelOf j = if j = l then .undriven else s.levelOf j := by
  split
  · rename_i h
    subst h
    exact levelOf_putLevel_self s j _ (Or.inr (by simp))
  · exact levelOf_putLevel_ne s ‹_› _

end Sys2Proof.Machine
end

