-- ==== Sys2Proof/Laws/Emit.lean ====
section
/-! SUPPORT. The laws of one backend call and of a list of calls: what a run that goes on has done, what a run that
was cut short has done, and what neither touches. -/

namespace Sys2Proof.Machine

/-! ## Everything but the lines, the cells and what the controller saw -/

/-- A state without the parts a backend call acts on. -/
def State.rest (s : State) : State := { s with levels := [], latched := [], stray := [], cells := [] }

/-- The calls made and counted. -/
def State.recordCalls (s : State) (cs : List BackendCall) : State :=
  { s with events := s.events ++ cs, calls := s.calls + cs.length }

/-- Two states that agree on their rest agree on each of its fields. -/
theorem rest_fields {s t : State} (h : t.rest = s.rest) :
    SameLines s t ∧ SameFlags s t ∧ t.cursorPosition = s.cursorPosition ∧ t.lifecycle = s.lifecycle ∧
      t.seq = s.seq ∧ t.events = s.events ∧ t.calls = s.calls ∧ t.returned = s.returned ∧ SameInputs s t := by
  simp only [State.rest, State.mk.injEq] at h
  obtain ⟨h1, h2, h3, h4, h5, h6, h7, h8, h9, -, -, -, -, h10, h11, h12, h13, h14, h15, h16⟩ := h
  exact ⟨⟨h1, h2, h3⟩, ⟨h4, h5, h6⟩, h7, h8, h9, h10, h11, h12, h13, h14, h15, h16⟩

@[simp] theorem putLevel_rest (s : State) (l : LineId) (v : Level) : (s.putLevel l v).rest = s.rest := rfl
@[simp] theorem setLevels_rest (s : State) (m : Lines) : (s.setLevels m).rest = s.rest := rfl
@[simp] theorem indeterminate_rest (s : State) : s.indeterminate.rest = s.rest := rfl

@[simp] theorem observeFall_rest (s : State) : s.observeFall.rest = s.rest := by
  unfold State.observeFall
  split <;> rfl

@[simp] theorem applyCall_rest (c : BackendCall) (s : State) : (applyCall c s).rest = s.rest := by
  cases c with
  | cfg l => rfl
  | write l b =>
    simp only [applyCall]
    split <;> simp
  | sleep d => rfl
  | rel =>
    simp only [applyCall]
    split <;> simp

@[simp] theorem faultCall_rest (c : BackendCall) (s : State) : (faultCall c s).rest = s.rest := by
  cases c with
  | cfg l => rfl
  | write l b => rfl
  | sleep d => rfl
  | rel => exact applyCall_rest .rel s

/-! ## A call, and a list of calls -/

/-- The state after calls that were all answered *done*. -/
def applyAll : List BackendCall → State → State
  | [], s => s
  | c :: cs, s => applyAll cs (applyCall c (s.recordCall c))

theorem applyAll_append (as bs : List BackendCall) (s : State) :
    applyAll (as ++ bs) s = applyAll bs (applyAll as s) := by
  induction as generalizing s with
  | nil => rfl
  | cons c cs ih => exact ih _

theorem recordCalls_cons (c : BackendCall) (cs : List BackendCall) (s : State) :
    (s.recordCall c).recordCalls cs = s.recordCalls (c :: cs) := by
  simp [State.recordCalls, State.recordCall, Nat.add_comm, Nat.add_left_comm]

theorem rest_recordCalls {s t : State} (h : t.rest = s.rest) (cs : List BackendCall) :
    (t.recordCalls cs).rest = (s.recordCalls cs).rest := by
  obtain ⟨⟨h1, h2, h3⟩, ⟨h4, h5, h6⟩, h7, h8, h9, h10, h11, h12, h13, h14, h15, h16⟩ := rest_fields h
  simp [State.rest, State.recordCalls, *]

theorem rest_setLifecycle {s t : State} (h : t.rest = s.rest) (l : Lifecycle) :
    (t.setLifecycle l).rest = (s.setLifecycle l).rest := by
  obtain ⟨⟨h1, h2, h3⟩, ⟨h4, h5, h6⟩, h7, h8, h9, h10, h11, h12, h13, h14, h15, h16⟩ := rest_fields h
  simp [State.rest, State.setLifecycle, *]

/-- Calls touch only the traces, the count, the lines and the cells. -/
theorem applyAll_rest (cs : List BackendCall) (s : State) : (applyAll cs s).rest = (s.recordCalls cs).rest := by
  induction cs generalizing s with
  | nil => simp [applyAll, State.recordCalls]
  | cons c cs ih =>
    rw [applyAll, ih, ← recordCalls_cons]
    exact rest_recordCalls (applyCall_rest c _) cs

theorem applyAll_fields (cs : List BackendCall) (s : State) :
    SameLines s (applyAll cs s) ∧ SameFlags s (applyAll cs s) ∧
      (applyAll cs s).cursorPosition = s.cursorPosition ∧ (applyAll cs s).lifecycle = s.lifecycle ∧
      (applyAll cs s).seq = s.seq ∧ (applyAll cs s).events = s.events ++ cs ∧
      (applyAll cs s).calls = s.calls + cs.length ∧ (applyAll cs s).returned = s.returned ∧
      SameInputs s (applyAll cs s) := rest_fields (applyAll_rest cs s)

/-- A call is answered *done* exactly when its position is no fault's. -/
theorem emit_eq (c : BackendCall) (s : State) :
    emit c s =
      if s.calls + 1 ∈ s.faultAt then
        .raised .hardwareFault ((faultCall c (s.recordCall c)).setLifecycle .faulted)
      else .going (applyCall c (s.recordCall c)) := rfl

theorem quietFor_add {s : State} {a b : Nat} (h : s.quietFor (a + b)) : s.quietFor a := by
  intro n hn
  rcases h n hn with h | h
  · exact Or.inl h
  · exact Or.inr (by omega)

theorem quietFor_later {s t : State} {a b : Nat} (h : s.quietFor (a + b)) (hc : t.calls = s.calls + a)
    (hf : t.faultAt = s.faultAt) : t.quietFor b := by
  intro n hn
  rw [hf] at hn
  rcases h n hn with h | h
  · exact Or.inl (by omega)
  · exact Or.inr (by omega)

/-- If the first `a` calls and then `b` more are quiet, all of them are. -/
theorem quietFor_join {s t : State} {a b : Nat} (h : s.quietFor a) (h' : t.quietFor b)
    (hc : t.calls = s.calls + a) (hf : t.faultAt = s.faultAt) : s.quietFor (a + b) := by
  intro n hn
  rcases h n hn with h | h
  · exact Or.inl h
  · rcases h' n (hf ▸ hn) with h' | h'
    · omega
    · exact Or.inr (by omega)

/-- A list of calls runs to its end exactly when none of them is answered *fault*, and what it then leaves. -/
theorem emitAll_going_iff (cs : List BackendCall) (s t : State) :
    emitAll cs s = .going t ↔ s.quietFor cs.length ∧ t = applyAll cs s := by
  induction cs generalizing s with
  | nil =>
    simp only [emitAll, applyAll, Run.going.injEq, List.length_nil]
    constructor
    · intro h
      exact ⟨fun n _ => by omega, h.symm⟩
    · intro h
      exact h.2.symm
  | cons c cs ih =>
    have hr : (applyCall c (s.recordCall c)).calls = s.calls + 1 ∧
        (applyCall c (s.recordCall c)).faultAt = s.faultAt := by
      have h := applyAll_fields [c] s
      exact ⟨h.2.2.2.2.2.2.1, h.2.2.2.2.2.2.2.2.2.1⟩
    rw [emitAll, emit_eq]
    by_cases hf : s.calls + 1 ∈ s.faultAt
    · rw [if_pos hf]
      simp only [Run.bind, reduceCtorEq, false_iff, not_and]
      intro hq
      rcases hq _ hf with h | h
      · omega
      · simp only [List.length_cons] at h
        omega
    · rw [if_neg hf]
      simp only [Run.bind, applyAll]
      rw [ih]
      refine and_congr_left fun _ => ⟨fun h => ?_, fun h => ?_⟩
      · rw [List.length_cons, Nat.add_comm]
        refine quietFor_join (a := 1) ?_ h hr.1 hr.2
        intro n hn
        by_cases hn' : n ≤ s.calls
        · exact Or.inl hn'
        · refine Or.inr ?_
          have : n ≠ s.calls + 1 := fun h => hf (h ▸ hn)
          omega
      · rw [List.length_cons, Nat.add_comm] at h
        exact quietFor_later h hr.1 hr.2

/-- The state in which a run is cut short at call `c` after the calls `pre`: `pre` have taken effect, `c` has its
*fault* effect, and the handle is FAULTED (R186). -/
def cutAt (pre : List BackendCall) (c : BackendCall) (s : State) : State :=
  (faultCall c ((applyAll pre s).recordCall c)).setLifecycle .faulted

/-- A run cut short has made the calls up to and including the one that answered *fault*, and nothing else. -/
theorem cutAt_rest (pre : List BackendCall) (c : BackendCall) (s : State) :
    (cutAt pre c s).rest = ((s.recordCalls (pre ++ [c])).setLifecycle .faulted).rest := by
  refine rest_setLifecycle ((faultCall_rest c _).trans ?_) .faulted
  have h := rest_recordCalls (applyAll_rest pre s) [c]
  simpa [State.recordCalls, State.recordCall, Nat.add_assoc] using h

theorem cutAt_fields (pre : List BackendCall) (c : BackendCall) (s : State) :
    SameLines s (cutAt pre c s) ∧ SameFlags s (cutAt pre c s) ∧ (cutAt pre c s).cursorPosition = s.cursorPosition ∧
      (cutAt pre c s).lifecycle = .faulted ∧ (cutAt pre c s).seq = s.seq ∧
      (cutAt pre c s).events = s.events ++ (pre ++ [c]) ∧ (cutAt pre c s).calls = s.calls + (pre.length + 1) ∧
      (cutAt pre c s).returned = s.returned ∧ SameInputs s (cutAt pre c s) := by
  have h := rest_fields (cutAt_rest pre c s)
  simpa [State.recordCalls, State.setLifecycle, SameLines, SameFlags, SameInputs] using h

/-- A call that answers *fault* latches nothing. -/
theorem faultCall_latched (c : BackendCall) (s : State) : (faultCall c s).latched = s.latched := by
  cases c with
  | cfg l => rfl
  | write l b => rfl
  | sleep d => rfl
  | rel =>
    simp only [faultCall, applyCall]
    split <;> rfl

/-- But for the release, it shows the controller nothing at all. -/
theorem faultCall_seen {c : BackendCall} (hc : c ≠ .rel) (s : State) :
    (faultCall c s).latched = s.latched ∧ (faultCall c s).stray = s.stray ∧ (faultCall c s).cells = s.cells := by
  cases c with
  | cfg l => exact ⟨rfl, rfl, rfl⟩
  | write l b => exact ⟨rfl, rfl, rfl⟩
  | sleep d => exact ⟨rfl, rfl, rfl⟩
  | rel => exact absurd rfl hc

/-- `t` is where a run of the calls `cs` is cut short by its first *fault* answer (R186). -/
def CutShort (s : State) (cs : List BackendCall) (t : State) : Prop :=
  ∃ pre c post, cs = pre ++ c :: post ∧ s.quietFor pre.length ∧ s.calls + pre.length + 1 ∈ s.faultAt ∧
    t = cutAt pre c s

theorem emitAll_raised {cs : List BackendCall} {s t : State} {e : Status} (h : emitAll cs s = .raised e t) :
    e = .hardwareFault ∧ CutShort s cs t := by
  induction cs generalizing s with
  | nil => simp [emitAll] at h
  | cons c cs ih =>
    rw [emitAll, emit_eq] at h
    by_cases hf : s.calls + 1 ∈ s.faultAt
    · rw [if_pos hf] at h
      simp only [Run.bind, Run.raised.injEq] at h
      obtain ⟨rfl, rfl⟩ := h
      exact ⟨rfl, [], c, cs, rfl, fun n _ => by simp only [List.length_nil]; omega, hf, rfl⟩
    · rw [if_neg hf] at h
      simp only [Run.bind] at h
      obtain ⟨rfl, pre, d, post, rfl, hq, hm, rfl⟩ := ih h
      obtain ⟨-, -, -, -, -, -, h11, -, -, h14, -⟩ := applyAll_fields [c] s
      simp only [applyAll] at h11 h14
      refine ⟨rfl, c :: pre, d, post, rfl, ?_, ?_, rfl⟩
      · rw [List.length_cons, Nat.add_comm]
        refine quietFor_join (a := 1) ?_ hq h11 h14
        intro n hn
        by_cases hn' : n ≤ s.calls
        · exact Or.inl hn'
        · refine Or.inr ?_
          have : n ≠ s.calls + 1 := fun h => hf (h ▸ hn)
          omega
      · rw [h14, h11] at hm
        simp only [List.length_cons, List.length_nil] at hm ⊢
        convert hm using 1
        omega

/-- A run that is not quiet is cut short. -/
theorem emitAll_not_quiet {cs : List BackendCall} {s : State} (h : ¬ s.quietFor cs.length) :
    ∃ t, emitAll cs s = .raised .hardwareFault t ∧ CutShort s cs t := by
  rcases hr : emitAll cs s with t | ⟨e, t⟩
  · exact absurd ((emitAll_going_iff cs s t).1 hr).1 h
  · obtain ⟨rfl, hc⟩ := emitAll_raised hr
    exact ⟨t, rfl, hc⟩

/-! ## A property that holds however a run ends -/

/-- A property of the state a run is in, whether it goes on or has been cut short. -/
def Run.all (P : State → Prop) : Run → Prop
  | .going s => P s
  | .raised _ s => P s

theorem Run.all_bind {P : State → Prop} {r : Run} {k : State → Run} (hr : r.all P)
    (hk : ∀ t, P t → (k t).all P) : (r.bind k).all P := by
  cases r with
  | going s => exact hk s hr
  | raised e s => exact hr

/-- A property that every elementary act inside an operation keeps. `Rel()` is not one of them: it is `DESTRUCT`'s
alone. -/
structure KeptByCalls (P : State → Prop) : Prop where
  record : ∀ s c, P s → P (s.recordCall c)
  apply : ∀ s c, c ≠ .rel → P s → P (applyCall c s)
  fault : ∀ s c, c ≠ .rel → P s → P (faultCall c s)
  faulted : ∀ s, P s → P (s.setLifecycle .faulted)
  indeterminate : ∀ s, P s → P s.indeterminate

theorem raise_all {P : State → Prop} (hP : KeptByCalls P) (e : Status) {s : State} (h : P s) :
    (raise e s).all P := by
  cases e <;> first | exact h | exact hP.faulted s h

theorem emit_all {P : State → Prop} (hP : KeptByCalls P) {c : BackendCall} (hc : c ≠ .rel) {s : State} (h : P s) :
    (emit c s).all P := by
  rw [emit_eq]
  split
  · exact hP.faulted _ (hP.fault _ _ hc (hP.record _ _ h))
  · exact hP.apply _ _ hc (hP.record _ _ h)

theorem emitAll_all {P : State → Prop} (hP : KeptByCalls P) {cs : List BackendCall} (hc : .rel ∉ cs) {s : State}
    (h : P s) : (emitAll cs s).all P := by
  induction cs generalizing s with
  | nil => exact h
  | cons c cs ih =>
    rw [List.mem_cons, not_or] at hc
    exact Run.all_bind (emit_all hP (Ne.symm hc.1) h) fun t ht => ih hc.2 ht

/-- The rest of the state, less what an operation itself writes: a property that only looks at the line
configuration and the inputs is kept. -/
theorem keptByCalls_of_rest {P : State → Prop}
    (hP : ∀ s t : State, SameLines s t → SameInputs s t → SameFlags s t → P s → P t) : KeptByCalls P where
  record s c h := hP s _ ⟨rfl, rfl, rfl⟩ ⟨rfl, rfl, rfl, rfl⟩ ⟨rfl, rfl, rfl⟩ h
  apply s c _ h := by
    have hr := rest_fields (applyCall_rest c s)
    exact hP s _ hr.1 hr.2.2.2.2.2.2.2.2 hr.2.1 h
  fault s c _ h := by
    have hr := rest_fields (faultCall_rest c s)
    exact hP s _ hr.1 hr.2.2.2.2.2.2.2.2 hr.2.1 h
  faulted s h := hP s _ ⟨rfl, rfl, rfl⟩ ⟨rfl, rfl, rfl, rfl⟩ ⟨rfl, rfl, rfl⟩ h
  indeterminate s h := hP s _ ⟨rfl, rfl, rfl⟩ ⟨rfl, rfl, rfl, rfl⟩ ⟨rfl, rfl, rfl⟩ h

end Sys2Proof.Machine
end

