-- ==== Sys2Proof/Laws/Transmit.lean ====
section
/-! SUPPORT. The laws of the transmitter: when a transmission runs to its end, the levels it leaves, and the word
the controller latches. -/

namespace Sys2Proof.Machine

/-! ## Levels -/

@[simp] theorem levelOf_recordCall (s : State) (c : BackendCall) (l : LineId) :
    (s.recordCall c).levelOf l = s.levelOf l := rfl

@[simp] theorem levelOf_observeFall (s : State) (l : LineId) : s.observeFall.levelOf l = s.levelOf l := by
  unfold State.observeFall
  split <;> rfl

@[simp] theorem levelOf_indeterminate (s : State) (l : LineId) : s.indeterminate.levelOf l = s.levelOf l := rfl

@[simp] theorem levelOf_applyCall_write (s : State) (l j : LineId) (b : Bool) :
    (applyCall (.write l b) s).levelOf j = if j = l then levelOfBool b else s.levelOf j := by
  simp only [applyCall]
  split <;> simp [levelOf_putLevel_bool]

@[simp] theorem levelOf_applyCall_cfg (s : State) (l j : LineId) :
    (applyCall (.cfg l) s).levelOf j = if j = l then .undriven else s.levelOf j :=
  levelOf_putLevel_undriven s l j

/-- A call that answers *fault* leaves its own line claimed if it was (R164). -/
theorem faultedLevelOf_claimed {s : State} {l : LineId} (h : s.levelOf l ≠ .unclaimed) :
    s.faultedLevelOf l ≠ .unclaimed := by
  unfold State.faultedLevelOf
  split <;> assumption

theorem putLevel_claimed {s : State} {l j : LineId} {v : Level} (h : s.levelOf l ≠ .unclaimed)
    (hv : l = j → v ≠ .unclaimed) : (s.putLevel j v).levelOf l ≠ .unclaimed := by
  by_cases hj : l = j
  · subst hj
    rw [levelOf_putLevel_self s l v (.inr (hv rfl))]
    exact hv rfl
  · rwa [levelOf_putLevel_ne s hj]

/-- Only `Rel()` unclaims a line. -/
theorem applyCall_claimed {s : State} {l : LineId} (h : s.levelOf l ≠ .unclaimed) {c : BackendCall} (hc : c ≠ .rel) :
    (applyCall c s).levelOf l ≠ .unclaimed := by
  cases c with
  | cfg j =>
    rw [levelOf_applyCall_cfg]
    split
    · simp
    · exact h
  | write j b =>
    rw [levelOf_applyCall_write]
    split
    · cases b <;> simp [levelOfBool]
    · exact h
  | sleep d => exact h
  | rel => exact absurd rfl hc

theorem faultCall_claimed {s : State} {l : LineId} (h : s.levelOf l ≠ .unclaimed) {c : BackendCall} (hc : c ≠ .rel) :
    (faultCall c s).levelOf l ≠ .unclaimed := by
  cases c with
  | cfg j => exact putLevel_claimed h fun hj => hj ▸ faultedLevelOf_claimed h
  | write j b => exact putLevel_claimed h fun hj => hj ▸ faultedLevelOf_claimed h
  | sleep d => exact h
  | rel => exact absurd rfl hc

@[simp] theorem applyCall_sleep (s : State) (d : Duration) : applyCall (.sleep d) s = s := rfl

/-- `Rel()` is `DESTRUCT`'s alone (R165). -/
theorem rel_notMem_pulseCalls (s : State) (v : Byte) (rs : Bool) : .rel ∉ pulseCalls s v rs := by
  simp [pulseCalls, dataCalls]

theorem rel_notMem_setupCalls (s : State) : .rel ∉ setupCalls s := by
  simp [setupCalls]

theorem length_transmitCalls (s : State) (v : Byte) (rs : Bool) : (transmitCalls s v rs).length = 21 := rfl

theorem length_pulseCalls (s : State) (v : Byte) (rs : Bool) : (pulseCalls s v rs).length = 20 := rfl

/-- The level of every line after the 21 calls: the last write to it wins (R81, R90, R170). -/
theorem levelOf_transmit (s : State) (v : Byte) (rs : Bool) (j : LineId) :
    (applyAll (transmitCalls s v rs) s).levelOf j =
      if j = s.eLine then .low
      else if j = s.dataLines[0] then levelOfBool (v.getLsbD 0)
      else if j = s.dataLines[1] then levelOfBool (v.getLsbD 1)
      else if j = s.dataLines[2] then levelOfBool (v.getLsbD 2)
      else if j = s.dataLines[3] then levelOfBool (v.getLsbD 3)
      else if j = s.dataLines[4] then levelOfBool (v.getLsbD 4)
      else if j = s.dataLines[5] then levelOfBool (v.getLsbD 5)
      else if j = s.dataLines[6] then levelOfBool (v.getLsbD 6)
      else if j = s.dataLines[7] then levelOfBool (v.getLsbD 7)
      else if j = s.rsLine then levelOfBool rs
      else s.levelOf j := by
  simp only [transmitCalls, pulseCalls, dataCalls, List.flatMap_cons, List.flatMap_nil, List.append_nil,
    List.cons_append, List.nil_append, applyAll, levelOf_applyCall_write, levelOf_recordCall, applyCall_sleep,
    levelOfBool_false]
  by_cases hE : j = s.eLine
  · simp [hE]
  · simp [hE]

/-! ## The lines -/

theorem toList_dataLines (d : Vector LineId 8) : d.toList = [d[0], d[1], d[2], d[3], d[4], d[5], d[6], d[7]] := by
  obtain ⟨⟨l⟩, h⟩ := d
  simp only [List.size_toArray] at h
  match l, h with
  | [a, b, c, d, e, f, g, i], _ => rfl

theorem lines_eq (s : State) :
    s.lines = [s.rsLine, s.eLine, s.dataLines[0], s.dataLines[1], s.dataLines[2], s.dataLines[3], s.dataLines[4],
      s.dataLines[5], s.dataLines[6], s.dataLines[7]] := by
  rw [State.lines, toList_dataLines]

theorem rsLine_ne_eLine {s : State} (h : s.linesDistinct) : s.rsLine ≠ s.eLine := by
  intro he
  simp [State.linesDistinct, State.lines, he] at h

theorem dataLine_ne_eLine {s : State} (h : s.linesDistinct) {a : Nat} (ha : a < 8) : s.dataLines[a] ≠ s.eLine := by
  intro he
  rw [State.linesDistinct, State.lines, List.nodup_cons, List.nodup_cons] at h
  exact h.2.1 (he ▸ by simp)

theorem dataLine_ne_rsLine {s : State} (h : s.linesDistinct) {a : Nat} (ha : a < 8) :
    s.dataLines[a] ≠ s.rsLine := by
  intro he
  rw [State.linesDistinct, State.lines, List.nodup_cons] at h
  exact h.1 (he ▸ by simp)

theorem dataLine_ne {s : State} (h : s.linesDistinct) {a b : Nat} (ha : a < 8) (hb : b < 8) (hab : a ≠ b) :
    s.dataLines[a] ≠ s.dataLines[b] := by
  intro he
  rw [State.linesDistinct, State.lines, List.nodup_cons, List.nodup_cons] at h
  have hl : s.dataLines.toList[a]'(by simpa using ha) = s.dataLines.toList[b]'(by simpa using hb) := by
    simpa using he
  exact hab ((List.Nodup.getElem_inj_iff h.2.2).1 hl)

/-- A line the block does not own keeps its level. -/
theorem levelOf_transmit_other (s : State) (v : Byte) (rs : Bool) {l : LineId} (h : l ∉ s.lines) :
    (applyAll (transmitCalls s v rs) s).levelOf l = s.levelOf l := by
  rw [lines_eq] at h
  simp only [List.mem_cons, List.not_mem_nil, or_false, not_or] at h
  obtain ⟨h1, h2, h3, h4, h5, h6, h7, h8, h9, h10⟩ := h
  rw [levelOf_transmit]
  simp [*]

/-- E is low after a transmission, whatever lines coincide with it. -/
theorem levelOf_transmit_e (s : State) (v : Byte) (rs : Bool) :
    (applyAll (transmitCalls s v rs) s).levelOf s.eLine = .low := by
  rw [levelOf_transmit, if_pos rfl]

theorem driven_levelOfBool {s : State} {l : LineId} {b : Bool} (h : s.levelOf l = levelOfBool b) : s.driven l := by
  cases b
  · exact Or.inl h
  · exact Or.inr h

/-- Every line of the block is driven after a transmission. -/
theorem driven_transmit (s : State) (v : Byte) (rs : Bool) {l : LineId} (h : l ∈ s.lines) :
    (applyAll (transmitCalls s v rs) s).driven l := by
  have hl := levelOf_transmit s v rs l
  rw [lines_eq] at h
  simp only [List.mem_cons, List.not_mem_nil, or_false] at h
  by_cases hE : l = s.eLine
  · rw [if_pos hE] at hl
    exact Or.inl hl
  · rw [if_neg hE] at hl
    repeat' split at hl
    all_goals first | exact driven_levelOfBool hl | skip
    rcases h with h | h | h | h | h | h | h | h | h | h <;> contradiction

/-- With distinct lines, each shows its own bit (R81, R90). -/
theorem shows_transmit (s : State) (v : Byte) (rs : Bool) (h : s.linesDistinct) :
    (applyAll (transmitCalls s v rs) s).shows ⟨rs, v⟩ := by
  have hf := applyAll_fields (transmitCalls s v rs) s
  obtain ⟨⟨h1, h2, h3⟩, -⟩ := hf
  refine ⟨?_, ?_, fun i => ?_⟩
  · rw [h1, levelOf_transmit]
    simp (disch := decide) [rsLine_ne_eLine h, (dataLine_ne_rsLine h _).symm]
  · rw [h2]
    exact levelOf_transmit_e s v rs
  · have hi : (applyAll (transmitCalls s v rs) s).dataLines[i] = s.dataLines[i] := by rw [h3]
    rw [hi, levelOf_transmit]
    fin_cases i <;> simp (disch := decide) [dataLine_ne_eLine h, dataLine_ne h]

/-! ## What the controller latches (R88) -/

/-- A call that is no falling edge of E changes nothing the controller sees. -/
def QuietCall (e : LineId) : BackendCall → Prop
  | .cfg _ => True
  | .write l b => l ≠ e ∨ b = true
  | .sleep _ => True
  | .rel => False

theorem applyCall_quiet {s : State} {c : BackendCall} (h : QuietCall s.eLine c) :
    (applyCall c s).latched = s.latched ∧ (applyCall c s).stray = s.stray ∧ (applyCall c s).cells = s.cells := by
  cases c with
  | cfg l => exact ⟨rfl, rfl, rfl⟩
  | write l b =>
    simp only [applyCall]
    rw [if_neg]
    · exact ⟨rfl, rfl, rfl⟩
    · rintro ⟨h1, h2, -⟩
      rcases h with h | h
      · exact h h1
      · simp [h] at h2
  | sleep d => exact ⟨rfl, rfl, rfl⟩
  | rel => exact h.elim

/-- A falling edge of E (R88). -/
theorem applyCall_fall {s : State} {l : LineId} (h : l = s.eLine) (hh : s.levelOf l = .high) :
    applyCall (.write l false) s = (s.putLevel l (levelOfBool false)).observeFall := by
  simp only [applyCall]
  rw [if_pos ⟨h, trivial, h ▸ hh⟩]

theorem applyAll_quiet {cs : List BackendCall} {s : State} (h : ∀ c ∈ cs, QuietCall s.eLine c) :
    (applyAll cs s).latched = s.latched ∧ (applyAll cs s).stray = s.stray ∧ (applyAll cs s).cells = s.cells := by
  induction cs generalizing s with
  | nil => exact ⟨rfl, rfl, rfl⟩
  | cons c cs ih =>
    have he : (applyCall c (s.recordCall c)).eLine = s.eLine := (rest_fields (applyCall_rest c _)).1.2.1
    have h1 := applyCall_quiet (s := s.recordCall c) (h c (by simp))
    have h2 := ih (s := applyCall c (s.recordCall c)) fun d hd => he ▸ h d (by simp [hd])
    rw [applyAll, h2.1, h2.2.1, h2.2.2]
    exact h1

/-- But for the release, no call that is done leaves a doubt behind, if the controller can follow the delay (R220). -/
theorem applyAll_stray {cs : List BackendCall} (hc : .rel ∉ cs) {s : State} (ht : s.timingMet) :
    (applyAll cs s).stray = s.stray := by
  induction cs generalizing s with
  | nil => rfl
  | cons c cs ih =>
    rw [List.mem_cons, not_or] at hc
    obtain ⟨-, -, -, -, -, -, -, -, h1, h2, h3, h4⟩ := applyAll_fields [c] s
    have h : (applyCall c (s.recordCall c)).timingMet := by
      rw [State.timingMet]
      exact h3 ▸ h4 ▸ ht
    rw [applyAll, ih hc.2 h]
    cases c with
    | cfg l => rfl
    | write l b =>
      simp only [applyCall]
      split
      · rw [State.observeFall, if_pos (by exact ht)]
        rfl
      · rfl
    | sleep d => rfl
    | rel => exact absurd rfl hc.1

theorem byte_of_bits (v : Byte) : BitVec.ofBool (v.getLsbD 7) ++ BitVec.ofBool (v.getLsbD 6)
    ++ BitVec.ofBool (v.getLsbD 5) ++ BitVec.ofBool (v.getLsbD 4)
    ++ BitVec.ofBool (v.getLsbD 3) ++ BitVec.ofBool (v.getLsbD 2)
    ++ BitVec.ofBool (v.getLsbD 1) ++ BitVec.ofBool (v.getLsbD 0) = v := by
  revert v
  decide

theorem sampleLine_eq {s : State} {l : LineId} {b : Bool} (h : s.levelOf l = levelOfBool b) :
    s.sampleLine l = b := by
  cases b <;> simp [State.sampleLine, h]

/-- The lines hold a word with E high: the state just before the fall. -/
theorem sample_eq {s : State} {w : Latch} (hrs : s.levelOf s.rsLine = levelOfBool w.rs)
    (hd : ∀ i : Fin 8, s.levelOf s.dataLines[i] = levelOfBool (w.byte.getLsbD i.val)) :
    s.sampleLine s.rsLine = w.rs ∧ s.sampleByte = w.byte := by
  refine ⟨sampleLine_eq hrs, ?_⟩
  have h := fun i : Fin 8 => sampleLine_eq (hd i)
  have h0 := h 0
  have h1 := h 1
  have h2 := h 2
  have h3 := h 3
  have h4 := h 4
  have h5 := h 5
  have h6 := h 6
  have h7 := h 7
  simp only [Fin.getElem_fin, Fin.isValue, Fin.coe_ofNat_eq_mod, Nat.reduceMod, Nat.zero_mod, Nat.one_mod] at *
  rw [State.sampleByte, h0, h1, h2, h3, h4, h5, h6, h7]
  exact byte_of_bits w.byte

/-- Calls 1 to 19 of a transmission. -/
def riseCalls (s : State) (v : Byte) (rs : Bool) : List BackendCall :=
  [.write s.rsLine rs, .write s.eLine true, .sleep s.enableDelay] ++ dataCalls s v

theorem transmitCalls_eq (s : State) (v : Byte) (rs : Bool) :
    transmitCalls s v rs = riseCalls s v rs ++ [.write s.eLine false, .sleep s.enableDelay] := rfl

/-- The levels just before the fall of E, with distinct lines. -/
theorem levelOf_rise (s : State) (v : Byte) (rs : Bool) (h : s.linesDistinct) :
    (applyAll (riseCalls s v rs) s).levelOf s.eLine = .high ∧
      (applyAll (riseCalls s v rs) s).levelOf s.rsLine = levelOfBool rs ∧
      ∀ i : Fin 8, (applyAll (riseCalls s v rs) s).levelOf s.dataLines[i] = levelOfBool (v.getLsbD i.val) := by
  simp only [riseCalls, dataCalls, List.flatMap_cons, List.flatMap_nil, List.append_nil, List.cons_append,
    List.nil_append, applyAll, levelOf_applyCall_write, levelOf_recordCall, applyCall_sleep, levelOfBool_true]
  refine ⟨?_, ?_, fun i => ?_⟩
  · simp (disch := decide) [(dataLine_ne_eLine h _).symm]
  · simp (disch := decide) [rsLine_ne_eLine h, (dataLine_ne_rsLine h _).symm]
  · fin_cases i <;> simp (disch := decide) [dataLine_ne h]

/-- Before the fall of E nothing is latched, with distinct lines. -/
theorem riseCalls_quiet (s : State) (v : Byte) (rs : Bool) (h : s.linesDistinct) :
    ∀ c ∈ riseCalls s v rs, QuietCall s.eLine c := by
  simp (disch := decide) [riseCalls, dataCalls, QuietCall, rsLine_ne_eLine h, dataLine_ne_eLine h]

/-- One completed transmission latches exactly its word, and does to the cells what that word does (R88). -/
theorem latched_transmit (s : State) (v : Byte) (rs : Bool) (h : s.linesDistinct) (ht : s.timingMet) :
    (applyAll (transmitCalls s v rs) s).latched = s.latched ++ [⟨rs, v⟩] ∧
      (applyAll (transmitCalls s v rs) s).stray = s.stray ∧
      (applyAll (transmitCalls s v rs) s).cells = cellsAfterLatch ⟨rs, v⟩ s.cursorPosition s.cells := by
  obtain ⟨hE, hR, hD⟩ := levelOf_rise s v rs h
  obtain ⟨hq1, hq2, hq3⟩ := applyAll_quiet (riseCalls_quiet s v rs h)
  obtain ⟨⟨h1, h2, h3⟩, -, h4, -, -, -, -, -, -, -, h5, h6⟩ := applyAll_fields (riseCalls s v rs) s
  rw [transmitCalls_eq, applyAll_append]
  generalize applyAll (riseCalls s v rs) s = u at *
  have hl : ∀ j, (u.recordCall (.write s.eLine false)).levelOf j = u.levelOf j := fun j => rfl
  have hs : ∀ l b, l ≠ s.eLine → u.levelOf l = levelOfBool b →
      ((u.recordCall (.write s.eLine false)).putLevel s.eLine (levelOfBool false)).levelOf l = levelOfBool b := by
    intro l b hne hlev
    rw [levelOf_putLevel_ne _ hne]
    exact hlev
  have hw := sample_eq (s := (u.recordCall (.write s.eLine false)).putLevel s.eLine (levelOfBool false))
    (w := ⟨rs, v⟩) (hs _ _ (h1 ▸ rsLine_ne_eLine h) (h1 ▸ hR)) fun i =>
      hs _ _ (h3 ▸ dataLine_ne_eLine h i.isLt) (by
        have := hD i
        simp only [← h3] at this
        exact this)
  have htm : ((u.recordCall (.write s.eLine false)).putLevel s.eLine (levelOfBool false)).tPwMin
      ≤ ((u.recordCall (.write s.eLine false)).putLevel s.eLine (levelOfBool false)).enableDelay := by
    have : u.tPwMin ≤ u.enableDelay := by rw [h5, h6]; exact ht
    exact this
  simp only [applyAll, applyCall_sleep]
  rw [applyCall_fall (s := u.recordCall (.write s.eLine false)) h2.symm ((hl _).trans hE), State.observeFall,
    if_pos htm, hw.1, hw.2, ← hq1, ← hq2, ← hq3, ← h4]
  exact ⟨rfl, rfl, rfl⟩

end Sys2Proof.Machine
end

