-- ==== Sys2Proof/Laws/Send.lean ====
section
/-! SUPPORT. The laws of runs of transmissions: one predicate, `Run.Sends`, says everything such a run can do, and
composes. -/

namespace Sys2Proof.Machine

/-! ## What words do -/

/-- The calls of words sent one after another. -/
def wordCalls (s : State) (ws : List Latch) : List BackendCall := ws.flatMap fun w => transmitCalls s w.byte w.rs

/-- The cells after words sent from cursor position `c`. -/
def cellsAfterWords : List Latch → Nat → Memory → Memory
  | [], _, m => m
  | w :: ws, c, m =>
    cellsAfterWords ws (if w.rs then c + 1 else c) (cellsAfterLatch w (BitVec.ofNat 6 c) m)

@[simp] theorem dataCount_nil : dataCount [] = 0 := rfl

@[simp] theorem dataCount_cons (w : Latch) (ws : List Latch) :
    dataCount (w :: ws) = dataCount ws + if w.rs then 1 else 0 := by
  simp [dataCount, List.countP_cons]

@[simp] theorem dataCount_append (ws vs : List Latch) : dataCount (ws ++ vs) = dataCount ws + dataCount vs := by
  simp [dataCount]

theorem length_wordCalls (s : State) (ws : List Latch) : (wordCalls s ws).length = 21 * ws.length := by
  induction ws with
  | nil => rfl
  | cons w ws ih =>
    simp only [wordCalls, List.flatMap_cons, List.length_append, length_transmitCalls] at ih ⊢
    rw [ih, List.length_cons]
    omega

theorem wordCalls_append (s : State) (ws vs : List Latch) :
    wordCalls s (ws ++ vs) = wordCalls s ws ++ wordCalls s vs := by
  simp [wordCalls]

theorem wordCalls_congr {s t : State} (h : SameLines s t) (hd : t.enableDelay = s.enableDelay) (ws : List Latch) :
    wordCalls t ws = wordCalls s ws := by
  obtain ⟨h1, h2, h3⟩ := h
  simp [wordCalls, transmitCalls, pulseCalls, dataCalls, h1, h2, h3, hd]

theorem cellsAfterWords_append (ws vs : List Latch) (c : Nat) (m : Memory) :
    cellsAfterWords (ws ++ vs) c m = cellsAfterWords vs (c + dataCount ws) (cellsAfterWords ws c m) := by
  induction ws generalizing c m with
  | nil => rfl
  | cons w ws ih =>
    rw [List.cons_append, cellsAfterWords, ih, cellsAfterWords, dataCount_cons]
    congr 1
    split <;> omega

/-! ## Complete and incomplete runs of words -/

/-- `t` is `s` after the words have been sent to the end. The cursor and the cells are claimed as long as the
six-bit register can hold the count. -/
structure SentWords (s t : State) (ws : List Latch) : Prop where
  transmitted : Transmitted s t ws
  flags : SameFlags s t
  lifecycle : t.lifecycle = s.lifecycle
  seq : t.seq = s.seq
  returned : t.returned = s.returned
  cursor : s.cursorPosition.toNat + dataCount ws ≤ 63 →
    t.cursorPosition.toNat = s.cursorPosition.toNat + dataCount ws
  instrCursor : dataCount ws = 0 → t.cursorPosition = s.cursorPosition
  cells : s.cursorPosition.toNat + dataCount ws ≤ 63 → s.linesDistinct → s.timingMet →
    t.cells = cellsAfterWords ws s.cursorPosition.toNat s.cells
  driven : ws ≠ [] → ∀ l ∈ s.lines, t.driven l

/-- `t` is `s` after the words were cut short at call `n` of them (R186): that call and none after it was made,
the words latched are those whose fall of E completed, the one in doubt, if the call was not a word's last, is one entry
of `stray`, and the cursor counts the data words that completed whole. -/
structure CutWords (s t : State) (ws : List Latch) (n : Nat) : Prop where
  pos : 1 ≤ n
  bound : n ≤ 21 * ws.length
  quiet : s.quietFor (n - 1)
  fault : s.calls + n ∈ s.faultAt
  calls : t.calls = s.calls + n
  events : t.events = s.events ++ (wordCalls s ws).take n
  lines : SameLines s t
  inputs : SameInputs s t
  flags : SameFlags s t
  lifecycle : t.lifecycle = .faulted
  seq : t.seq = s.seq
  returned : t.returned = s.returned
  cursor : s.cursorPosition.toNat + dataCount ws ≤ 63 →
    t.cursorPosition.toNat = s.cursorPosition.toNat + dataCount (ws.take ((n - 1) / 21))
  latched : s.linesDistinct → s.timingMet → t.latched = s.latched ++ ws.take (n / 21)
  stray : s.linesDistinct → s.timingMet →
    if n % 21 = 0 then t.stray = s.stray else ∃ x, t.stray = s.stray ++ [⟨t.latched.length, x⟩]

/-- Everything a run of words can do. -/
structure Run.Sends (r : Run) (s : State) (ws : List Latch) : Prop where
  quiet : s.quietFor (21 * ws.length) → ∃ t, r = .going t
  going : ∀ t, r = .going t → s.quietFor (21 * ws.length) ∧ SentWords s t ws
  raised : ∀ e t, r = .raised e t → e = .hardwareFault ∧ ∃ n, CutWords s t ws n

theorem lines_congr {s t : State} (h : SameLines s t) : t.lines = s.lines := by
  obtain ⟨h1, h2, h3⟩ := h
  simp [State.lines, h1, h2, h3]

theorem linesDistinct_congr {s t : State} (h : SameLines s t) : t.linesDistinct ↔ s.linesDistinct := by
  rw [State.linesDistinct, lines_congr h]

theorem timingMet_congr {s t : State} (h : SameInputs s t) : t.timingMet ↔ s.timingMet := by
  obtain ⟨-, -, h1, h2⟩ := h
  rw [State.timingMet, h1, h2]

theorem transmitted_nil (s : State) : Transmitted s s [] :=
  ⟨by simp, by simp, ⟨rfl, rfl, rfl⟩, ⟨rfl, rfl, rfl, rfl⟩, fun _ _ => rfl, by simp, by simp⟩

/-- Words, then more words. -/
theorem Transmitted.trans {s t u : State} {ws vs : List Latch} (h : Transmitted s t ws) (h' : Transmitted t u vs) :
    Transmitted s u (ws ++ vs) := by
  obtain ⟨h1, h2, h3, h4, h5, h6, h7⟩ := h
  obtain ⟨h1', h2', h3', h4', h5', h6', h7'⟩ := h'
  have hl : SameLines s u := ⟨h3'.1.trans h3.1, h3'.2.1.trans h3.2.1, h3'.2.2.trans h3.2.2⟩
  have hw : ∀ vs, wordCalls t vs = wordCalls s vs := wordCalls_congr h3 h4.2.2.1
  refine ⟨?_, ?_, hl, ⟨h4'.1.trans h4.1, h4'.2.1.trans h4.2.1, h4'.2.2.1.trans h4.2.2.1,
    h4'.2.2.2.trans h4.2.2.2⟩, ?_, ?_, ?_⟩
  · have := hw vs
    simp only [wordCalls] at this
    rw [h1', h1, this, List.flatMap_append, List.append_assoc]
  · rw [h2', h2, List.length_append]
    omega
  · rintro l hl'
    rw [h5' l, h5 l]
    · rcases hl' with hl' | hl'
      · exact Or.inl (List.append_eq_nil_iff.1 hl').1
      · exact Or.inr hl'
    · rcases hl' with hl' | hl'
      · exact Or.inl (List.append_eq_nil_iff.1 hl').2
      · exact Or.inr (lines_congr h3 ▸ hl')
  · intro hne
    by_cases hv : vs = []
    · subst hv
      rw [h5' _ (Or.inl rfl)]
      exact h6 (by simpa using hne)
    · exact h3.2.1 ▸ h6' hv
  · intro hd ht
    obtain ⟨a1, a2, a3⟩ := h7 hd ht
    obtain ⟨b1, b2, b3⟩ := h7' ((linesDistinct_congr h3).2 hd) ((timingMet_congr h4).2 ht)
    refine ⟨by rw [b1, a1, List.append_assoc], b2.trans a2, fun w hw' => ?_⟩
    by_cases hv : vs = []
    · subst hv
      obtain ⟨c1, c2, c3⟩ := a3 w (by simpa using hw')
      have hlev := fun l => h5' l (Or.inl rfl)
      refine ⟨?_, ?_, fun i => ?_⟩
      · rw [hlev, h3'.1]
        exact c1
      · rw [hlev, h3'.2.1]
        exact c2
      · have := c3 i
        rw [hlev]
        simp only [h3'.2.2]
        exact this
    · exact b3 w (by rwa [List.getLast?_append_of_ne_nil _ hv] at hw')

theorem sentWords_nil (s : State) : SentWords s s [] where
  transmitted := transmitted_nil s
  flags := ⟨rfl, rfl, rfl⟩
  lifecycle := rfl
  seq := rfl
  returned := rfl
  cursor _ := rfl
  instrCursor _ := rfl
  cells _ _ _ := rfl
  driven h := absurd rfl h

theorem SentWords.trans {s t u : State} {ws vs : List Latch} (h : SentWords s t ws) (h' : SentWords t u vs) :
    SentWords s u (ws ++ vs) where
  transmitted := h.transmitted.trans h'.transmitted
  flags := ⟨h'.flags.1.trans h.flags.1, h'.flags.2.1.trans h.flags.2.1, h'.flags.2.2.trans h.flags.2.2⟩
  lifecycle := h'.lifecycle.trans h.lifecycle
  seq := h'.seq.trans h.seq
  returned := h'.returned.trans h.returned
  cursor hc := by
    rw [dataCount_append] at hc ⊢
    have h1 := h.cursor (by omega)
    have h2 := h'.cursor (by omega)
    omega
  instrCursor hc := by
    rw [dataCount_append] at hc
    exact (h'.instrCursor (by omega)).trans (h.instrCursor (by omega))
  cells hc hd ht := by
    rw [dataCount_append] at hc
    have h1 := h.cursor (by omega)
    have hl := h.transmitted.2.2.1
    have hi := h.transmitted.2.2.2.1
    rw [cellsAfterWords_append, h'.cells (by omega) ((linesDistinct_congr hl).2 hd) ((timingMet_congr hi).2 ht), h1,
      h.cells (by omega) hd ht]
  driven hne l hl := by
    have hlines := lines_congr h.transmitted.2.2.1
    by_cases hv : vs = []
    · subst hv
      have hlev := h'.transmitted.2.2.2.2.1 l (Or.inl rfl)
      rw [State.driven, hlev]
      exact h.driven (by simpa using hne) l hl
    · exact h'.driven hv l (hlines ▸ hl)

/-- Whole words, then words cut short. -/
theorem SentWords.trans_cut {s t u : State} {ws vs : List Latch} {n : Nat} (hq : s.quietFor (21 * ws.length))
    (h : SentWords s t ws) (h' : CutWords t u vs n) : CutWords s u (ws ++ vs) (21 * ws.length + n) := by
  obtain ⟨e1, e2, e3, e4, -, -, e7⟩ := h.transmitted
  have hpos := h'.pos
  have hdiv : (21 * ws.length + n) / 21 = ws.length + n / 21 := by omega
  have hdiv' : (21 * ws.length + n - 1) / 21 = ws.length + (n - 1) / 21 := by omega
  have htake : ∀ k, (ws ++ vs).take (ws.length + k) = ws ++ vs.take k := fun k => List.take_length_add_append k
  refine { pos := by omega, bound := ?_, quiet := ?_, fault := ?_, calls := ?_, events := ?_, lines := ?_,
           inputs := ?_, flags := ?_, lifecycle := h'.lifecycle, seq := h'.seq.trans h.seq,
           returned := h'.returned.trans h.returned, cursor := ?_, latched := ?_,
           stray := ?_ }
  · have := h'.bound
    rw [List.length_append]
    omega
  · have := quietFor_join hq h'.quiet e2 e4.2.1
    rwa [show 21 * ws.length + n - 1 = 21 * ws.length + (n - 1) by omega]
  · have := h'.fault
    rw [e2, e4.2.1] at this
    rwa [← Nat.add_assoc]
  · rw [h'.calls, e2, Nat.add_assoc]
  · rw [h'.events, e1, wordCalls_congr e3 e4.2.2.1, wordCalls_append, List.append_assoc,
      ← length_wordCalls s ws, List.take_length_add_append]
    rfl
  · exact ⟨h'.lines.1.trans e3.1, h'.lines.2.1.trans e3.2.1, h'.lines.2.2.trans e3.2.2⟩
  · exact ⟨h'.inputs.1.trans e4.1, h'.inputs.2.1.trans e4.2.1, h'.inputs.2.2.1.trans e4.2.2.1,
      h'.inputs.2.2.2.trans e4.2.2.2⟩
  · exact ⟨h'.flags.1.trans h.flags.1, h'.flags.2.1.trans h.flags.2.1, h'.flags.2.2.trans h.flags.2.2⟩
  · intro hc
    rw [dataCount_append] at hc
    have h1 := h.cursor (by omega)
    have h2 := h'.cursor (by omega)
    rw [hdiv', htake, dataCount_append, h2, h1]
    omega
  · intro hd ht
    rw [hdiv, htake, h'.latched ((linesDistinct_congr e3).2 hd) ((timingMet_congr e4).2 ht), (e7 hd ht).1,
      List.append_assoc]
  · intro hd ht
    have := h'.stray ((linesDistinct_congr e3).2 hd) ((timingMet_congr e4).2 ht)
    rwa [(e7 hd ht).2.1, show n % 21 = (21 * ws.length + n) % 21 by omega] at this

/-- A run cut short in its first words stays cut short if more were to come. -/
theorem CutWords.append {s t : State} {ws : List Latch} {n : Nat} (h : CutWords s t ws n) (vs : List Latch) :
    CutWords s t (ws ++ vs) n := by
  have hb := h.bound
  have hp := h.pos
  have ht : ∀ k, k ≤ ws.length → (ws ++ vs).take k = ws.take k := fun k hk => List.take_append_of_le_length hk
  refine { h with bound := ?_, events := ?_, cursor := ?_, latched := ?_ }
  · rw [List.length_append]
    omega
  · rw [h.events, wordCalls_append, List.take_append_of_le_length (by rwa [length_wordCalls])]
  · intro hc
    rw [dataCount_append] at hc
    rw [ht _ (by omega)]
    exact h.cursor (by omega)
  · rw [ht _ (by omega)]
    exact h.latched

/-- Runs of words compose. -/
theorem Run.Sends.bind {r : Run} {k : State → Run} {s : State} {ws vs : List Latch} (h : r.Sends s ws)
    (hk : ∀ t, SentWords s t ws → (k t).Sends t vs) : (r.bind k).Sends s (ws ++ vs) := by
  have hlen : 21 * (ws ++ vs).length = 21 * ws.length + 21 * vs.length := by
    rw [List.length_append, Nat.mul_add]
  cases r with
  | going t =>
    obtain ⟨hq, hs⟩ := h.going t rfl
    obtain ⟨e1, e2, e3, e4, -⟩ := hs.transmitted
    have hk' := hk t hs
    refine ⟨fun hq' => ?_, fun u hu => ?_, fun e u hu => ?_⟩
    · rw [hlen] at hq'
      exact hk'.quiet (quietFor_later hq' e2 e4.2.1)
    · obtain ⟨hq', hs'⟩ := hk'.going u hu
      rw [hlen]
      exact ⟨quietFor_join hq hq' e2 e4.2.1, hs.trans hs'⟩
    · obtain ⟨he, n, hc⟩ := hk'.raised e u hu
      exact ⟨he, _, hs.trans_cut hq hc⟩
  | raised e t =>
    obtain ⟨he, n, hc⟩ := h.raised e t rfl
    refine ⟨fun hq => ?_, fun u hu => by simp [Run.bind] at hu, fun e' u hu => ?_⟩
    · rw [hlen] at hq
      obtain ⟨u, hu⟩ := h.quiet (quietFor_add hq)
      simp at hu
    · simp only [Run.bind, Run.raised.injEq] at hu
      obtain ⟨rfl, rfl⟩ := hu
      exact ⟨he, n, hc.append vs⟩

theorem sends_nil (s : State) : (Run.going s).Sends s [] :=
  ⟨fun _ => ⟨s, rfl⟩, fun t h => by
    simp only [Run.going.injEq] at h
    subst h
    exact ⟨fun n _ => by simp only [List.length_nil]; omega, sentWords_nil s⟩, fun e t h => by simp at h⟩

/-! ## One word -/

theorem patternValue_patternOf (v : Byte) : patternValue (patternOf v) = some v := by
  revert v
  decide

@[simp] theorem transmitPattern_patternOf (v : Byte) (rs : Bool) (s : State) :
    transmitPattern (patternOf v) rs s = transmit v rs s := by
  rw [transmitPattern, patternValue_patternOf]

theorem emitAll_append (as bs : List BackendCall) (s : State) :
    emitAll (as ++ bs) s = (emitAll as s).bind (emitAll bs) := by
  induction as generalizing s with
  | nil => rfl
  | cons c cs ih =>
    rw [List.cons_append, emitAll, emitAll]
    cases emit c s with
    | going t => exact ih t
    | raised e t => rfl

/-- A `TRANSMIT` from phase `k` on runs to its end exactly when none of the calls that remain answers *fault*. -/
theorem transmitFrom_going_iff (k : Nat) (v : Byte) (rs : Bool) (s t : State) :
    transmitFrom k v rs s = .going t ↔ s.quietFor (21 - k) ∧ t = applyAll ((transmitCalls s v rs).drop k) s := by
  rw [show 21 - k = ((transmitCalls s v rs).drop k).length by rw [List.length_drop, length_transmitCalls],
    ← emitAll_going_iff]
  by_cases hk : k ≤ 20
  · rw [transmitCalls, List.drop_append_of_le_length (by rw [length_pulseCalls]; exact hk), emitAll_append,
      transmitFrom]
    cases emitAll ((pulseCalls s v rs).drop k) s with
    | going u =>
      simp only [pulseFault, Run.bind, hk, if_true, emitAll]
      cases emit (.sleep s.enableDelay) u <;> rfl
    | raised e u => simp [pulseFault, Run.bind]
  · rw [transmitFrom, List.drop_eq_nil_of_le (by rw [length_pulseCalls]; omega),
      List.drop_eq_nil_of_le (by rw [length_transmitCalls]; omega)]
    simp only [emitAll, pulseFault, Run.bind, hk, if_false]

theorem transmit_going_iff (v : Byte) (rs : Bool) (s t : State) :
    transmit v rs s = .going t ↔ s.quietFor 21 ∧ t = applyAll (transmitCalls s v rs) s :=
  transmitFrom_going_iff 0 v rs s t

/-- Where a `TRANSMIT` from phase `k` on is cut short: at the first call that answers *fault*, and with the controller's
input in doubt unless that is call 21 (R89). -/
theorem transmitFrom_raised {k : Nat} {v : Byte} {rs : Bool} {s t : State} {e : Status}
    (h : transmitFrom k v rs s = .raised e t) :
    e = .hardwareFault ∧ ∃ pre c post, (transmitCalls s v rs).drop k = pre ++ c :: post ∧ s.quietFor pre.length ∧
      s.calls + pre.length + 1 ∈ s.faultAt ∧
      t = if post = [] then cutAt pre c s else (cutAt pre c s).indeterminate := by
  rw [transmitFrom] at h
  by_cases hk : k ≤ 20
  · have hd : (transmitCalls s v rs).drop k = (pulseCalls s v rs).drop k ++ [.sleep s.enableDelay] := by
      rw [transmitCalls, List.drop_append_of_le_length (by rw [length_pulseCalls]; exact hk)]
    rcases hp : emitAll ((pulseCalls s v rs).drop k) s with u | ⟨e', u⟩
    · rw [hp] at h
      simp only [pulseFault, Run.bind, hk, if_true, emit_eq] at h
      obtain ⟨hq, rfl⟩ := (emitAll_going_iff _ _ _).1 hp
      obtain ⟨-, -, -, -, -, -, f7, -, -, f9, -⟩ := applyAll_fields ((pulseCalls s v rs).drop k) s
      split at h
      · rename_i hm
        cases h
        rw [f7, f9] at hm
        exact ⟨rfl, _, _, [], hd, hq, hm, rfl⟩
      · cases h
    · rw [hp] at h
      cases h
      obtain ⟨rfl, pre, c, post, heq, hq, hm, rfl⟩ := emitAll_raised hp
      exact ⟨rfl, pre, c, post ++ [.sleep s.enableDelay], by rw [hd, heq]; simp, hq, hm, (if_neg (by simp)).symm⟩
  · rw [List.drop_eq_nil_of_le (by rw [length_pulseCalls]; omega)] at h
    simp [emitAll, pulseFault, Run.bind, hk] at h

/-- Short of the last two calls of a transmission there is no fall of E, with distinct lines. -/
theorem seen_of_prefix {k : Nat} {s : State} {v : Byte} {rs : Bool} {pre : List BackendCall} {c : BackendCall}
    {post : List BackendCall} (h : (transmitCalls s v rs).drop k = pre ++ c :: post) (hp : post ≠ [])
    (hd : s.linesDistinct) :
    (applyAll pre s).latched = s.latched ∧ (applyAll pre s).stray = s.stray ∧ (applyAll pre s).cells = s.cells := by
  have h1 : ∃ x y, post = x ++ [y] := ⟨post.dropLast, post.getLast hp, (List.dropLast_append_getLast hp).symm⟩
  obtain ⟨x, y, rfl⟩ := h1
  have h2 : ((transmitCalls s v rs).take k ++ pre) ++ (c :: x ++ [y]) =
      (riseCalls s v rs ++ [.write s.eLine false]) ++ [.sleep s.enableDelay] := by
    have := List.take_append_drop k (transmitCalls s v rs)
    rw [h] at this
    simpa [transmitCalls_eq] using this
  have h3 : ((transmitCalls s v rs).take k ++ pre) ++ (c :: x) = riseCalls s v rs ++ [.write s.eLine false] := by
    have := congrArg List.dropLast h2
    simpa only [← List.append_assoc, List.dropLast_concat] using this
  have h4 : ((transmitCalls s v rs).take k ++ pre) <+: riseCalls s v rs := by
    refine List.prefix_of_prefix_length_le ⟨c :: x, h3⟩ ⟨[.write s.eLine false], rfl⟩ ?_
    have := congrArg List.length h3
    simp only [List.length_append, List.length_cons, List.length_nil] at this ⊢
    omega
  exact applyAll_quiet fun d hd' => riseCalls_quiet s v rs hd d (h4.subset (List.mem_append_right _ hd'))

theorem rel_notMem_transmitCalls (s : State) (v : Byte) (rs : Bool) : .rel ∉ transmitCalls s v rs := by
  simp [transmitCalls, rel_notMem_pulseCalls]

/-- Once call 20 has been made, the word is latched (R88, R89). -/
theorem latched_before_last {s : State} {v : Byte} {rs : Bool} {pre : List BackendCall} {c : BackendCall}
    (h : transmitCalls s v rs = pre ++ [c]) (hd : s.linesDistinct) (ht : s.timingMet) :
    (applyAll pre s).latched = s.latched ++ [⟨rs, v⟩] ∧ (applyAll pre s).stray = s.stray ∧
      (applyAll pre s).cells = cellsAfterLatch ⟨rs, v⟩ s.cursorPosition s.cells := by
  obtain ⟨rfl, hc⟩ := List.append_inj' h rfl
  have := latched_transmit s v rs hd ht
  rwa [transmitCalls, applyAll_append] at this

/-- A transmission that is cut short (R89). -/
theorem transmit_raised {v : Byte} {rs : Bool} {s t : State} {e : Status} (h : transmit v rs s = .raised e t) :
    e = .hardwareFault ∧ ∃ n, CutWords s t [⟨rs, v⟩] n := by
  obtain ⟨rfl, pre, c, post, heq, hq, hm, rfl⟩ := transmitFrom_raised h
  rw [List.drop_zero] at heq
  obtain ⟨f1, f2, f3, f4, f5, f6, f7, f8, f9⟩ := cutAt_fields pre c s
  have hlen := congrArg List.length heq
  rw [length_transmitCalls, List.length_append, List.length_cons] at hlen
  have hc : c ≠ .rel := fun h => rel_notMem_transmitCalls s v rs (heq ▸ by simp [h])
  have hs := faultCall_seen hc ((applyAll pre s).recordCall c)
  have hr : (if post = [] then cutAt pre c s else (cutAt pre c s).indeterminate).rest = (cutAt pre c s).rest := by
    split <;> rfl
  obtain ⟨g1, g2, g3, g4, g5, g6, g7, g8, g9⟩ := rest_fields hr
  refine ⟨rfl, pre.length + 1, by omega, ?_, hq, hm, g7.trans f7, ?_, ?_, ?_, ?_, g4.trans f4, g5.trans f5,
    g8.trans f8, fun _ => ?_, fun hd ht => ?_, fun hd ht => ?_⟩
  · simp only [List.length_cons, List.length_nil]
    omega
  · have hw : wordCalls s [⟨rs, v⟩] = (pre ++ [c]) ++ post := by
      simpa [wordCalls] using heq
    rw [g6, f6, hw, List.take_append_of_le_length (by simp), List.take_of_length_le (by simp)]
  · exact ⟨g1.1.trans f1.1, g1.2.1.trans f1.2.1, g1.2.2.trans f1.2.2⟩
  · exact ⟨g9.1.trans f9.1, g9.2.1.trans f9.2.1, g9.2.2.1.trans f9.2.2.1, g9.2.2.2.trans f9.2.2.2⟩
  · exact ⟨g2.1.trans f2.1, g2.2.1.trans f2.2.1, g2.2.2.trans f2.2.2⟩
  · rw [g3, f3, Nat.add_sub_cancel, Nat.div_eq_of_lt (by omega)]
    rfl
  · by_cases hp : post = []
    · subst hp
      rw [if_pos rfl, show (pre.length + 1) / 21 = 1 by rw [List.length_nil] at hlen; omega]
      exact hs.1.trans (latched_before_last heq hd ht).1
    · rw [if_neg hp, Nat.div_eq_of_lt (by have := List.length_pos_iff.2 hp; omega)]
      exact (hs.1.trans (seen_of_prefix (k := 0) heq hp hd).1).trans (by simp)
  · by_cases hp : post = []
    · subst hp
      rw [if_pos rfl, if_pos (by rw [List.length_nil] at hlen; omega)]
      exact hs.2.1.trans (latched_before_last heq hd ht).2.1
    · rw [if_neg hp, if_neg (by have := List.length_pos_iff.2 hp; omega)]
      obtain ⟨h1, h2, -⟩ := seen_of_prefix (k := 0) heq hp hd
      refine ⟨Config.strayLatch (cutAt pre c s).calls, ?_⟩
      exact congrArg (· ++ _) (hs.2.1.trans h2)

/-- What one completed transmission leaves, but for the cursor. -/
theorem transmitted_transmit (s : State) (v : Byte) (rs : Bool) :
    Transmitted s (applyAll (transmitCalls s v rs) s) [⟨rs, v⟩] := by
  obtain ⟨f1, f2, f3, f4, f5, f6, f7, f8, f9⟩ := applyAll_fields (transmitCalls s v rs) s
  refine ⟨by simpa using f6, f7, f1, f9, fun l hl => ?_, fun _ => levelOf_transmit_e s v rs, fun hd ht => ?_⟩
  · exact levelOf_transmit_other s v rs (hl.resolve_left (by simp))
  · obtain ⟨h1, h2, -⟩ := latched_transmit s v rs hd ht
    refine ⟨h1, h2, fun w hw => ?_⟩
    simp only [List.getLast?_singleton, Option.some.injEq] at hw
    exact hw ▸ shows_transmit s v rs hd

/-- `SEND_INSTR` (R85). -/
theorem sendInstr_sends (v : Byte) (s : State) : (sendInstr v s).Sends s [instrWord v] := by
  rw [sendInstr, transmitPattern_patternOf]
  refine ⟨fun hq => ⟨_, (transmit_going_iff v false s _).2 ⟨hq, rfl⟩⟩, fun t ht => ?_, fun e t ht =>
    transmit_raised ht⟩
  obtain ⟨hq, rfl⟩ := (transmit_going_iff v false s t).1 ht
  obtain ⟨f1, f2, f3, f4, f5, f6, f7, f8, f9⟩ := applyAll_fields (transmitCalls s v false) s
  refine ⟨hq, transmitted_transmit s v false, f2, f4, f5, f8, fun _ => by rw [f3]; rfl, fun _ => f3,
    fun _ hd ht => ?_, fun _ l hl => driven_transmit s v false hl⟩
  rw [(latched_transmit s v false hd ht).2.2]
  simp [cellsAfterWords, cellsAfterLatch]

/-- `SEND_DATA` (R86). -/
theorem sendData_sends (v : Byte) (s : State) : (sendData v s).Sends s [dataWord v] := by
  rw [sendData, transmitPattern_patternOf]
  have hg : ∀ u, (transmit v true s).bind (fun t => .going t.advanceCursor) = .going u ↔
      s.quietFor 21 ∧ u = (applyAll (transmitCalls s v true) s).advanceCursor := by
    intro u
    rcases ht : transmit v true s with t | ⟨e, t⟩
    · obtain ⟨hq, rfl⟩ := (transmit_going_iff v true s t).1 ht
      simp only [Run.bind, Run.going.injEq]
      exact ⟨fun h => ⟨hq, h.symm⟩, fun h => h.2.symm⟩
    · simp only [Run.bind, reduceCtorEq, false_iff, not_and]
      intro hq
      rw [(transmit_going_iff v true s _).2 ⟨hq, rfl⟩] at ht
      simp at ht
  refine ⟨fun hq => ⟨_, (hg _).2 ⟨hq, rfl⟩⟩, fun t ht => ?_, fun e t ht => ?_⟩
  · obtain ⟨hq, rfl⟩ := (hg t).1 ht
    obtain ⟨f1, f2, f3, f4, f5, f6, f7, f8, f9⟩ := applyAll_fields (transmitCalls s v true) s
    refine ⟨hq, transmitted_transmit s v true, f2, f4, f5, f8, fun hc => ?_, fun h => by simp at h,
      fun _ hd ht => ?_, fun _ l hl => driven_transmit s v true hl⟩
    · simp only [dataCount_cons, dataCount_nil, if_true, Nat.zero_add] at hc ⊢
      simp only [State.advanceCursor, State.setCursorPosition_cursorPosition, f3]
      have hne : s.cursorPosition ≠ 63#6 := by
        intro h
        rw [h] at hc
        simp at hc
      rw [if_neg hne]
      bv_omega
    · have := (latched_transmit s v true hd ht).2.2
      simp only [State.advanceCursor, State.setCursorPosition_cells]
      rw [this]
      simp [cellsAfterWords]
  · rcases ht' : transmit v true s with u | ⟨e', u⟩
    · rw [ht'] at ht
      simp [Run.bind] at ht
    · rw [ht'] at ht
      simp only [Run.bind, Run.raised.injEq] at ht
      obtain ⟨rfl, rfl⟩ := ht
      exact transmit_raised ht'

/-- `n` null bytes (R87). -/
theorem sendNulls_sends (n : Nat) (s : State) :
    (sendNulls n s).Sends s (List.replicate n (dataWord Config.nullByte)) := by
  induction n generalizing s with
  | zero => exact sends_nil s
  | succ n ih => exact (sendData_sends Config.nullByte s).bind fun t _ => ih t

/-- `PAD24` (R87). -/
theorem pad24_sends (s : State) : (pad24 s).Sends s nullWords := sendNulls_sends Config.hidden s

/-- `DISPLAY_CONTROL` (R101). -/
theorem displayControl_sends (s : State) : (displayControl s).Sends s [instrWord s.dcb] := sendInstr_sends _ s

theorem dcb_congr {s t : State} (h : SameFlags s t) : t.dcb = s.dcb := by
  obtain ⟨h1, h2, h3⟩ := h
  simp [State.dcb, h1, h2, h3]

/-- `CLEAR_SEQ`, after its assignment to the cursor (R121). -/
theorem clearSeq_sends (s : State) :
    (clearSeq s).Sends (s.setCursorPosition 0#6) (clearWords s.dcb) := by
  rw [clearSeq]
  refine (sendInstr_sends Config.clearDisplay _).bind (vs := [instrWord Config.functionSet, instrWord s.dcb,
    instrWord Config.entryMode, instrWord Config.returnHome]) fun t1 h1 => ?_
  refine (sendInstr_sends Config.functionSet _).bind (vs := [instrWord s.dcb,
    instrWord Config.entryMode, instrWord Config.returnHome]) fun t2 h2 => ?_
  have hd : t2.dcb = s.dcb := (dcb_congr h2.flags).trans ((dcb_congr h1.flags).trans rfl)
  rw [← hd]
  refine (displayControl_sends t2).bind (vs := [instrWord Config.entryMode, instrWord Config.returnHome])
    fun t3 _ => ?_
  exact (sendInstr_sends Config.entryMode t3).bind (vs := [instrWord Config.returnHome]) fun t4 _ =>
    sendInstr_sends Config.returnHome t4

end Sys2Proof.Machine
end

