-- ==== Sys2Proof/Laws/Text.lean ====
section
/-! SUPPORT. The laws of the text loops: which words each sends, and that the results' tables (R132, R143) follow. -/

namespace Sys2Proof.Machine

@[simp] theorem dataCount_map_dataWord (bs : List Byte) : dataCount (bs.map dataWord) = bs.length := by
  induction bs with
  | nil => rfl
  | cons b bs ih => simp [ih]

@[simp] theorem dataCount_nullWords : dataCount nullWords = 24 := rfl

@[simp] theorem length_nullWords : nullWords.length = 24 := rfl

@[simp] theorem dataCount_clearWords (v : Byte) : dataCount (clearWords v) = 0 := rfl

/-- The cursor after one data word. -/
theorem SentWords.cursor_one {s t : State} {v : Byte} (h : SentWords s t [dataWord v])
    (hc : s.cursorPosition.toNat + 1 ≤ 63) : t.cursorPosition.toNat = s.cursorPosition.toNat + 1 := by
  have := h.cursor (by simpa using hc)
  simpa using this

/-- The cursor after the skip. -/
theorem SentWords.cursor_skip {s t : State} (h : SentWords s t nullWords)
    (hc : s.cursorPosition.toNat = 16) : t.cursorPosition.toNat = 40 := by
  have := h.cursor (by simp [hc])
  simpa [hc] using this

/-! ## SET_TEXT -/

/-- Past the padding boundary the loop sends the characters alone. -/
theorem setTextLoop_late (bs : List Byte) (s : State) (h : 16 ≤ s.cursorPosition.toNat)
    (hl : s.cursorPosition.toNat + bs.length ≤ 63) : (setTextLoop bs s).Sends s (bs.map dataWord) := by
  induction bs generalizing s with
  | nil => exact sends_nil s
  | cons b bs ih =>
    rw [List.length_cons] at hl
    refine (sendData_sends b s).bind fun t ht => ?_
    have hc := ht.cursor_one (by omega)
    rw [if_neg (by simp only [Config.padAt]; omega)]
    exact ih t (by omega) (by omega)

/-- From row 0: the skip follows the character sent at position 15 (R131, R133, R134). -/
theorem setTextLoop_sends (bs : List Byte) (s : State) (h : s.cursorPosition.toNat ≤ 15)
    (hl : s.cursorPosition.toNat + bs.length ≤ 32) :
    (setTextLoop bs s).Sends s
      (if s.cursorPosition.toNat + bs.length < 16 then bs.map dataWord
        else (bs.take (16 - s.cursorPosition.toNat)).map dataWord ++ nullWords
          ++ (bs.drop (16 - s.cursorPosition.toNat)).map dataWord) := by
  induction bs generalizing s with
  | nil =>
    rw [if_pos (by simp only [List.length_nil]; omega)]
    exact sends_nil s
  | cons b bs ih =>
    rw [List.length_cons] at hl ⊢
    have h1 : 16 - s.cursorPosition.toNat = (15 - s.cursorPosition.toNat) + 1 := by omega
    rw [h1, List.take_succ_cons, List.drop_succ_cons, List.map_cons, List.map_cons]
    have hw : (if s.cursorPosition.toNat + (bs.length + 1) < 16 then dataWord b :: bs.map dataWord
        else dataWord b :: (bs.take (15 - s.cursorPosition.toNat)).map dataWord ++ nullWords
          ++ (bs.drop (15 - s.cursorPosition.toNat)).map dataWord) = [dataWord b] ++
        (if s.cursorPosition.toNat + (bs.length + 1) < 16 then bs.map dataWord
        else (bs.take (15 - s.cursorPosition.toNat)).map dataWord ++ nullWords
          ++ (bs.drop (15 - s.cursorPosition.toNat)).map dataWord) := by
      split <;> simp
    rw [hw]
    refine (sendData_sends b s).bind fun t ht => ?_
    have hc := ht.cursor_one (by omega)
    by_cases h15 : s.cursorPosition.toNat = 15
    · rw [if_pos h15, if_neg (by omega), h15]
      simp only [Nat.sub_self, List.take_zero, List.map_nil, List.nil_append, List.drop_zero]
      refine (pad24_sends t).bind fun u hu => ?_
      have hcu := hu.cursor_skip (by omega)
      exact setTextLoop_late bs u (by omega) (by omega)
    · rw [if_neg (by simpa using h15)]
      have := ih t (by omega) (by omega)
      rw [hc] at this
      have e1 : s.cursorPosition.toNat + 1 + bs.length = s.cursorPosition.toNat + (bs.length + 1) := by omega
      have e2 : 16 - (s.cursorPosition.toNat + 1) = 15 - s.cursorPosition.toNat := by omega
      rwa [e1, e2] at this

/-! ## APPEND -/

/-- From past position 16 the loop sends the characters alone. -/
theorem appendLoop_late (bs : List Byte) (s : State) (h : 17 ≤ s.cursorPosition.toNat)
    (hl : s.cursorPosition.toNat + bs.length ≤ 63) : (appendLoop bs s).Sends s (bs.map dataWord) := by
  induction bs generalizing s with
  | nil => exact sends_nil s
  | cons b bs ih =>
    rw [List.length_cons] at hl
    rw [appendLoop, if_neg (by simp only [Config.row0End]; omega)]
    refine (sendData_sends b s).bind fun t ht => ?_
    have hc := ht.cursor_one (by omega)
    exact ih t (by omega) (by omega)

/-- From row 0 or the boundary: the skip comes before the character that would stand at 16 (R142). -/
theorem appendLoop_sends (bs : List Byte) (s : State) (h : s.cursorPosition.toNat ≤ 16)
    (hl : s.cursorPosition.toNat + bs.length ≤ 32) :
    (appendLoop bs s).Sends s
      (if s.cursorPosition.toNat + bs.length ≤ 16 then bs.map dataWord
        else (bs.take (16 - s.cursorPosition.toNat)).map dataWord ++ nullWords
          ++ (bs.drop (16 - s.cursorPosition.toNat)).map dataWord) := by
  induction bs generalizing s with
  | nil =>
    rw [if_pos (by simp only [List.length_nil]; omega)]
    exact sends_nil s
  | cons b bs ih =>
    rw [List.length_cons] at hl ⊢
    by_cases h16 : s.cursorPosition.toNat = 16
    · rw [appendLoop, if_pos h16, if_neg (by omega), h16]
      simp only [Nat.sub_self, List.take_zero, List.map_nil, List.nil_append, List.drop_zero]
      refine (pad24_sends s).bind fun u hu => ?_
      have hcu := hu.cursor_skip h16
      refine (sendData_sends b u).bind (vs := bs.map dataWord) fun t ht => ?_
      have hc := ht.cursor_one (by omega)
      exact appendLoop_late bs t (by omega) (by omega)
    · rw [appendLoop, if_neg (by simpa using h16)]
      have h1 : 16 - s.cursorPosition.toNat = (15 - s.cursorPosition.toNat) + 1 := by omega
      rw [h1, List.take_succ_cons, List.drop_succ_cons, List.map_cons, List.map_cons]
      have hw : (if s.cursorPosition.toNat + (bs.length + 1) ≤ 16 then dataWord b :: bs.map dataWord
          else dataWord b :: (bs.take (15 - s.cursorPosition.toNat)).map dataWord ++ nullWords
            ++ (bs.drop (15 - s.cursorPosition.toNat)).map dataWord) = [dataWord b] ++
          (if s.cursorPosition.toNat + (bs.length + 1) ≤ 16 then bs.map dataWord
          else (bs.take (15 - s.cursorPosition.toNat)).map dataWord ++ nullWords
            ++ (bs.drop (15 - s.cursorPosition.toNat)).map dataWord) := by
        split <;> simp
      rw [hw]
      refine (sendData_sends b s).bind fun t ht => ?_
      have hc := ht.cursor_one (by omega)
      have := ih t (by omega) (by omega)
      rw [hc] at this
      have e1 : s.cursorPosition.toNat + 1 + bs.length = s.cursorPosition.toNat + (bs.length + 1) := by omega
      have e2 : 16 - (s.cursorPosition.toNat + 1) = 15 - s.cursorPosition.toNat := by omega
      rwa [e1, e2] at this

/-! ## The operations' words -/

theorem charWords_eq (text : List CodePoint) : charWords text = (text.map byteOfCodePoint).map dataWord := by
  simp [charWords]

theorem encodeText_ok {text : List CodePoint} {bytes : List Byte} (h : encodeText text = .ok bytes) :
    (∀ c ∈ text, c < 128) ∧ bytes = text.map byteOfCodePoint := by
  unfold encodeText at h
  split at h
  · rename_i hc
    simp only [Except.ok.injEq] at h
    exact ⟨hc, h.symm⟩
  · simp at h

theorem encodeText_error {text : List CodePoint} {e : Status} (h : encodeText text = .error e) :
    e = .encodingError := by
  unfold encodeText at h
  split at h
  · simp at h
  · simpa using h.symm

/-- `SET_TEXT` after its checks: the five instructions and the words of R132. -/
theorem setTextLoop_words (text : List CodePoint) (s : State) (h : s.cursorPosition = 0#6)
    (hl : text.length ≤ 32) :
    (setTextLoop (text.map byteOfCodePoint) s).Sends s (setTextWords text) := by
  have h0 : s.cursorPosition.toNat = 0 := by simp [h]
  have := setTextLoop_sends (text.map byteOfCodePoint) s (by omega) (by simp; omega)
  rw [h0] at this
  simpa only [List.length_map, Nat.zero_add, Nat.sub_zero, setTextWords, charWords_eq, List.map_take,
    List.map_drop] using this

/-- The capacity rule in numbers (R140). -/
theorem capacityOk_iff (c l : Nat) : capacityOk c l = true ↔ (c ≤ 16 ∧ c + l ≤ 32) ∨ (39 ≤ c ∧ c + l ≤ 56) := by
  simp only [capacityOk, Config.row0End, Config.hidden, Config.span, Config.row1Min, Bool.or_eq_true,
    Bool.and_eq_true, decide_eq_true_eq]
  omega

/-- `APPEND` after its checks: the words of R143. -/
theorem appendLoop_words (text : List CodePoint) (s : State)
    (h : capacityOk s.cursorPosition.toNat text.length = true) :
    (appendLoop (text.map byteOfCodePoint) s).Sends s (appendWords s.cursorPosition.toNat text) := by
  rcases (capacityOk_iff _ _).1 h with ⟨h1, h2⟩ | ⟨h1, h2⟩
  · have := appendLoop_sends (text.map byteOfCodePoint) s h1 (by simpa using h2)
    rw [List.length_map] at this
    rw [appendWords]
    by_cases h3 : s.cursorPosition.toNat + text.length ≤ 16
    · rw [if_pos h3] at this
      rw [if_neg (by omega)]
      simpa only [charWords_eq] using this
    · rw [if_neg h3] at this
      rw [if_pos (by omega)]
      simpa only [charWords_eq, List.map_take, List.map_drop] using this
  · rw [appendWords, if_neg (by omega), charWords_eq]
    exact appendLoop_late _ s (by omega) (by simpa using by omega)

@[simp] theorem length_charWords (text : List CodePoint) : (charWords text).length = text.length := by
  simp [charWords]

@[simp] theorem dataCount_charWords (text : List CodePoint) : dataCount (charWords text) = text.length := by
  rw [charWords_eq, dataCount_map_dataWord, List.length_map]

theorem dataCount_setTextWords (text : List CodePoint) : dataCount (setTextWords text) = setTextEnd text.length := by
  unfold setTextWords setTextEnd
  split
  · simp
  · simp
    omega

theorem length_setTextWords (text : List CodePoint) : (setTextWords text).length = setTextEnd text.length := by
  unfold setTextWords setTextEnd
  split
  · simp
  · simp
    omega

theorem length_appendWords (c : Nat) (text : List CodePoint) :
    c + (appendWords c text).length = appendEnd c text.length := by
  unfold appendWords appendEnd
  split
  · simp
    omega
  · simp

theorem dataCount_appendWords (c : Nat) (text : List CodePoint) :
    c + dataCount (appendWords c text) = appendEnd c text.length := by
  unfold appendWords appendEnd
  split
  · simp
    omega
  · simp

end Sys2Proof.Machine
end

