-- ==== Sys2Proof/Laws/Exec.lean ====
section
/-! SUPPORT. The laws of whole operations: what remains of one once its checks have passed, and how a run of words
ends it. -/

namespace Sys2Proof.Machine

/-! ## Ending -/

@[simp] theorem levelOf_endWith (s : State) (e : Status) (l : LineId) : (s.endWith e).levelOf l = s.levelOf l := rfl
@[simp] theorem readCell_endWith (s : State) (e : Status) (p : Nat) : (s.endWith e).readCell p = s.readCell p := rfl
@[simp] theorem levelOf_setLifecycle (s : State) (c : Lifecycle) (l : LineId) :
    (s.setLifecycle c).levelOf l = s.levelOf l := rfl
@[simp] theorem readCell_setLifecycle (s : State) (c : Lifecycle) (p : Nat) :
    (s.setLifecycle c).readCell p = s.readCell p := rfl

/-- Returning a status to an idle block is all that ending an operation does. -/
theorem endWith_idle {s : State} (h : s.seq = .idle) (e : Status) : s.endWith e = s.setReturned e := by
  cases s
  simp only at h
  subst h
  rfl

theorem hostOp_idle {s : State} (h : s.seq = .idle) (k : State → Run) : hostOp k s = finish (k s) := by
  rw [hostOp, if_pos h]

theorem finish_raise_precise {s : State} (h : s.seq = .idle) {e : Status}
    (he : e = .validationError ∨ e = .encodingError ∨ e = .lifecycleFault) :
    finish (raise e s) = .next (s.setReturned e) := by
  rcases he with rfl | rfl | rfl <;> exact congrArg _ (endWith_idle h _)

/-- A quiet run of words goes on to its end. -/
theorem Run.Sends.ok {r : Run} {s : State} {ws : List Latch} (h : r.Sends s ws)
    (hq : s.quietFor (21 * ws.length)) : ∃ t, r = .going t ∧ SentWords s t ws := by
  obtain ⟨t, ht⟩ := h.quiet hq
  exact ⟨t, ht, (h.going t ht).2⟩

/-- A run of words that is not quiet is cut short. -/
theorem Run.Sends.cut {r : Run} {s : State} {ws : List Latch} (h : r.Sends s ws)
    (hq : ¬ s.quietFor (21 * ws.length)) : ∃ t n, r = .raised .hardwareFault t ∧ CutWords s t ws n := by
  cases r with
  | going t => exact absurd (h.going t rfl).1 hq
  | raised e t =>
    obtain ⟨rfl, n, hc⟩ := h.raised e t rfl
    exact ⟨t, n, rfl, hc⟩

theorem Transmitted.endWith {s t : State} {ws : List Latch} (h : Transmitted s t ws) (e : Status) :
    Transmitted s (t.endWith e) ws := h

theorem Transmitted.of_setCursor {s t : State} {ws : List Latch} {c : BitVec 6}
    (h : Transmitted (s.setCursorPosition c) t ws) : Transmitted s t ws := h

/-! ## Past the checks -/

theorem afterChecks_ok {α : Type} {c : Except Status α} {a : α} (h : c = .ok a) (s : State) (k : α → State → Run) :
    afterChecks c s k = k a s := by
  rw [h]
  rfl

theorem checkReady_ok {s : State} (h : s.lifecycle = .ready) : checkReady s = .ok () := if_pos h

theorem checkReady_error {s : State} (h : s.lifecycle ≠ .ready) : checkReady s = .error .lifecycleFault := if_neg h

theorem clearOp_ready {s : State} (h : s.lifecycle = .ready) : clearOp s = clearSeq s :=
  afterChecks_ok (checkReady_ok h) s _

theorem modeOp_ready {s : State} (h : s.lifecycle = .ready) (f : State → State) :
    modeOp f s = displayControl (f s) := afterChecks_ok (checkReady_ok h) s _

theorem encodeText_of_ascii {text : List CodePoint} (h : ∀ c ∈ text, c < 128) :
    encodeText text = .ok (text.map byteOfCodePoint) := if_pos h

theorem encodeText_of_not_ascii {text : List CodePoint} (h : ∃ c ∈ text, 128 ≤ c) :
    encodeText text = .error .encodingError := by
  refine if_neg fun hc => ?_
  obtain ⟨c, hm, hl⟩ := h
  exact absurd (hc c hm) (Nat.not_lt.2 hl)

theorem checkSetText_ok {text : List CodePoint} {s : State} (h : s.lifecycle = .ready) (hl : text.length ≤ 32)
    (ha : ∀ c ∈ text, c < 128) : checkSetText text s = .ok (text.map byteOfCodePoint) := by
  rw [checkSetText, if_neg (by simp [h]), if_neg (by simpa using hl), encodeText_of_ascii ha]

theorem checkAppend_ok {text : List CodePoint} {s : State} (h : s.lifecycle = .ready) (hne : text ≠ [])
    (hc : capacityOk s.cursorPosition.toNat text.length = true) (ha : ∀ c ∈ text, c < 128) :
    checkAppend text s = .ok (text.map byteOfCodePoint) := by
  rw [checkAppend, if_neg (by simp [h]), if_neg (by simpa using hne), if_neg (by simp [hc]), encodeText_of_ascii ha]

theorem setTextOp_sends {text : List CodePoint} {s : State} (h : s.lifecycle = .ready) (hl : text.length ≤ 32)
    (ha : ∀ c ∈ text, c < 128) :
    (setTextOp text s).Sends (s.setCursorPosition 0#6) (clearWords s.dcb ++ setTextWords text) := by
  rw [setTextOp, afterChecks_ok (checkSetText_ok h hl ha)]
  refine (clearSeq_sends s).bind fun t ht => setTextLoop_words text t ?_ hl
  rw [ht.instrCursor (by simp)]
  rfl

theorem appendOp_sends {text : List CodePoint} {s : State} (h : s.lifecycle = .ready) (hne : text ≠ [])
    (hc : capacityOk s.cursorPosition.toNat text.length = true) (ha : ∀ c ∈ text, c < 128) :
    (appendOp text s).Sends s (appendWords s.cursorPosition.toNat text) := by
  rw [appendOp, afterChecks_ok (checkAppend_ok h hne hc ha)]
  exact appendLoop_words text s hc

theorem dataLinesOf_toList (d : Vector LineId 8) : dataLinesOf d.toList = .ok d := by
  rw [dataLinesOf, dif_pos (by simp)]
  rfl

theorem dataLinesOf_error {d : List LineId} (h : d.length ≠ 8) : dataLinesOf d = .error .validationError := dif_neg h

theorem checkConstruct_ok {d : Vector LineId 8} {s : State} (h : s.lifecycle = .unbound ∨ s.lifecycle = .released) :
    checkConstruct d.toList s = .ok d := by
  rw [checkConstruct, if_neg (by rcases h with h | h <;> simp [h]), dataLinesOf_toList]

/-! ## The line set-up (R162) -/

theorem length_setupCalls (s : State) : (setupCalls s).length = 20 := by
  rw [setupCalls, lines_eq]
  rfl

theorem levelOf_setup_list (ls : List LineId) (s : State) (l : LineId) :
    (applyAll (ls.flatMap fun l => [.cfg l, .write l false]) s).levelOf l =
      if l ∈ ls then .low else s.levelOf l := by
  induction ls generalizing s with
  | nil => rfl
  | cons a ls ih =>
    rw [List.flatMap_cons, applyAll_append, ih]
    simp only [applyAll, levelOf_applyCall_write, levelOf_applyCall_cfg, levelOf_recordCall, levelOfBool_false,
      List.mem_cons]
    by_cases h1 : l ∈ ls
    · simp [h1]
    · by_cases h2 : l = a <;> simp [h1, h2]

theorem levelOf_setup (s : State) (l : LineId) :
    (applyAll (setupCalls s) s).levelOf l = if l ∈ s.lines then .low else s.levelOf l :=
  levelOf_setup_list s.lines s l

/-- Where a set-up is cut short: at the claim of line `k`, or at its write. -/
theorem setup_list_split {ls : List LineId} {pre post : List BackendCall} {c : BackendCall}
    (h : ls.flatMap (fun l => [BackendCall.cfg l, .write l false]) = pre ++ c :: post) :
    ∃ k l, ls[k]? = some l ∧
      ((c = .cfg l ∧ pre.length = 2 * k ∧ pre = (ls.take k).flatMap fun l => [.cfg l, .write l false]) ∨
        (c = .write l false ∧ pre.length = 2 * k + 1 ∧
          pre = ((ls.take k).flatMap fun l => [.cfg l, .write l false]) ++ [.cfg l])) := by
  induction ls generalizing pre with
  | nil => simp at h
  | cons a ls ih =>
    rw [List.flatMap_cons] at h
    match pre, h with
    | [], h =>
      cases h
      exact ⟨0, a, rfl, .inl ⟨rfl, rfl, rfl⟩⟩
    | [x], h =>
      cases h
      exact ⟨0, a, rfl, .inr ⟨rfl, rfl, rfl⟩⟩
    | x :: y :: pre, h =>
      simp only [List.cons_append, List.nil_append, List.cons.injEq] at h
      obtain ⟨rfl, rfl, h⟩ := h
      obtain ⟨k, l, h1, ⟨h2, h3, h4⟩ | ⟨h2, h3, h4⟩⟩ := ih h
      · exact ⟨k + 1, l, h1, .inl ⟨h2, by rw [List.length_cons, List.length_cons]; omega, by rw [h4]; rfl⟩⟩
      · exact ⟨k + 1, l, h1, .inr ⟨h2, by rw [List.length_cons, List.length_cons]; omega, by rw [h4]; rfl⟩⟩

/-- The set-up shows the controller no falling edge: each line is claimed before it is driven (R162). -/
theorem setup_list_seen (ls : List LineId) (s : State) :
    (applyAll (ls.flatMap fun l => [.cfg l, .write l false]) s).latched = s.latched ∧
      (applyAll (ls.flatMap fun l => [.cfg l, .write l false]) s).stray = s.stray ∧
      (applyAll (ls.flatMap fun l => [.cfg l, .write l false]) s).cells = s.cells := by
  induction ls generalizing s with
  | nil => exact ⟨rfl, rfl, rfl⟩
  | cons a ls ih =>
    rw [List.flatMap_cons, applyAll_append]
    obtain ⟨h1, h2, h3⟩ := ih (applyAll [.cfg a, .write a false] s)
    rw [h1, h2, h3]
    have hl : ∀ e, a = e → ((applyCall (.cfg a) (s.recordCall (.cfg a))).recordCall (.write a false)).levelOf e
        ≠ .high := by
      rintro e rfl
      rw [levelOf_recordCall, levelOf_applyCall_cfg, if_pos rfl]
      simp
    have hw : applyCall (.write a false) ((applyCall (.cfg a) (s.recordCall (.cfg a))).recordCall (.write a false))
        = ((applyCall (.cfg a) (s.recordCall (.cfg a))).recordCall (.write a false)).putLevel a (levelOfBool false) := by
      refine if_neg ?_
      rintro ⟨he, -, hh⟩
      exact hl _ he hh
    rw [applyAll, applyAll, applyAll, hw]
    exact ⟨rfl, rfl, rfl⟩

theorem setup_seen (s : State) :
    (applyAll (setupCalls s) s).latched = s.latched ∧ (applyAll (setupCalls s) s).stray = s.stray ∧
      (applyAll (setupCalls s) s).cells = s.cells := setup_list_seen s.lines s

/-! ## The cells after words -/

/-- Data words fill the cells from the cursor on, one after another, and no other (R86). -/
theorem mapGet_cellsAfterWords_data (bs : List Byte) (c : Nat) (m : Memory) (h : c + bs.length ≤ 63) (p : Nat) :
    mapGet (cellsAfterWords (bs.map dataWord) c m) p =
      if c ≤ p ∧ p < c + bs.length then bs[p - c]? else mapGet m p := by
  induction bs generalizing c m with
  | nil =>
    rw [if_neg (by simp only [List.length_nil]; omega)]
    rfl
  | cons b bs ih =>
    rw [List.length_cons] at h ⊢
    have hc : (BitVec.ofNat 6 c).toNat = c := by
      rw [BitVec.toNat_ofNat]
      omega
    rw [List.map_cons, cellsAfterWords, if_pos rfl, ih (c + 1) _ (by omega), cellsAfterLatch, if_pos rfl,
      memoryWrite, hc]
    by_cases hp : p = c
    · subst hp
      rw [if_neg (by omega), mapGet_mapPut_self, if_pos (by omega), Nat.sub_self]
      rfl
    · rw [mapGet_mapPut_ne hp]
      by_cases hr : c + 1 ≤ p ∧ p < c + 1 + bs.length
      · rw [if_pos hr, if_pos (by omega), show p - c = (p - (c + 1)) + 1 by omega, List.getElem?_cons_succ]
      · rw [if_neg hr, if_neg (by omega)]

theorem nullWords_eq : nullWords = (List.replicate 24 (0x00#8 : Byte)).map dataWord := by
  simp [nullWords]

/-- The cells after data words. -/
theorem SentWords.readCell_data {s t : State} {bs : List Byte} (h : SentWords s t (bs.map dataWord))
    (hc : s.cursorPosition.toNat + bs.length ≤ 63) (hd : s.linesDistinct) (ht : s.timingMet) (p : Nat) :
    t.readCell p =
      if s.cursorPosition.toNat ≤ p ∧ p < s.cursorPosition.toNat + bs.length then bs[p - s.cursorPosition.toNat]?
        else s.readCell p := by
  rw [State.readCell, h.cells (by simpa using hc) hd ht]
  exact mapGet_cellsAfterWords_data bs _ _ hc p

/-- The clear sequence leaves every cell unknown (U9). -/
theorem cellsAfterWords_clearWords (d c b : Bool) (n : Nat) (m : Memory) :
    cellsAfterWords (clearWords (displayControlByte d c b)) n m = [] := by
  cases d <;> cases c <;> cases b <;> rfl

/-- A display-control word writes no cell. -/
theorem cellsAfterWords_displayControl (d c b : Bool) (n : Nat) (m : Memory) :
    cellsAfterWords [instrWord (displayControlByte d c b)] n m = m := by
  cases d <;> cases c <;> cases b <;> rfl

/-! ## One law for every host operation -/

/-- The statuses that leave the state as it was (R191). -/
abbrev Precise (e : Status) : Prop := e = .validationError ∨ e = .encodingError ∨ e = .lifecycleFault

/-- A host operation of the controller's words: everything but `CONSTRUCT` and `DESTRUCT`. -/
def Instr.isSending (i : Instr) : Prop := i.isEmitted = false ∧ (∀ rs e d, i ≠ .construct rs e d) ∧ i ≠ .destruct

theorem checkReady_cases {s : State} {r : Except Status Unit} (h : checkReady s = r) :
    (r = .ok () ∧ s.lifecycle = .ready) ∨ (r = .error .lifecycleFault ∧ s.lifecycle ≠ .ready) := by
  unfold checkReady at h
  split at h <;> simp_all

theorem checkSetText_cases {text : List CodePoint} {s : State} {r : Except Status (List Byte)}
    (h : checkSetText text s = r) :
    (r = .ok (text.map byteOfCodePoint) ∧ s.lifecycle = .ready ∧ text.length ≤ 32 ∧ ∀ c ∈ text, c < 128) ∨
      (r = .error .lifecycleFault ∧ s.lifecycle ≠ .ready) ∨ r = .error .validationError ∨
      r = .error .encodingError := by
  subst h
  unfold checkSetText
  split
  · exact .inr (.inl ⟨rfl, ‹_›⟩)
  · split
    · exact .inr (.inr (.inl rfl))
    · rename_i h1 h2
      cases h : encodeText text with
      | ok b =>
        obtain ⟨ha, rfl⟩ := encodeText_ok h
        exact .inl ⟨rfl, not_not.1 h1, Nat.not_lt.1 h2, ha⟩
      | error e => exact .inr (.inr (.inr (by rw [encodeText_error h])))

theorem checkAppend_cases {text : List CodePoint} {s : State} {r : Except Status (List Byte)}
    (h : checkAppend text s = r) :
    (r = .ok (text.map byteOfCodePoint) ∧ s.lifecycle = .ready ∧ text ≠ [] ∧
        capacityOk s.cursorPosition.toNat text.length = true ∧ ∀ c ∈ text, c < 128) ∨
      (r = .error .lifecycleFault ∧ s.lifecycle ≠ .ready) ∨ r = .error .validationError ∨
      r = .error .encodingError := by
  subst h
  unfold checkAppend
  split
  · exact .inr (.inl ⟨rfl, ‹_›⟩)
  · split
    · exact .inr (.inr (.inl rfl))
    · split
      · exact .inr (.inr (.inl rfl))
      · rename_i h1 h2 h3
        cases h : encodeText text with
        | ok b =>
          obtain ⟨ha, rfl⟩ := encodeText_ok h
          exact .inl ⟨rfl, not_not.1 h1, fun hn => h2 (by rw [hn]; rfl), by simpa using h3, ha⟩
        | error e => exact .inr (.inr (.inr (by rw [encodeText_error h])))

theorem checkConstruct_cases {d : List LineId} {s : State} {r : Except Status (Vector LineId 8)}
    (h : checkConstruct d s = r) :
    (∃ v : Vector LineId 8, r = .ok v ∧ v.toList = d ∧ (s.lifecycle = .unbound ∨ s.lifecycle = .released)) ∨
      (r = .error .lifecycleFault ∧ s.lifecycle ≠ .unbound ∧ s.lifecycle ≠ .released) ∨
      r = .error .validationError := by
  subst h
  unfold checkConstruct
  split
  · exact .inr (.inl ⟨rfl, ‹_›⟩)
  · rename_i h1
    unfold dataLinesOf
    split
    · exact .inl ⟨_, rfl, rfl, by tauto⟩
    · exact .inr (.inr rfl)

/-- What a check of an operation turns into: the status, with nothing changed, or the operation's body. -/
theorem finish_afterChecks {α : Type} {c : Except Status α} {s : State} (hs : s.seq = .idle)
    (hc : ∀ e, c = .error e → Precise e) (k : α → State → Run) :
    (∃ e, c = .error e ∧ Precise e ∧ finish (afterChecks c s k) = .next (s.setReturned e)) ∨
      ∃ a, c = .ok a ∧ afterChecks c s k = k a s := by
  cases c with
  | error e => exact .inl ⟨e, rfl, hc e rfl, finish_raise_precise hs (hc e rfl)⟩
  | ok a => exact .inr ⟨a, rfl, rfl⟩

theorem checkReady_precise {s : State} {e : Status} (h : checkReady s = .error e) : Precise e := by
  rcases checkReady_cases h with ⟨h, -⟩ | ⟨h, -⟩
  · cases h
  · cases h
    exact .inr (.inr rfl)

theorem checkSetText_precise {text : List CodePoint} {s : State} {e : Status}
    (h : checkSetText text s = .error e) : Precise e := by
  rcases checkSetText_cases h with ⟨h, -⟩ | ⟨h, -⟩ | h | h <;> cases h
  · exact .inr (.inr rfl)
  · exact .inl rfl
  · exact .inr (.inl rfl)

theorem checkAppend_precise {text : List CodePoint} {s : State} {e : Status}
    (h : checkAppend text s = .error e) : Precise e := by
  rcases checkAppend_cases h with ⟨h, -⟩ | ⟨h, -⟩ | h | h <;> cases h
  · exact .inr (.inr rfl)
  · exact .inl rfl
  · exact .inr (.inl rfl)

theorem checkConstruct_precise {d : List LineId} {s : State} {e : Status}
    (h : checkConstruct d s = .error e) : Precise e := by
  rcases checkConstruct_cases h with ⟨v, h, -⟩ | ⟨h, -⟩ | h <;> cases h
  · exact .inr (.inr rfl)
  · exact .inl rfl

theorem mode_cases (i : Instr) (f : State → State) (s : State) (hs : s.seq = .idle)
    (he : exec i s = hostOp (modeOp f) s)
    (hr : refusalOf i s = refusalOf .clear s)
    (hf : firstWrites i s = f s) (hw : opWords i s = [instrWord (f s).dcb]) :
    (∃ e, refusalOf i s = some e ∧ Precise e ∧ exec i s = .next (s.setReturned e)) ∨
      (refusalOf i s = none ∧ s.lifecycle = .ready ∧ ∃ r, exec i s = finish r ∧
        r.Sends (firstWrites i s) (opWords i s)) := by
  rw [he, hostOp_idle hs, modeOp, hr, hf, hw]
  rcases finish_afterChecks (c := checkReady s) hs (fun e h => checkReady_precise h)
      (fun _ t => displayControl (f t)) with ⟨e, h1, h2, h3⟩ | ⟨a, h1, h2⟩
  · exact .inl ⟨e, by simp only [refusalOf, h1], h2, h3⟩
  · refine .inr ⟨by simp only [refusalOf, h1], ?_, _, congrArg finish h2, displayControl_sends _⟩
    rcases checkReady_cases h1 with ⟨-, h⟩ | ⟨h, -⟩
    · exact h
    · cases h

/-- Every host operation but `CONSTRUCT` and `DESTRUCT`, asked for at an idle block, is refused by its checks with
nothing changed, or writes its first registers and sends its words. -/
theorem sending_cases {i : Instr} (hi : Instr.isSending i) {s : State} (hs : s.seq = .idle) :
    (∃ e, refusalOf i s = some e ∧ Precise e ∧ exec i s = .next (s.setReturned e)) ∨
      (refusalOf i s = none ∧ s.lifecycle = .ready ∧ ∃ r, exec i s = finish r ∧
        r.Sends (firstWrites i s) (opWords i s)) := by
  obtain ⟨hi, hc, hd⟩ := hi
  cases i with
  | construct rs e d => exact absurd rfl (hc rs e d)
  | destruct => exact absurd rfl hd
  | iClear => cases hi
  | iFunc => cases hi
  | iDisp d c b => cases hi
  | iEntry => cases hi
  | iHome => cases hi
  | dChar c => cases hi
  | dNull => cases hi
  | clear =>
    simp only [exec, execClear, hostOp_idle hs, clearOp]
    rcases finish_afterChecks (c := checkReady s) hs (fun e h => checkReady_precise h)
        (fun _ t => clearSeq t) with ⟨e, h1, h2, h3⟩ | ⟨a, h1, h2⟩
    · exact .inl ⟨e, by simp only [refusalOf, h1], h2, h3⟩
    · refine .inr ⟨by simp only [refusalOf, h1], ?_, _, congrArg finish h2, clearSeq_sends s⟩
      rcases checkReady_cases h1 with ⟨-, h⟩ | ⟨h, -⟩
      · exact h
      · cases h
  | setText text =>
    simp only [exec, execSetText, hostOp_idle hs, setTextOp]
    rcases finish_afterChecks (c := checkSetText text s) hs (fun e h => checkSetText_precise h)
        (fun bytes t => (clearSeq t).bind (setTextLoop bytes)) with ⟨e, h1, h2, h3⟩ | ⟨a, h1, h2⟩
    · exact .inl ⟨e, by simp only [refusalOf, h1], h2, h3⟩
    · rcases checkSetText_cases h1 with ⟨h, k1, k2, k3⟩ | ⟨h, -⟩ | h | h <;> cases h
      exact .inr ⟨by simp only [refusalOf, h1], k1, _, rfl, setTextOp_sends k1 k2 k3⟩
  | append text =>
    simp only [exec, execAppend, hostOp_idle hs, appendOp]
    rcases finish_afterChecks (c := checkAppend text s) hs (fun e h => checkAppend_precise h)
        (fun bytes t => appendLoop bytes t) with ⟨e, h1, h2, h3⟩ | ⟨a, h1, h2⟩
    · exact .inl ⟨e, by simp only [refusalOf, h1], h2, h3⟩
    · rcases checkAppend_cases h1 with ⟨h, k1, k2, k3, k4⟩ | ⟨h, -⟩ | h | h <;> cases h
      exact .inr ⟨by simp only [refusalOf, h1], k1, _, rfl, appendOp_sends k1 k2 k3 k4⟩
  | setDisplay b => exact mode_cases _ _ s hs rfl rfl rfl rfl
  | setCursor b => exact mode_cases _ _ s hs rfl rfl rfl rfl
  | setBlink b => exact mode_cases _ _ s hs rfl rfl rfl rfl
  | displayOn => exact mode_cases _ _ s hs rfl rfl rfl rfl
  | displayOff => exact mode_cases _ _ s hs rfl rfl rfl rfl
  | cursorOn => exact mode_cases _ _ s hs rfl rfl rfl rfl
  | cursorOff => exact mode_cases _ _ s hs rfl rfl rfl rfl
  | blinkOn => exact mode_cases _ _ s hs rfl rfl rfl rfl
  | blinkOff => exact mode_cases _ _ s hs rfl rfl rfl rfl

/-- An accepted operation's words are as many as R230 counts, 21 calls each. -/
theorem length_opWords {i : Instr} (hi : Instr.isSending i) (s : State) :
    21 * (opWords i s).length = callCount i s := by
  obtain ⟨hi, hc, hd⟩ := hi
  cases i with
  | construct rs e d => exact absurd rfl (hc rs e d)
  | destruct => exact absurd rfl hd
  | iClear | iFunc | iDisp _ _ _ | iEntry | iHome | dChar _ | dNull => cases hi
  | setText text =>
    simp only [opWords, List.length_append, length_setTextWords, callCount, setTextEnd, clearWords,
      List.length_cons, List.length_nil]
    split <;> omega
  | append text =>
    have := length_appendWords s.cursorPosition.toNat text
    simp only [opWords, callCount, appendEnd] at this ⊢
    split at this <;> rename_i h
    · rw [if_pos h]
      omega
    · rw [if_neg h]
      omega
  | _ => rfl

/-- The six-bit register holds the cursor of an accepted operation to its end (R14, R147). -/
theorem cursor_opWords {i : Instr} {s : State} (h : refusalOf i s = none) :
    (firstWrites i s).cursorPosition.toNat + dataCount (opWords i s) ≤ 63 := by
  have hc := s.cursorPosition.isLt
  have hw : ∀ v, dataCount [instrWord v] = 0 := fun _ => rfl
  have hclear : ∀ v, dataCount (clearWords v) = 0 := fun _ => rfl
  cases i with
  | construct rs e d =>
    simp only [opWords, hclear, firstWrites]
    split
    · exact Nat.zero_le 63
    · omega
  | setText text =>
    have hl : text.length ≤ 32 := by
      rcases hr : checkSetText text s with er | b
      · simp [refusalOf, hr] at h
      · rcases checkSetText_cases hr with ⟨-, -, k, -⟩ | ⟨k, -⟩ | k | k <;> first | exact k | cases k
    have hn : dataCount (setTextWords text) ≤ (setTextWords text).length := List.countP_le_length
    rw [length_setTextWords, setTextEnd] at hn
    simp only [opWords, dataCount_append, hclear, firstWrites, State.setCursorPosition_cursorPosition,
      BitVec.toNat_ofNat]
    split at hn <;> omega
  | append text =>
    have hk : capacityOk s.cursorPosition.toNat text.length = true := by
      rcases hr : checkAppend text s with er | b
      · simp [refusalOf, hr] at h
      · rcases checkAppend_cases hr with ⟨-, -, -, k, -⟩ | ⟨k, -⟩ | k | k <;> first | exact k | cases k
    have hn : dataCount (appendWords s.cursorPosition.toNat text) ≤ _ := List.countP_le_length
    have ha := length_appendWords s.cursorPosition.toNat text
    simp only [opWords, firstWrites]
    simp [capacityOk] at hk
    simp only [appendEnd] at ha
    split at ha <;> omega
  | clear => exact Nat.zero_le 63
  | _ => exact Nat.le_trans (Nat.le_of_eq (by simp only [opWords, hw, dataCount_nil, firstWrites]; rfl)) (Nat.le_of_lt_succ hc)

/-- `CONSTRUCT` at an idle block: refused by its checks with nothing changed, or the set-up and the clear sequence
(R161). -/
theorem construct_cases (rs e : LineId) (d : List LineId) {s : State} (hs : s.seq = .idle) :
    (∃ er, refusalOf (.construct rs e d) s = some er ∧ Precise er ∧
        exec (.construct rs e d) s = .next (s.setReturned er)) ∨
      ∃ v : Vector LineId 8, refusalOf (.construct rs e d) s = none ∧ v.toList = d ∧
        (s.lifecycle = .unbound ∨ s.lifecycle = .released) ∧
        exec (.construct rs e d) s =
          finish ((emitAll (setupCalls (constructed rs e v s)) (constructed rs e v s)).bind fun u =>
            (clearSeq u).bind fun u => .going (u.setLifecycle .ready)) := by
  simp only [exec, execConstruct, hostOp_idle hs, constructOp]
  rcases finish_afterChecks (c := checkConstruct d s) hs (fun e h => checkConstruct_precise h) (fun v t =>
      let u := constructed rs e v t
      (emitAll (setupCalls u) u).bind fun u => (clearSeq u).bind fun u => .going (u.setLifecycle .ready))
    with ⟨e, h1, h2, h3⟩ | ⟨v, h1, h2⟩
  · exact .inl ⟨e, by simp only [refusalOf, h1], h2, h3⟩
  · rcases checkConstruct_cases h1 with ⟨v', h, k1, k2⟩ | ⟨h, -⟩ | h <;> cases h
    exact .inr ⟨v, by simp only [refusalOf, h1], k1, k2, by rw [h2]⟩

/-- A host operation that answers a next state was asked for at an idle block (R197). -/
theorem idle_of_next {i : Instr} (hi : i.isEmitted = false) {s t : State} (h : exec i s = .next t) :
    s.seq = .idle := by
  by_contra hs
  have : ∀ k, hostOp k s ≠ .next t := fun k => by
    rw [hostOp, if_neg hs]
    simp
  cases i with
  | iClear | iFunc | iDisp _ _ _ | iEntry | iHome | dChar _ | dNull => cases hi
  | _ => exact this _ h

/-- What an operation's first register writes leave alone. Only `CONSTRUCT` binds lines. -/
theorem firstWrites_frame (i : Instr) (s : State) :
    (firstWrites i s).calls = s.calls ∧ (firstWrites i s).events = s.events ∧ (firstWrites i s).seq = s.seq ∧
      (firstWrites i s).lifecycle = s.lifecycle ∧ (firstWrites i s).latched = s.latched ∧
      (firstWrites i s).levels = s.levels ∧ (firstWrites i s).cells = s.cells ∧
      ((∀ rs e d, i ≠ .construct rs e d) → SameLines s (firstWrites i s)) ∧ SameInputs s (firstWrites i s) := by
  cases i with
  | construct rs e d =>
    simp only [firstWrites]
    split <;> exact ⟨rfl, rfl, rfl, rfl, rfl, rfl, rfl, fun h => absurd rfl (h rs e d), rfl, rfl, rfl, rfl⟩
  | _ => exact ⟨rfl, rfl, rfl, rfl, rfl, rfl, rfl, fun _ => ⟨rfl, rfl, rfl⟩, rfl, rfl, rfl, rfl⟩

/-- The registers of a `CONSTRUCT` that has its eight lines (R161). -/
theorem firstWrites_construct (rs e : LineId) (v : Vector LineId 8) (s : State) :
    firstWrites (.construct rs e v.toList) s = constructed rs e v s := by
  obtain ⟨⟨l⟩, h⟩ := v
  simp only [List.size_toArray] at h
  simp [firstWrites, dataLinesOf, h]

/-! ## How a run of words ends an instruction -/

theorem finish_sends {r : Run} {s t : State} {ws : List Latch} (h : r.Sends s ws) (ht : finish r = .next t) :
    (∃ u, t = u.endWith .ok ∧ SentWords s u ws) ∨ ∃ u n, t = u.endWith .hardwareFault ∧ CutWords s u ws n := by
  cases r with
  | going u =>
    cases ht
    exact .inl ⟨u, rfl, (h.going _ rfl).2⟩
  | raised e u =>
    cases ht
    obtain ⟨rfl, n, hc⟩ := h.raised e u rfl
    exact .inr ⟨u, n, rfl, hc⟩

theorem finishWord_sends {r : Run} {s t : State} {ws : List Latch} (h : r.Sends s ws)
    (ht : finishWord r = .next t) :
    SentWords s t ws ∨ ∃ u n, t = u.endWith .hardwareFault ∧ CutWords s u ws n := by
  cases r with
  | going u =>
    cases ht
    exact .inl (h.going _ rfl).2
  | raised e u =>
    cases ht
    obtain ⟨rfl, n, hc⟩ := h.raised e u rfl
    exact .inr ⟨u, n, rfl, hc⟩

/-- An emitted word is one run of its own word. -/
theorem emitted_sends {i : Instr} {v : Byte} {rs : Bool} (h : wordParts i = some (v, rs)) (s : State) :
    ∃ r, exec i s = finishWord r ∧ r.Sends s [⟨rs, v⟩] := by
  cases i with
  | iClear | iFunc | iDisp _ _ _ | iEntry | iHome =>
    simp only [wordParts, Option.some.injEq, Prod.mk.injEq] at h
    obtain ⟨rfl, rfl⟩ := h
    exact ⟨_, rfl, sendInstr_sends _ s⟩
  | dChar _ | dNull =>
    simp only [wordParts, Option.some.injEq, Prod.mk.injEq] at h
    obtain ⟨rfl, rfl⟩ := h
    exact ⟨_, rfl, sendData_sends _ s⟩
  | _ => cases h

end Sys2Proof.Machine
end

