-- ==== Sys2Proof/Laws/Kept.lean ====
section
/-! SUPPORT. A property that every elementary act of an operation keeps is kept by whole operations, however they
end. -/

namespace Sys2Proof.Machine

variable {P : State → Prop}

/-- A property that backend calls, writes of the cursor and the return of a status all keep. -/
structure KeptByActs (P : State → Prop) : Prop extends KeptByCalls P where
  cursor : ∀ s c, P s → P (s.setCursorPosition c)
  ends : ∀ s e, P s → P (s.endWith e)

theorem pulseFault_all (hP : KeptByCalls P) {r : Run} (h : r.all P) : (pulseFault r).all P := by
  cases r with
  | going s => exact h
  | raised e s => exact hP.indeterminate _ h

theorem transmitFrom_all (hP : KeptByCalls P) (k : Nat) (v : Byte) (rs : Bool) {s : State} (h : P s) :
    (transmitFrom k v rs s).all P := by
  refine Run.all_bind (pulseFault_all hP (emitAll_all hP (fun hm => rel_notMem_pulseCalls s v rs (List.mem_of_mem_drop hm))
    h)) fun t ht => ?_
  split
  · exact emit_all hP (by simp) ht
  · exact ht

theorem sendInstr_all (hP : KeptByCalls P) (v : Byte) {s : State} (h : P s) : (sendInstr v s).all P := by
  rw [sendInstr, transmitPattern_patternOf]
  exact transmitFrom_all hP 0 v false h

theorem sendData_all (hP : KeptByActs P) (v : Byte) {s : State} (h : P s) : (sendData v s).all P := by
  rw [sendData, transmitPattern_patternOf]
  exact Run.all_bind (transmitFrom_all hP.toKeptByCalls 0 v true h) fun t ht => hP.cursor _ _ ht

theorem sendFrom_all (hP : KeptByActs P) (k : Nat) (v : Byte) (rs : Bool) {s : State} (h : P s) :
    (sendFrom k v rs s).all P :=
  Run.all_bind (transmitFrom_all hP.toKeptByCalls k v rs h) fun t ht => by
    cases rs
    · exact ht
    · exact hP.cursor _ _ ht

theorem sendNulls_all (hP : KeptByActs P) (n : Nat) {s : State} (h : P s) : (sendNulls n s).all P := by
  induction n generalizing s with
  | zero => exact h
  | succ n ih => exact Run.all_bind (sendData_all hP _ h) fun t ht => ih ht

theorem clearSeq_all (hP : KeptByActs P) {s : State} (h : P s) : (clearSeq s).all P := by
  have hi := fun v {t : State} (ht : P t) => sendInstr_all hP.toKeptByCalls v ht
  exact Run.all_bind (hi _ (hP.cursor _ _ h)) fun t ht => Run.all_bind (hi _ ht) fun t ht =>
    Run.all_bind (hi _ ht) fun t ht => Run.all_bind (hi _ ht) fun t ht => hi _ ht

theorem setTextLoop_all (hP : KeptByActs P) (bs : List Byte) {s : State} (h : P s) : (setTextLoop bs s).all P := by
  induction bs generalizing s with
  | nil => exact h
  | cons b bs ih =>
    refine Run.all_bind (sendData_all hP _ h) fun t ht => ?_
    split
    · exact Run.all_bind (sendNulls_all hP _ ht) fun t ht => ih ht
    · exact ih ht

theorem appendLoop_all (hP : KeptByActs P) (bs : List Byte) {s : State} (h : P s) : (appendLoop bs s).all P := by
  induction bs generalizing s with
  | nil => exact h
  | cons b bs ih =>
    rw [appendLoop]
    split
    · exact Run.all_bind (sendNulls_all hP _ h) fun t ht => Run.all_bind (sendData_all hP _ ht) fun t ht => ih ht
    · exact Run.all_bind (sendData_all hP _ h) fun t ht => ih ht

theorem afterChecks_all {α : Type} (hP : KeptByCalls P) {c : Except Status α} {s : State} (h : P s)
    {k : α → State → Run} (hk : ∀ a, c = .ok a → (k a s).all P) : (afterChecks c s k).all P := by
  cases c with
  | error e => exact raise_all hP e h
  | ok a => exact hk a rfl

theorem modeOp_all (hP : KeptByCalls P) {f : State → State} {s : State} (h : P s) (hf : P (f s)) :
    (modeOp f s).all P := afterChecks_all hP h fun _ _ => sendInstr_all hP _ hf

theorem finish_all (hP : KeptByActs P) {r : Run} (h : r.all P) {t : State} (ht : finish r = .next t) : P t := by
  cases r <;> cases ht <;> exact hP.ends _ _ h

theorem finishWord_all (hP : KeptByActs P) {r : Run} (h : r.all P) {t : State} (ht : finishWord r = .next t) :
    P t := by
  cases r <;> cases ht
  · exact h
  · exact hP.ends _ _ h

theorem hostOp_all (hP : KeptByActs P) {k : State → Run} {s : State} (h : (k s).all P) {t : State}
    (ht : hostOp k s = .next t) : P t := by
  unfold hostOp at ht
  split at ht
  · exact finish_all hP h ht
  · cases ht

/-- A property that backend calls, but for the release, and every register write of an operation keep. -/
structure KeptByWrites (P : State → Prop) : Prop extends KeptByActs P where
  lifecycle : ∀ s c, P s → P (s.setLifecycle c)
  bind : ∀ s rs e d, P s → P (s.bindLines rs e d)
  display : ∀ s b, P s → P (s.setDisplayOn b)
  cursorFlag : ∀ s b, P s → P (s.setCursorOn b)
  blink : ∀ s b, P s → P (s.setBlinkOn b)

/-- A property that the release keeps as well. -/
structure KeptByOps (P : State → Prop) : Prop extends KeptByWrites P where
  release : ∀ s, P s → P (applyCall .rel s)

theorem constructed_all (hP : KeptByWrites P) (rs e : LineId) (d : Vector LineId 8) {s : State} (h : P s) :
    P (constructed rs e d s) :=
  hP.cursor _ _ (hP.blink _ _ (hP.cursorFlag _ _ (hP.display _ _ (hP.bind _ _ _ _ h))))

theorem destructOp_all (hP : KeptByOps P) {s : State} (h : P s) : (destructOp s).all P := by
  have h1 := hP.release _ (hP.record _ .rel h)
  have h2 : P (swallow (emit .rel s)) := by
    rw [emit_eq]
    split
    · exact hP.faulted _ h1
    · exact h1
  exact hP.lifecycle _ _ h2

/-- What every write and every call but the release keeps is kept by every instruction but `DESTRUCT`. -/
theorem exec_all_but_destruct (hP : KeptByWrites P) {i : Instr} (hi : i ≠ .destruct) {s t : State} (h : P s)
    (ht : exec i s = .next t) : P t := by
  have hA := hP.toKeptByActs
  have hC := hP.toKeptByCalls
  cases i with
  | iClear | iFunc | iDisp _ _ _ | iEntry | iHome => exact finishWord_all hA (sendInstr_all hC _ h) ht
  | dChar _ | dNull => exact finishWord_all hA (sendData_all hA _ h) ht
  | construct rs e d =>
    exact hostOp_all hA (afterChecks_all hC h fun v _ =>
      Run.all_bind (emitAll_all hC (rel_notMem_setupCalls _) (constructed_all hP rs e v h)) fun t ht =>
        Run.all_bind (k := fun u => .going (u.setLifecycle .ready)) (clearSeq_all hA ht) fun t ht =>
          hP.lifecycle t .ready ht) ht
  | destruct => exact absurd rfl hi
  | clear => exact hostOp_all hA (afterChecks_all hC h fun _ _ => clearSeq_all hA h) ht
  | setText _ =>
    exact hostOp_all hA (afterChecks_all hC h fun _ _ =>
      Run.all_bind (clearSeq_all hA h) fun t ht => setTextLoop_all hA _ ht) ht
  | append _ => exact hostOp_all hA (afterChecks_all hC h fun _ _ => appendLoop_all hA _ h) ht
  | setDisplay _ | displayOn | displayOff => exact hostOp_all hA (modeOp_all hC h (hP.display _ _ h)) ht
  | setCursor _ | cursorOn | cursorOff => exact hostOp_all hA (modeOp_all hC h (hP.cursorFlag _ _ h)) ht
  | setBlink _ | blinkOn | blinkOff => exact hostOp_all hA (modeOp_all hC h (hP.blink _ _ h)) ht

/-- Such a property, if the release keeps it too, is kept by every instruction. -/
theorem exec_all (hP : KeptByOps P) (i : Instr) {s t : State} (h : P s) (ht : exec i s = .next t) : P t := by
  by_cases hi : i = .destruct
  · subst hi
    exact hostOp_all hP.toKeptByActs (destructOp_all hP h) ht
  · exact exec_all_but_destruct hP.toKeptByWrites hi h ht

/-- A property that every act of a step keeps. -/
structure KeptBySteps (P : State → Prop) : Prop extends KeptByOps P where
  seq : ∀ s q, P s → P (s.setSeq q)
  host : ∀ s h, P s → P (s.setHost h)

theorem completeOp_all (hP : KeptBySteps P) (op : OpName) {s : State} (h : P s) : P (completeOp op s) := by
  unfold completeOp
  split
  · exact hP.ends _ _ (hP.lifecycle _ _ h)
  · exact hP.ends _ _ h

theorem afterWord_all (hP : KeptBySteps P) (op : OpName) (q : Option SeqPos)
    {r : Host.Outcome State Fault Refusal} (h : ∀ t, r = .next t → P t) {t : State}
    (ht : afterWord op q r = .next t) : P t := by
  cases r with
  | next u =>
    have hu := h u rfl
    unfold afterWord at ht
    simp only at ht
    split at ht
    · cases ht
      exact hu
    · split at ht <;> cases ht
      · exact hP.seq _ _ hu
      · exact completeOp_all hP op hu
  | fault r => cases ht
  | refused r => cases ht

theorem resumeStage_all (hP : KeptBySteps P) (p : SeqPos) {s t : State} (h : P s)
    (ht : resumeStage p s = .next t) : P t := by
  unfold resumeStage at ht
  split at ht
  · rename_i k _
    unfold resumeSetup at ht
    have := emitAll_all hP.toKeptByCalls (cs := (setupCalls s).drop k)
      (fun hm => rel_notMem_setupCalls s (List.mem_of_mem_drop hm)) h
    split at ht <;> rename_i he <;> rw [he] at this <;> cases ht
    · exact hP.seq _ _ this
    · exact hP.ends _ _ this
  · exact finish_all hP.toKeptByActs (destructOp_all hP.toKeptByOps h) ht
  all_goals
    cases ht
    exact completeOp_all hP _ h

/-- Such a property is kept by every step. -/
theorem step_all (hP : KeptBySteps P) {s t : State} (h : P s) (ht : step s = .next t) : P t := by
  unfold step at ht
  split at ht
  · split at ht
    · cases ht
      exact h
    · split at ht
      · exact exec_all hP.toKeptByOps _ (hP.host _ _ h) ht
      · exact finish_all hP.toKeptByActs (raise_all hP.toKeptByCalls _ (hP.host _ _ h)) ht
  · split at ht
    · exact resumeStage_all hP _ h ht
    · refine afterWord_all hP _ _ (fun t ht => ?_) ht
      split at ht
      · exact exec_all hP.toKeptByOps _ h ht
      · unfold resumeWord at ht
        split at ht
        · exact finishWord_all hP.toKeptByActs (sendFrom_all hP.toKeptByActs _ _ _ h) ht
        · cases ht
          exact h

end Sys2Proof.Machine
end

