-- ==== Sys2Proof/Laws/PerInstr.lean ====
section
/-! SUPPORT. A statement for all instructions, one lemma for each: an instruction is spelled with the words of its
expansion (R51, R59). -/

namespace Sys2Proof.Laws.SharesWords

/-- The instruction and its expansion have the same words, and expanding twice is expanding once. -/
def Statement (i : Instr) : Prop := encode i = encode i.expansion ∧ i.expansion.expansion = i.expansion

theorem iClear : Statement .iClear := ⟨rfl, rfl⟩
theorem iFunc : Statement .iFunc := ⟨rfl, rfl⟩
theorem iDisp (d c b : Bool) : Statement (.iDisp d c b) := ⟨rfl, rfl⟩
theorem iEntry : Statement .iEntry := ⟨rfl, rfl⟩
theorem iHome : Statement .iHome := ⟨rfl, rfl⟩
theorem dChar (c : BitVec 7) : Statement (.dChar c) := ⟨rfl, rfl⟩
theorem dNull : Statement .dNull := ⟨by decide, rfl⟩
theorem construct (rs e : LineId) (d : List LineId) : Statement (.construct rs e d) := ⟨rfl, rfl⟩
theorem destruct : Statement .destruct := ⟨rfl, rfl⟩
theorem clear : Statement .clear := ⟨rfl, rfl⟩
theorem setText (text : List CodePoint) : Statement (.setText text) := ⟨rfl, rfl⟩
theorem append (text : List CodePoint) : Statement (.append text) := ⟨rfl, rfl⟩
theorem setDisplay (b : Bool) : Statement (.setDisplay b) := ⟨rfl, rfl⟩
theorem setCursor (b : Bool) : Statement (.setCursor b) := ⟨rfl, rfl⟩
theorem setBlink (b : Bool) : Statement (.setBlink b) := ⟨rfl, rfl⟩
theorem displayOn : Statement .displayOn := ⟨rfl, rfl⟩
theorem displayOff : Statement .displayOff := ⟨rfl, rfl⟩
theorem cursorOn : Statement .cursorOn := ⟨rfl, rfl⟩
theorem cursorOff : Statement .cursorOff := ⟨rfl, rfl⟩
theorem blinkOn : Statement .blinkOn := ⟨rfl, rfl⟩
theorem blinkOff : Statement .blinkOff := ⟨rfl, rfl⟩

end Sys2Proof.Laws.SharesWords
end

