-- ==== Sys2Proof/Laws/Sequencer.lean ====
section
/-! SUPPORT. The laws of the sequencer: a transmission does not read `seq`, what one step of a busy block does, and
how steps make up the loops of an operation. -/

namespace Sys2Proof.Machine

/-! ## Transmissions do not read `seq` -/

theorem Run.bind_assoc (r : Run) (a b : State → Run) : (r.bind a).bind b = r.bind fun t => (a t).bind b := by
  cases r <;> rfl

/-- The same run with another sequencer position. -/
def Run.setSeq (q : Seq) : Run → Run
  | .going s => .going (s.setSeq q)
  | .raised e s => .raised e (s.setSeq q)

theorem Run.setSeq_bind (q : Seq) (r : Run) (k : State → Run)
    (hk : ∀ t, k (t.setSeq q) = (k t).setSeq q) : (r.setSeq q).bind k = (r.bind k).setSeq q := by
  cases r with
  | going s => exact hk s
  | raised e s => rfl

theorem observeFall_setSeq (s : State) (q : Seq) : (s.setSeq q).observeFall = s.observeFall.setSeq q := by
  unfold State.observeFall
  simp only [State.setSeq_tPwMin, State.setSeq_enableDelay]
  by_cases h : s.tPwMin ≤ s.enableDelay <;> simp only [h, if_true, if_false] <;> rfl

theorem applyCall_setSeq (c : BackendCall) (s : State) (q : Seq) :
    applyCall c (s.setSeq q) = (applyCall c s).setSeq q := by
  cases c with
  | cfg l => rfl
  | write l b =>
    simp only [applyCall]
    have h : (s.setSeq q).levelOf (s.setSeq q).eLine = s.levelOf s.eLine := rfl
    rw [h]
    split
    · rw [if_pos (by assumption), ← observeFall_setSeq]
      rfl
    · rw [if_neg (by assumption)]
      rfl
  | sleep d => rfl
  | rel =>
    simp only [applyCall]
    have h : (s.setSeq q).levelOf (s.setSeq q).eLine = s.levelOf s.eLine := rfl
    rw [h]
    split <;> rfl

theorem faultCall_setSeq (c : BackendCall) (s : State) (q : Seq) :
    faultCall c (s.setSeq q) = (faultCall c s).setSeq q := by
  cases c with
  | cfg l => rfl
  | write l b => rfl
  | sleep d => rfl
  | rel => exact applyCall_setSeq .rel s q

theorem emit_setSeq (c : BackendCall) (s : State) (q : Seq) : emit c (s.setSeq q) = (emit c s).setSeq q := by
  have h1 := applyCall_setSeq c (s.recordCall c) q
  have h2 := faultCall_setSeq c (s.recordCall c) q
  have h3 : (s.setSeq q).recordCall c = (s.recordCall c).setSeq q := rfl
  rw [emit_eq, emit_eq, h3, h1, h2]
  simp only [State.setSeq_calls, State.setSeq_faultAt]
  by_cases h : s.calls + 1 ∈ s.faultAt <;> simp only [h, if_true, if_false] <;> rfl

theorem emitAll_setSeq (cs : List BackendCall) (s : State) (q : Seq) :
    emitAll cs (s.setSeq q) = (emitAll cs s).setSeq q := by
  induction cs generalizing s with
  | nil => rfl
  | cons c cs ih =>
    rw [emitAll, emitAll, emit_setSeq, Run.setSeq_bind]
    exact fun t => ih t

theorem transmit_setSeq (v : Byte) (rs : Bool) (s : State) (q : Seq) :
    transmit v rs (s.setSeq q) = (transmit v rs s).setSeq q := by
  have h : ∀ r : Run, pulseFault (r.setSeq q) = (pulseFault r).setSeq q := fun r => by cases r <;> rfl
  have hc : pulseCalls (s.setSeq q) v rs = pulseCalls s v rs := rfl
  rw [transmit, transmitFrom, hc, emitAll_setSeq, h, Run.setSeq_bind]
  · rfl
  · exact fun t => emit_setSeq _ t q

theorem sendInstr_setSeq (v : Byte) (s : State) (q : Seq) : sendInstr v (s.setSeq q) = (sendInstr v s).setSeq q := by
  rw [sendInstr, sendInstr, transmitPattern_patternOf, transmitPattern_patternOf, transmit_setSeq]

theorem sendData_setSeq (v : Byte) (s : State) (q : Seq) : sendData v (s.setSeq q) = (sendData v s).setSeq q := by
  rw [sendData, sendData, transmitPattern_patternOf, transmitPattern_patternOf, transmit_setSeq, Run.setSeq_bind]
  exact fun t => rfl

/-! ## One step of a busy block -/

/-- The end of an operation run by the sequencer. -/
def finishOp (op : OpName) : Run → Host.Outcome State Fault Refusal
  | .going s => .next (completeOp op s)
  | .raised e s => .next (s.endWith e)

theorem completeOp_setSeq (op : OpName) (s : State) (q : Seq) : completeOp op (s.setSeq q) = completeOp op s := by
  unfold completeOp
  split <;> rfl

/-- The steps from a state come to an outcome. -/
def Comes (s : State) (r : Host.Outcome State Fault Refusal) : Prop := ∃ n, Host.Core.run Sys2Proof.core n s = r

theorem comes_now (s : State) : Comes s (.next s) := ⟨0, rfl⟩

theorem comes_step {s t : State} {r : Host.Outcome State Fault Refusal} (h : step s = .next t) (hr : Comes t r) :
    Comes s r := by
  obtain ⟨n, hn⟩ := hr
  refine ⟨n + 1, ?_⟩
  have hs : Sys2Proof.core.step s = .next t := h
  simp only [Host.Core.run, hs]
  exact hn

/-- One word of an operation, and what comes after it. -/
theorem comes_word {p : SeqPos} {u : State} {i : Instr} {w : Run} {k : State → Run} (hp : p.phase = 0)
    (hsel : selectWord p u = some i) (hx : ∀ q, exec i (u.setSeq q) = finishWord (w.setSeq q))
    (hk : ∀ t, w = .going t →
      (∃ q, nextPos p u = some q ∧ Comes (t.setSeq (.busy q)) (finishOp p.op (k t))) ∨
        (nextPos p u = none ∧ k t = .going t)) :
    Comes (u.setSeq (.busy p)) (finishOp p.op (w.bind k)) := by
  have hs : step (u.setSeq (.busy p)) = afterWord p.op (nextPos p u) (finishWord (w.setSeq (.busy p))) := by
    have h1 : selectWord p (u.setSeq (.busy p)) = some i := hsel
    have h2 : nextPos p (u.setSeq (.busy p)) = nextPos p u := rfl
    simp only [step, State.setSeq_seq, h1, hp, if_true, hx, h2]
  cases w with
  | going t =>
    rcases hk t rfl with ⟨q, hq, hc⟩ | ⟨hq, hc⟩
    · refine comes_step (t := t.setSeq (.busy q)) ?_ hc
      rw [hs, hq]
      rfl
    · refine comes_step (t := completeOp p.op t) ?_ ?_
      · rw [hs, hq, ← completeOp_setSeq p.op t (.busy p)]
        rfl
      · rw [Run.bind, hc]
        exact comes_now _
  | raised e t => exact comes_step (t := t.endWith e) hs (comes_now _)

/-- `SEND_INSTR`, as a step. -/
theorem comes_instr {p : SeqPos} {u : State} {i : Instr} {v : Byte} {k : State → Run} (hp : p.phase = 0)
    (hsel : selectWord p u = some i) (hx : ∀ s, exec i s = finishWord (sendInstr v s))
    (hk : ∀ t, sendInstr v u = .going t →
      (∃ q, nextPos p u = some q ∧ Comes (t.setSeq (.busy q)) (finishOp p.op (k t))) ∨
        (nextPos p u = none ∧ k t = .going t)) :
    Comes (u.setSeq (.busy p)) (finishOp p.op ((sendInstr v u).bind k)) :=
  comes_word hp hsel (fun q => by rw [hx, sendInstr_setSeq]) hk

/-- `SEND_DATA`, as a step. -/
theorem comes_data {p : SeqPos} {u : State} {i : Instr} {v : Byte} {k : State → Run} (hp : p.phase = 0)
    (hsel : selectWord p u = some i) (hx : ∀ s, exec i s = finishWord (sendData v s))
    (hk : ∀ t, sendData v u = .going t →
      (∃ q, nextPos p u = some q ∧ Comes (t.setSeq (.busy q)) (finishOp p.op (k t))) ∨
        (nextPos p u = none ∧ k t = .going t)) :
    Comes (u.setSeq (.busy p)) (finishOp p.op ((sendData v u).bind k)) :=
  comes_word hp hsel (fun q => by rw [hx, sendData_setSeq]) hk

/-! ## The clear sequence -/

/-- The five words of the clear sequence, and what comes after them. -/
theorem comes_clearSeq {p : SeqPos} {u : State} {k : State → Run} (hp : p.phase = 0) (hst : p.stage = .clear 0)
    (hcur : u.cursorPosition = 0#6)
    (hk : ∀ t, (clearSeq u) = .going t →
      (∃ q, (if p.op = .setText then textOrEnd { p with stage := .clear 4 } else none) = some q ∧
        Comes (t.setSeq (.busy q)) (finishOp p.op (k t))) ∨
      ((if p.op = .setText then textOrEnd { p with stage := .clear 4 } else none) = none ∧ k t = .going t)) :
    Comes (u.setSeq (.busy p)) (finishOp p.op ((clearSeq u).bind k)) := by
  have hu : u.setCursorPosition 0#6 = u := by
    rw [← hcur]
    rfl
  have hseq : clearSeq u = (sendInstr Config.clearDisplay u).bind fun t =>
      (sendInstr Config.functionSet t).bind fun t => (sendInstr t.dcb t).bind fun t =>
      (sendInstr Config.entryMode t).bind fun t => sendInstr Config.returnHome t := by
    rw [clearSeq, hu]
    rfl
  obtain ⟨op, st, text, i, pad, ph⟩ := p
  simp only at hst hp
  subst hst hp
  rw [hseq] at hk ⊢
  rw [Run.bind_assoc]
  refine comes_instr (i := .iClear) rfl rfl (fun _ => rfl) fun t1 h1 => .inl ⟨_, rfl, ?_⟩
  rw [Run.bind_assoc]
  refine comes_instr (i := .iFunc) rfl rfl (fun _ => rfl) fun t2 h2 => .inl ⟨_, rfl, ?_⟩
  rw [Run.bind_assoc]
  refine comes_instr (i := .iDisp t2.displayOn t2.cursorOn t2.blinkOn) rfl rfl (fun _ => rfl) fun t3 h3 =>
    .inl ⟨_, rfl, ?_⟩
  rw [Run.bind_assoc]
  refine comes_instr (i := .iEntry) rfl rfl (fun _ => rfl) fun t4 h4 => .inl ⟨_, rfl, ?_⟩
  refine comes_instr (i := .iHome) rfl rfl (fun _ => rfl) fun t5 h5 => ?_
  exact hk t5 (by simp only [h1, h2, h3, h4, Run.bind, h5])

/-! ## The text loops -/

/-- The nulls of a skip, and what comes after them. -/
theorem comes_nulls (n : Nat) {p : SeqPos} {u : State} {k : State → Run} (hp : p.phase = 0) (hst : p.stage = .text)
    (hn : p.pad = n + 1)
    (hk : ∀ t, sendNulls (n + 1) u = .going t →
      (∃ q, stillText { p with pad := 0 } = some q ∧ Comes (t.setSeq (.busy q)) (finishOp p.op (k t))) ∨
        (stillText { p with pad := 0 } = none ∧ k t = .going t)) :
    Comes (u.setSeq (.busy p)) (finishOp p.op ((sendNulls (n + 1) u).bind k)) := by
  obtain ⟨op, st, text, i, pad, ph⟩ := p
  simp only at hst hp hn
  subst hst hp hn
  induction n generalizing u with
  | zero =>
    rw [sendNulls, Run.bind_assoc]
    exact comes_data (i := .dNull) rfl (by simp [selectWord]) (fun _ => rfl) fun t ht =>
      hk t (by rw [sendNulls, ht]; rfl)
  | succ n ih =>
    rw [sendNulls, Run.bind_assoc]
    refine comes_data (i := .dNull) rfl (by simp [selectWord]) (fun _ => rfl) fun t ht =>
      .inl ⟨{ op := op, stage := .text, text := text, i := i, pad := n + 1, phase := 0 }, ?_, ?_⟩
    · simp [nextPos, stillText]
    · exact ih fun w hw => hk w (by rw [sendNulls, ht]; exact hw)

theorem Run.bind_going (r : Run) : r.bind (fun t => .going t) = r := by cases r <;> rfl

theorem finishOp_eq {op : OpName} (h : op ≠ .construct) (r : Run) : finishOp op r = finish r := by
  cases r with
  | going t => rw [finishOp, completeOp, if_neg h, finish]
  | raised e t => rfl

/-- The bytes of a text operation from index `i` on. -/
def bytesFrom (text : List (BitVec 7)) (i : Nat) : List Byte := (text.drop i).map (·.setWidth 8)

theorem bytesFrom_cons {text : List (BitVec 7)} {i : Nat} (h : i < text.length) :
    bytesFrom text i = text[i].setWidth 8 :: bytesFrom text (i + 1) := by
  unfold bytesFrom
  rw [List.drop_eq_getElem_cons h]
  rfl

theorem bytesFrom_nil {text : List (BitVec 7)} {i : Nat} (h : text.length ≤ i) : bytesFrom text i = [] := by
  unfold bytesFrom
  rw [List.drop_eq_nil_of_le h]
  rfl

/-- The seven bits the sequencer keeps of each encoded byte are all of it (R74, R75). -/
theorem bytesFrom_encoded {text : List CodePoint} (h : ∀ c ∈ text, c < 128) :
    bytesFrom ((text.map byteOfCodePoint).map charOfByte) 0 = text.map byteOfCodePoint := by
  have hb : ∀ c : Fin 128, (charOfByte (byteOfCodePoint c.val)).setWidth 8 = byteOfCodePoint c.val := by decide
  unfold bytesFrom
  rw [List.drop_zero, List.map_map, List.map_map]
  exact List.map_congr_left fun c hc => hb ⟨c, h c hc⟩

theorem pad24_eq (u : State) : pad24 u = sendNulls (23 + 1) u := by rw [pad24]

theorem sendNulls_succ (n : Nat) (u : State) :
    sendNulls (n + 1) u = (sendData Config.nullByte u).bind (sendNulls n) := by rw [sendNulls]

/-- The first null and then the other 23 are a skip, which leaves the cursor past the hidden cells. -/
theorem skip_cursor {u t w : State} {n : Nat} (hn : n + 1 = 24) (ht : sendData Config.nullByte u = .going t)
    (hw : sendNulls n t = .going w) (hc : u.cursorPosition.toNat = 16) : w.cursorPosition.toNat = 40 := by
  have h1 := sendNulls_succ n u
  have h2 : (Run.going t).bind (sendNulls n) = .going w := hw
  rw [ht, hn, h2] at h1
  exact ((pad24_sends u).going w h1).2.cursor_skip hc

/-- The sequencer's position within a text, at a character. -/
abbrev atChar (op : OpName) (text : List (BitVec 7)) (i : Nat) : SeqPos :=
  { op := op, stage := .text, text := text, i := i }

/-- The text loop of `SET_TEXT`, step by step. -/
theorem comes_setTextLoop (n : Nat) (text : List (BitVec 7)) (i : Nat) (u : State) (hl : text.length = i + n + 1) :
    Comes (u.setSeq (.busy (atChar .setText text i))) (finishOp .setText (setTextLoop (bytesFrom text i) u)) := by
  induction n generalizing i u with
  | zero =>
    have hi : i < text.length := by omega
    rw [bytesFrom_cons hi, bytesFrom_nil (by omega), setTextLoop]
    refine comes_data (i := .dChar text[i]) rfl (by simp [selectWord, nextChar, hi]) (fun _ => rfl) fun t ht => ?_
    by_cases h15 : u.cursorPosition.toNat = 15
    · refine .inl ⟨{ atChar .setText text (i + 1) with pad := 24 }, by simp [nextPos, h15], ?_⟩
      simp only [Config.padAt, h15, if_true]
      rw [pad24_eq]
      exact comes_nulls 23 (p := { atChar .setText text (i + 1) with pad := 24 }) (u := t) (k := setTextLoop [])
        rfl rfl rfl fun w hw => .inr ⟨by simp [stillText]; omega, rfl⟩
    · refine .inr ⟨by simp [nextPos, h15, stillText]; omega, ?_⟩
      simp only [Config.padAt, h15, if_false, setTextLoop]
  | succ n ih =>
    have hi : i < text.length := by omega
    rw [bytesFrom_cons hi, setTextLoop]
    refine comes_data (i := .dChar text[i]) rfl (by simp [selectWord, nextChar, hi]) (fun _ => rfl) fun t ht =>
      .inl ?_
    by_cases h15 : u.cursorPosition.toNat = 15
    · refine ⟨{ atChar .setText text (i + 1) with pad := 24 }, by simp [nextPos, h15], ?_⟩
      simp only [Config.padAt, h15, if_true]
      rw [pad24_eq]
      exact comes_nulls 23 (p := { atChar .setText text (i + 1) with pad := 24 }) (u := t)
        (k := setTextLoop (bytesFrom text (i + 1))) rfl rfl rfl fun w hw =>
          .inl ⟨atChar .setText text (i + 1), by simp [stillText]; omega, ih _ _ (by omega)⟩
    · refine ⟨atChar .setText text (i + 1), by simp [nextPos, h15, stillText]; omega, ?_⟩
      simp only [Config.padAt, h15, if_false]
      exact ih _ _ (by omega)

/-- A character of an `APPEND` away from the boundary, and the rest. -/
theorem comes_appendChar {text : List (BitVec 7)} {i : Nat} {u : State} (hi : i < text.length)
    (hc : u.cursorPosition.toNat ≠ 16)
    (ih : ∀ t : State, i + 1 < text.length → Comes (t.setSeq (.busy (atChar .append text (i + 1))))
      (finishOp .append (appendLoop (bytesFrom text (i + 1)) t))) :
    Comes (u.setSeq (.busy (atChar .append text i)))
      (finishOp .append ((sendData (text[i].setWidth 8) u).bind (appendLoop (bytesFrom text (i + 1))))) := by
  refine comes_data (i := .dChar text[i]) rfl (by simp [selectWord, nextChar, hi, hc]) (fun _ => rfl) fun t ht => ?_
  by_cases hl : i + 1 < text.length
  · exact .inl ⟨atChar .append text (i + 1), by simp [nextPos, hc, stillText]; omega, ih t hl⟩
  · exact .inr ⟨by simp [nextPos, hc, stillText]; omega, by rw [bytesFrom_nil (by omega)]; rfl⟩

/-- A pass of an `APPEND`, at the boundary or not, and the rest. -/
theorem comes_appendPass {text : List (BitVec 7)} {i : Nat} {u : State} (hi : i < text.length)
    (ih : ∀ t : State, i + 1 < text.length → Comes (t.setSeq (.busy (atChar .append text (i + 1))))
      (finishOp .append (appendLoop (bytesFrom text (i + 1)) t))) :
    Comes (u.setSeq (.busy (atChar .append text i))) (finishOp .append (appendLoop (bytesFrom text i) u)) := by
  rw [bytesFrom_cons hi, appendLoop]
  by_cases hc : u.cursorPosition.toNat = 16
  · rw [if_pos hc, pad24_eq, sendNulls_succ, Run.bind_assoc]
    refine comes_data (i := .dNull) rfl (by simp [selectWord, nextChar, hi, hc]) (fun _ => rfl) fun t ht => .inl ?_
    refine ⟨{ atChar .append text i with pad := 23 }, by simp [nextPos, hc], ?_⟩
    have key := comes_nulls 22 (p := { atChar .append text i with pad := 23 }) (u := t)
      (k := fun t => (sendData (text[i].setWidth 8) t).bind (appendLoop (bytesFrom text (i + 1)))) rfl rfl rfl
      fun w hw => .inl ⟨atChar .append text i, by simp [stillText]; omega, by
        refine comes_appendChar hi ?_ ih
        have := skip_cursor rfl ht hw hc
        omega⟩
    exact key
  · rw [if_neg hc]
    exact comes_appendChar hi hc ih

/-- The text loop of `APPEND`, step by step. -/
theorem comes_appendLoop (n : Nat) (text : List (BitVec 7)) (i : Nat) (u : State) (hl : text.length = i + n + 1) :
    Comes (u.setSeq (.busy (atChar .append text i))) (finishOp .append (appendLoop (bytesFrom text i) u)) := by
  induction n generalizing i u with
  | zero => exact comes_appendPass (by omega) fun t h => by omega
  | succ n ih => exact comes_appendPass (by omega) fun t h => ih (i + 1) t (by omega)

/-! ## The set operations -/

/-- A set operation, from its beginning. -/
theorem comes_mode {op : OpName} (hop : op ≠ .construct) (f : State → State) {s : State} (hs : s.seq = .idle) :
    Comes (startMode op f s) (hostOp (modeOp f) s) := by
  rw [hostOp_idle hs]
  by_cases h : s.lifecycle = .ready
  · have h1 : startMode op f s = (f s).setSeq (.busy { op := op, stage := .mode }) := by
      rw [startMode, checkReady_ok h]
      rfl
    rw [modeOp_ready h, displayControl, h1]
    generalize f s = u
    have := comes_instr (u := u) (p := { op := op, stage := .mode }) (v := u.dcb) (k := fun t => .going t)
      (i := .iDisp u.displayOn u.cursorOn u.blinkOn) rfl rfl
      (fun _ => by simp only [exec, execIDisp, State.dcb]) fun t ht => .inr ⟨rfl, rfl⟩
    rw [Run.bind_going, finishOp_eq hop] at this
    exact this
  · have h1 : startMode op f s = s.endWith .lifecycleFault := by
      rw [startMode, checkReady_error h]
      rfl
    rw [h1, modeOp, checkReady_error h]
    exact comes_now _

end Sys2Proof.Machine
end

