-- ==== Sys2Proof/Tests/Slice0.lean ====
section
/-! SUPPORT. The model's own tests: the well-formedness smoke tests, words written out from the encodings, the
vectors of spec/95_test_vectors.md, and for every obligation with hypotheses a state and operands that meet them. -/

namespace Sys2Proof.Tests

open Sys2Proof.Machine

/-! ## Helpers -/

/-- A READY block on the lines of vector Y1, at rest after a return-home word, with the given flags and cursor. -/
def ready (d c b : Bool) (cursor : BitVec 6) : State :=
  { State.reset with
    rsLine := 7, eLine := 8, dataLines := ⟨#[25, 24, 23, 18, 15, 14, 3, 2], rfl⟩
    displayOn := d, cursorOn := c, blinkOn := b, cursorPosition := cursor, lifecycle := .ready
    levels := [(2, .low), (3, .low), (7, .low), (8, .low), (14, .low), (15, .low), (18, .low), (23, .low),
      (24, .high), (25, .low)] }

/-- The state after a successful `CONSTRUCT` (R24). -/
def fresh : State := ready true false false 0#6

/-- The same with the backend faulting at the given calls. -/
def faulting (s : State) (calls : List Nat) : State := { s with faultAt := calls }

/-- The lines of vector Y1. -/
def y1Lines : List LineId := [25, 24, 23, 18, 15, 14, 3, 2]

/-- The outcome is a next state with a property. -/
def ends (o : Host.Outcome State Fault Refusal) (p : State → Bool) : Bool :=
  match o with
  | .next t => p t
  | .fault _ => false
  | .refused _ => false

theorem ends_spec {o : Host.Outcome State Fault Refusal} {p : State → Bool} (h : ends o p = true) :
    ∃ t, o = .next t ∧ p t = true := by
  cases o with
  | next t => exact ⟨t, rfl, h⟩
  | fault r => cases r
  | refused r => exact absurd h (by simp [ends])

/-- One step from a state in which the host's next call is the given one. -/
def call (c : HostCall) (s : State) : Host.Outcome State Fault Refusal := step { s with host := [c] }

/-- The levels of RS, E, D7..D0, in the order of the vectors. -/
def shown (s : State) : List Level := (s.rsLine :: s.eLine :: s.dataLines.toList.reverse).map s.levelOf

/-- Low and high by digit. -/
def lv (ds : List Nat) : List Level := ds.map fun d => if d = 0 then Level.low else Level.high

/-- A latched instruction word, `I:xx` (spec/00_scope.md section 6.3). -/
def i (v : Nat) : Latch := ⟨false, BitVec.ofNat 8 v⟩
/-- A latched data word. -/
def d (v : Nat) : Latch := ⟨true, BitVec.ofNat 8 v⟩

/-- Status, latched words, cursor, calls. -/
def report (t : State) : Option Status × List Latch × Nat × Nat :=
  (t.returned, t.latched, t.cursorPosition.toNat, t.calls)

/-- The three flags. -/
def flags (t : State) : Bool × Bool × Bool := (t.displayOn, t.cursorOn, t.blinkOn)

/-- The first `n` of the characters `ABC...`. -/
def abc (n : Nat) : List CodePoint := (List.range n).map (65 + ·)

/-! ## Well-formedness: an ill-formed term for each check -/

theorem test_wellFormed_code_point_limit :
    (Instr.setText [2 ^ 21 - 1]).wellFormed = true ∧ (Instr.setText [65, 2 ^ 21]).wellFormed = false ∧
      (Instr.append [2 ^ 21]).wellFormed = false := by decide

theorem test_wellFormed_length_limit (n : Nat) (h : 2 ^ 16 ≤ n) :
    (Instr.setText (List.replicate n 65)).wellFormed = false ∧ (Instr.append (List.replicate n 65)).wellFormed = false := by
  have hn : ¬ n < 2 ^ 16 := by omega
  constructor <;> simp only [Instr.wellFormed, wellFormedText, List.length_replicate, hn, decide_false, Bool.false_and]

/-- Lengths the operation will reject are still well-formed (R61). -/
theorem test_wellFormed_admits_rejected_lengths :
    (Instr.setText (List.replicate 33 65)).wellFormed = true ∧ (Instr.append []).wellFormed = true ∧
      (Instr.construct 1 2 [3, 4, 5]).wellFormed = true := by decide

/-! ## Decoding: every row's word, bit by bit (R51, R53, R57, R59) -/

theorem test_decode_instruction_words :
    decodeEmitted 0b0_0000_0001#9 = .instr .iClear ∧ decodeEmitted 0b0_0011_1000#9 = .instr .iFunc ∧
      decodeEmitted 0b0_0000_0110#9 = .instr .iEntry ∧ decodeEmitted 0b0_0000_0010#9 = .instr .iHome := by decide

theorem test_decode_display_control :
    decodeEmitted 0b0_0000_1000#9 = .instr (.iDisp false false false) ∧
      decodeEmitted 0b0_0000_1001#9 = .instr (.iDisp false false true) ∧
      decodeEmitted 0b0_0000_1010#9 = .instr (.iDisp false true false) ∧
      decodeEmitted 0b0_0000_1100#9 = .instr (.iDisp true false false) := by decide

theorem test_decode_data_words :
    decodeEmitted 0b1_0101_0000#9 = .instr (.dChar 0x50#7) ∧ decodeEmitted 0b1_0111_1111#9 = .instr (.dChar 0x7F#7) ∧
      decodeEmitted 0b1_0000_0000#9 = .instr (.dChar 0#7) ∧ encode .dNull = .emitted 0b1_0000_0000#9 := by decide

theorem test_decode_other_words_rejected :
    decodeEmitted 0b0_0000_0000#9 = .reject .notAnEmittedWord ∧
      decodeEmitted 0b0_0001_0000#9 = .reject .notAnEmittedWord ∧
      decodeEmitted 0b0_1000_0000#9 = .reject .notAnEmittedWord ∧
      decodeEmitted 0b1_1000_0000#9 = .reject .notAnEmittedWord := by decide

theorem test_decode_lifecycle_commands :
    decodeCommand 0b0000_0000#8 { rs := 7, e := 8, d := y1Lines } = .instr (.construct 7 8 y1Lines) ∧
      decodeCommand 0b0001_0000#8 {} = .instr .destruct ∧ decodeCommand 0b0010_0000#8 {} = .instr .clear := by decide

theorem test_decode_text_commands :
    decodeCommand 0b0011_0000#8 { text := [72, 105] } = .instr (.setText [72, 105]) ∧
      decodeCommand 0b0100_0000#8 { text := [71] } = .instr (.append [71]) := by decide

theorem test_decode_mode_commands :
    decodeCommand 0b0101_0001#8 {} = .instr (.setDisplay true) ∧
      decodeCommand 0b0101_0000#8 {} = .instr (.setDisplay false) ∧
      decodeCommand 0b0110_0001#8 {} = .instr (.setCursor true) ∧
      decodeCommand 0b0110_0000#8 {} = .instr (.setCursor false) ∧
      decodeCommand 0b0111_0001#8 {} = .instr (.setBlink true) ∧
      decodeCommand 0b0111_0000#8 {} = .instr (.setBlink false) := by decide

/-- The wrappers' words (R59). -/
theorem test_encode_wrappers :
    [Instr.displayOn, .displayOff, .cursorOn, .cursorOff, .blinkOn, .blinkOff].map encode =
      [0x51#8, 0x50#8, 0x61#8, 0x60#8, 0x71#8, 0x70#8].map fun w => .command w {} := by decide

theorem test_decode_reserved_commands :
    decodeCommand 0b1001_0000#8 {} = .reject .reservedOperation ∧
      decodeCommand 0b0010_0001#8 {} = .reject .reservedOperandBit ∧
      decodeCommand 0b0101_1000#8 {} = .reject .reservedBits := by decide

/-- The table's numbering: eight bits a command, sixteen an emitted word. -/
theorem test_decodeTableWord :
    decodeTableWord 8 0x20 = some .clear ∧ decodeTableWord 16 0x141 = some (.dChar 0x41#7) ∧
      decodeTableWord 16 0x00E = some (.iDisp true true false) ∧ decodeTableWord 16 0x1FF = none := by decide

/-! ## The status numbers and the cell map -/

theorem test_status_numbers :
    [Status.ok, .validationError, .encodingError, .protocolError, .hardwareFault, .lifecycleFault].map Status.code =
      [0, 1, 2, 3, 4, 5] := by decide

/-- R31's table at its edges. -/
theorem test_cell_map :
    [0, 15, 16, 39, 40, 55, 56, 79].map (fun p => (cellRow p, cellColumn p, cellVisible p)) =
      [(0, 0, true), (0, 15, true), (0, 16, false), (0, 39, false), (1, 0, true), (1, 15, true), (1, 16, false),
        (1, 39, false)] := by decide

/-! ## The encoder (vectors E1 to E11) -/

theorem test_encodeText :
    encodeText [72, 105] = .ok [0x48#8, 0x69#8] ∧ encodeText [0, 127] = .ok [0x00#8, 0x7F#8] ∧
      encodeText [128] = .error .encodingError ∧ encodeText [99, 97, 102, 233] = .error .encodingError ∧
      encodeText [0x1F600] = .error .encodingError ∧ encodeText [] = .ok [] := by decide

theorem test_patterns :
    patternOf 0x41#8 = [0, 1, 0, 0, 0, 0, 0, 1] ∧ patternValue [0, 1, 0, 1, 0, 0, 0, 0] = some 0x50#8 ∧
      patternValue [0, 1, 0, 1, 0, 0, 0] = none ∧ patternValue [0, 1, 0, 1, 0, 0, 0, 2] = none := by decide

/-! ## The emitted words (vectors X1 to X8) -/

/-- X1, the whole event trace and the lines after it. -/
theorem test_dChar_trace :
    ends (exec (.dChar 0x41#7) fresh) (fun t =>
      let z : BackendCall := .sleep Config.defaultEnableDelay
      decide (t.events = [.write 7 true, .write 8 true, z, .write 2 false, z, .write 3 true, z, .write 14 false, z,
        .write 15 false, z, .write 18 false, z, .write 23 false, z, .write 24 false, z, .write 25 true, z,
        .write 8 false, z] ∧ shown t = lv [1, 0, 0, 1, 0, 0, 0, 0, 0, 1])) = true := by decide +kernel

/-- X7, and the cell written (R86). -/
theorem test_dChar_cursor :
    ends (exec (.dChar 0x41#7) (ready true false false 7#6)) (fun t =>
      decide (report t = (none, [d 0x41], 8, 21) ∧ t.readCell 7 = some 0x41#8 ∧ t.readCell 8 = none)) = true := by
  decide +kernel

/-- X8. -/
theorem test_dNull :
    ends (exec .dNull (ready true false false 16#6)) (fun t =>
      decide (report t = (none, [d 0x00], 17, 21) ∧ shown t = lv [1, 0, 0, 0, 0, 0, 0, 0, 0, 0])) = true := by
  decide +kernel

/-- X2. -/
theorem test_iFunc :
    ends (exec .iFunc fresh) (fun t =>
      decide (report t = (none, [i 0x38], 0, 21) ∧ shown t = lv [0, 0, 0, 0, 1, 1, 1, 0, 0, 0])) = true := by
  decide +kernel

/-- X3. -/
theorem test_iDisp :
    ends (exec (.iDisp true false false) fresh) (fun t =>
      decide (report t = (none, [i 0x0C], 0, 21) ∧ shown t = lv [0, 0, 0, 0, 0, 0, 1, 1, 0, 0])) = true := by
  decide +kernel

/-- X6. -/
theorem test_iHome :
    ends (exec .iHome (ready true false false 7#6)) (fun t => decide (report t = (none, [i 0x02], 7, 21))) = true := by
  decide +kernel

/-- R51's entry-mode byte. -/
theorem test_iEntry :
    ends (exec .iEntry fresh) (fun t => decide (report t = (none, [i 0x06], 0, 21))) = true := by decide +kernel

/-- R51's clear-display byte; the cells are unknown after it (U9). -/
theorem test_iClear :
    ends (exec .iClear ((ready true false false 3#6).setCells [(2, 0x48#8)])) (fun t =>
      decide (report t = (none, [i 0x01], 3, 21) ∧ t.readCell 2 = none)) = true := by decide +kernel

/-! ## The mode operations (vectors M1 to M12), as steps on command words and calls by name -/

theorem test_setDisplay_M1 :
    ends (call (.word 0x50#8 {}) fresh) (fun t =>
      decide (report t = (some .ok, [i 0x08], 0, 21) ∧ flags t = (false, false, false))) = true := by decide +kernel

theorem test_setCursor_M3 :
    ends (call (.word 0x61#8 {}) (ready false false false 0#6)) (fun t =>
      decide (report t = (some .ok, [i 0x0A], 0, 21) ∧ flags t = (false, true, false))) = true := by decide +kernel

theorem test_setBlink_M2 :
    ends (call (.word 0x71#8 {}) (ready false false false 0#6)) (fun t =>
      decide (report t = (some .ok, [i 0x09], 0, 21) ∧ flags t = (false, false, true))) = true := by decide +kernel

/-- No change of value, still one transmission. -/
theorem test_displayOn_M5 :
    ends (call (.named .displayOn false {}) fresh) (fun t =>
      decide (report t = (some .ok, [i 0x0C], 0, 21) ∧ flags t = (true, false, false))) = true := by decide +kernel

theorem test_displayOff_M11 :
    ends (call (.named .displayOff true {}) (ready true true true 0#6)) (fun t =>
      decide (report t = (some .ok, [i 0x0B], 0, 21) ∧ flags t = (false, true, true))) = true := by decide +kernel

theorem test_cursorOn_M7 :
    ends (call (.named .cursorOn false {}) fresh) (fun t =>
      decide (report t = (some .ok, [i 0x0E], 0, 21) ∧ flags t = (true, true, false))) = true := by decide +kernel

theorem test_cursorOff_M9 :
    ends (call (.named .cursorOff true {}) (ready true true true 0#6)) (fun t =>
      decide (report t = (some .ok, [i 0x0D], 0, 21) ∧ flags t = (true, false, true))) = true := by decide +kernel

theorem test_blinkOn_M4 :
    ends (call (.named .blinkOn false {}) (ready false true false 0#6)) (fun t =>
      decide (report t = (some .ok, [i 0x0B], 0, 21) ∧ flags t = (false, true, true))) = true := by decide +kernel

theorem test_blinkOff_M10 :
    ends (call (.named .blinkOff true {}) (ready true true true 0#6)) (fun t =>
      decide (report t = (some .ok, [i 0x0E], 0, 21) ∧ flags t = (true, true, false))) = true := by decide +kernel

/-! ## Clear (vectors K3, K5) -/

theorem test_clear_K3 :
    ends (call (.word 0x20#8 {}) (ready false true true 56#6)) (fun t =>
      decide (report t = (some .ok, [i 0x01, i 0x38, i 0x0B, i 0x06, i 0x02], 0, 105) ∧
        flags t = (false, true, true) ∧ shown t = lv [0, 0, 0, 0, 0, 0, 0, 0, 1, 0])) = true := by decide +kernel

theorem test_clear_K5 :
    call (.word 0x20#8 {}) State.reset = .next (State.reset.setReturned .lifecycleFault) := by rfl

/-! ## The text operations -/

/-- T12. -/
theorem test_setText_T12 :
    ends (call (.word 0x30#8 { text := [65, 66] }) (ready false true true 56#6)) (fun t =>
      decide (report t = (some .ok, [i 0x01, i 0x38, i 0x0B, i 0x06, i 0x02, d 0x41, d 0x42], 2, 147))) = true := by
  decide +kernel

/-- T6, the source's own example: 18 characters end at 42. -/
theorem test_setText_T6 :
    ends (call (.word 0x30#8 { text := abc 18 }) fresh) (fun t =>
      decide (report t = (some .ok, [i 0x01, i 0x38, i 0x0C, i 0x06, i 0x02] ++ (List.range 16).map (fun k => d (65 + k))
        ++ List.replicate 24 (d 0) ++ [d 0x51, d 0x52], 42, 987))) = true := by decide +kernel

/-- A2: the skip before the seventh character. -/
theorem test_append_A2 :
    ends (call (.word 0x40#8 { text := abc 7 }) (ready true false false 10#6)) (fun t =>
      decide (report t = (some .ok, (List.range 6).map (fun k => d (65 + k)) ++ List.replicate 24 (d 0) ++ [d 0x47],
        41, 651))) = true := by decide +kernel

/-- A3: it ends at the boundary, no skip yet. -/
theorem test_append_A3 :
    ends (call (.word 0x40#8 { text := abc 6 }) (ready true false false 10#6)) (fun t =>
      decide (report t = (some .ok, (List.range 6).map (fun k => d (65 + k)), 16, 126))) = true := by decide +kernel

/-- The table of section 6.2, from positions and lengths at its edges. -/
theorem test_capacity_table :
    [(0, 32), (0, 33), (5, 27), (5, 30), (15, 17), (15, 27), (16, 16), (16, 17), (17, 1), (38, 1), (39, 17), (39, 27),
      (40, 16), (40, 17), (50, 6), (50, 7), (55, 1), (56, 1)].map (fun p => capacityOk p.1 p.2) =
      [true, false, true, false, true, false, true, false, false, false, true, false, true, false, true, false, true,
        false] := by decide

/-! ## Lifecycle (vectors Y1, Y2, Y4, Y5) -/

/-- Y1, from reset by a command word. -/
theorem test_construct_Y1 :
    ends (call (.word 0x00#8 { rs := 7, e := 8, d := y1Lines }) State.reset) (fun t =>
      decide (report t = (some .ok, [i 0x01, i 0x38, i 0x0C, i 0x06, i 0x02], 0, 125) ∧ t.lifecycle = .ready ∧
        t.events.take 20 = [.cfg 7, .write 7 false, .cfg 8, .write 8 false, .cfg 25, .write 25 false, .cfg 24,
          .write 24 false, .cfg 23, .write 23 false, .cfg 18, .write 18 false, .cfg 15, .write 15 false, .cfg 14,
          .write 14 false, .cfg 3, .write 3 false, .cfg 2, .write 2 false] ∧
        shown t = lv [0, 0, 0, 0, 0, 0, 0, 0, 1, 0] ∧ t.stray = [])) = true := by decide +kernel

theorem test_construct_Y2 :
    call (.word 0x00#8 { rs := 1, e := 2, d := [3, 4, 5] }) State.reset =
      .next (State.reset.setReturned .validationError) := by rfl

theorem test_destruct_Y4 :
    ends (call (.word 0x10#8 {}) fresh) (fun t =>
      decide (t.returned = some .ok ∧ t.lifecycle = .released ∧ t.events = [.rel] ∧ t.levels = [])) = true := by decide

/-- F8: a fault answer to `Rel()` is swallowed. -/
theorem test_destruct_F8 :
    ends (call (.word 0x10#8 {}) (faulting fresh [1])) (fun t =>
      decide (t.returned = some .ok ∧ t.lifecycle = .released ∧ t.events = [.rel] ∧ t.levels = [])) = true := by decide

/-! ## Hardware faults -/

/-- F3: the delay after `W(D4,0)` of the third instruction of a `CONSTRUCT`. -/
theorem test_hardware_fault_F3 :
    ends (call (.word 0x00#8 { rs := 7, e := 8, d := y1Lines }) (faulting State.reset [73])) (fun t =>
      decide (report t = (some .hardwareFault, [i 0x01, i 0x38], 0, 73) ∧ t.lifecycle = .faulted ∧
        shown t = lv [0, 1, 0, 0, 0, 0, 1, 0, 0, 0])) = true := by decide +kernel

/-- F2: `W(E,0)` right after `Cfg(E)`. E is claimed whatever the faulting write did to it (R164). -/
theorem test_hardware_fault_F2 :
    (faultCall (.write 8 false) ((applyCall (.cfg 8) State.reset).recordCall (.write 8 false))).levelOf 8 ≠ .unclaimed :=
  faultCall_claimed (by decide) (by decide)

/-- F5: the fall of E of the first character of a `SET_TEXT`, the 20th call of its sixth word. Whether the byte was
latched is not claimed; the cursor has not moved. -/
theorem test_hardware_fault_F5 :
    ends (call (.word 0x30#8 { text := abc 4 }) (faulting fresh [125])) (fun t =>
      decide (report t = (some .hardwareFault, [i 0x01, i 0x38, i 0x0C, i 0x06, i 0x02], 0, 125) ∧
        t.lifecycle = .faulted ∧ t.stray.length = 1)) = true := by decide +kernel

/-! ## Where an instruction is placed -/

/-- A command word placed after reset is the next step's instruction; the block is UNBOUND, so `CLEAR` ends with
status 5. -/
theorem test_withFetchWord_command :
    step (State.reset.withFetchWord 8 0x20) = .next (State.reset.setReturned .lifecycleFault) := by rfl

/-- An emitted word placed in a READY block is latched by the next step. -/
theorem test_withFetchWord_emitted :
    ends (step (fresh.withFetchWord 16 0x141)) (fun t =>
      decide (report t = (some .ok, [d 0x41], 1, 21) ∧ t.seq = .idle)) = true := by decide +kernel

/-! ## Witnesses: for every obligation with hypotheses, a state and operands that meet them -/

theorem witness_DecodedWordIsReencoded :
    decodeEmitted 0x141#9 = .instr (.dChar 0x41#7) ∧
      decodeCommand 0x51#8 { text := [65] } = .instr (.setDisplay true) := by decide

/-- The three ways of being reserved, each alone and at an edge, and their nearest words that are not. -/
theorem witness_ReservedCommandIsRejected :
    fresh.seq = .idle ∧
      (8 ≤ ((0x80#8).extractLsb' 4 4).toNat ∧ (0x80#8).extractLsb' 1 3 = 0#3 ∧ (0x80#8).getLsbD 0 = false) ∧
      ((0x72#8).extractLsb' 1 3 ≠ 0#3 ∧ ((0x72#8).extractLsb' 4 4).toNat < 8) ∧
      ((0x41#8).getLsbD 0 = true ∧ ((0x41#8).extractLsb' 4 4).toNat ≤ 4 ∧ (0x41#8).extractLsb' 1 3 = 0#3) ∧
      ∀ w ∈ [0x71#8, 0x51#8, 0x40#8, 0x00#8],
        ¬ (8 ≤ (w.extractLsb' 4 4).toNat ∨ w.extractLsb' 1 3 ≠ 0#3 ∨
          (w.getLsbD 0 = true ∧ (w.extractLsb' 4 4).toNat ≤ 4)) := by decide

theorem witness_StepRunsTheDecodedCall :
    fresh.seq = .idle ∧ (fresh.setHost [.word 0x20#8 {}]).host = .word 0x20#8 {} :: [] ∧
      decodeCall (.word 0x20#8 {}) = .instr .clear ∧
      decodeCall (.named .append true { text := [71] }) = .instr (.append [71]) := by decide

/-- An operation stopped before a word: `CLEAR` before `I_FUNC`, `SET_TEXT` before a character, `APPEND` at 16. -/
theorem witness_StepRunsTheSelectedWord :
    (∀ p, (fresh.setSeq (.busy p)).seq = .busy p) ∧
      selectWord { op := .clear, stage := .clear 1 } (fresh.setSeq (.busy { op := .clear, stage := .clear 1 })) =
        some .iFunc ∧
      (let p : SeqPos := { op := .setText, stage := .text, text := [0x41#7] };
        selectWord p (fresh.setSeq (.busy p)) = some (.dChar 0x41#7) ∧ p.phase = 0) ∧
      (let p : SeqPos := { op := .append, stage := .text, text := [0x41#7] };
        selectWord p ((ready true false false 16#6).setSeq (.busy p)) = some .dNull ∧ p.phase = 0) :=
  ⟨fun _ => rfl, by decide, by decide, by decide⟩

/-- At phases 1 and 21, on an instruction word with a position to follow and a data word with none. -/
theorem witness_StepMakesTheRemainingCalls :
    (let p : SeqPos := { op := .clear, stage := .clear 1, phase := 1 };
      let s := fresh.setSeq (.busy p);
      s.seq = .busy p ∧ selectWord p s = some .iFunc ∧ wordParts .iFunc = some (0x38#8, false) ∧
        s.quietFor (21 - p.phase) ∧ (nextPos p s).isSome = true) ∧
      (let p : SeqPos := { op := .setText, stage := .text, text := [0x41#7], phase := 21 };
        let s := fresh.setSeq (.busy p);
        s.seq = .busy p ∧ selectWord p s = some (.dChar 0x41#7) ∧ wordParts (.dChar 0x41#7) = some (0x41#8, true) ∧
          s.quietFor (21 - p.phase) ∧ s.cursorPosition.toNat < 63 ∧ nextPos p s = none) := by decide

theorem witness_IdleBlockHoldsItsState : fresh.seq = .idle ∧ fresh.host = [] := by decide

theorem witness_PlacedWordRunsNext :
    decodeTableWord 8 0x20 = some .clear ∧ decodeTableWord 16 0x00E = some (.iDisp true true false) := by decide

/-- The premises of the statements about transmissions (TransmitMakesItsCalls, TransmitLatchesItsWord,
InstructionWordsComplete, DataWordsComplete). -/
theorem witness_transmission :
    fresh.quietFor 21 ∧ fresh.linesDistinct ∧ fresh.timingMet ∧ fresh.cursorPosition.toNat < 63 := by decide

/-- Too short, not binary, and well formed. -/
theorem witness_MalformedPatternIsAProtocolError :
    (¬ ([1, 0, 1].length = 8 ∧ ∀ x ∈ [1, 0, 1], x = 0 ∨ x = 1)) ∧
      (¬ ([0, 0, 0, 0, 0, 0, 0, 2].length = 8 ∧ ∀ x ∈ [0, 0, 0, 0, 0, 0, 0, 2], x = 0 ∨ x = 1)) ∧
      ([0, 1, 0, 0, 0, 0, 0, 1].length = 8 ∧ ∀ x ∈ [0, 1, 0, 0, 0, 0, 0, 1], x = 0 ∨ x = 1) := by decide

/-- At calls 1, 3, 18, 19, 20 and 21. -/
theorem witness_FaultInsideATransmission :
    ∀ k ∈ [1, 3, 18, 19, 20, 21], (faulting fresh [k]).quietFor (k - 1) ∧ (faulting fresh [k]).calls + k ∈ [k] ∧
      (faulting fresh [k]).linesDistinct ∧ (faulting fresh [k]).timingMet := by decide

/-- The first call, the fall of E and the last call, of an instruction word and of a data word, at a READY block. -/
theorem witness_FaultInsideAnEmittedWord :
    wordParts .iHome = some (0x02#8, false) ∧ wordParts (.dChar 0x41#7) = some (0x41#8, true) ∧
      ∀ k ∈ [1, 20, 21], (faulting fresh [k]).quietFor (k - 1) ∧ (faulting fresh [k]).calls + k ∈ [k] ∧
        (faulting fresh [k]).linesDistinct ∧ (faulting fresh [k]).timingMet := by decide

/-- At phase 0 a fault at the first of 21 calls, at phase 5 one at call 20, at phase 20 one at the only call left. -/
theorem witness_FaultInsideAStep :
    ∀ x ∈ [(0, 1), (5, 15), (20, 1)],
      let p : SeqPos := { op := .setText, stage := .text, text := [0x41#7], phase := x.1 };
      let s := faulting (fresh.setSeq (.busy p)) [x.2];
      s.seq = .busy p ∧ selectWord p s = some (.dChar 0x41#7) ∧ wordParts (.dChar 0x41#7) = some (0x41#8, true) ∧
        1 ≤ x.2 ∧ p.phase + x.2 ≤ 21 ∧ s.quietFor (x.2 - 1) ∧ s.calls + x.2 ∈ s.faultAt ∧ s.linesDistinct ∧
        s.timingMet := by decide

/-- At the claim of RS, the write of RS, the write of E (F2), the last set-up call, the first word's first call and the
last call; the lines are distinct, and some line has been claimed or not been reached in each. -/
theorem witness_FailedConstructKeepsItsLines :
    (7 :: 8 :: y1Lines).Nodup ∧ (7 :: 8 :: y1Lines)[9]? = some 2 ∧ 2 * 0 + 1 < 2 ∧ 1 < 2 * 9 + 1 ∧
      ∀ n ∈ [1, 2, 4, 20, 21, 125],
        (faulting State.reset [n]).seq = .idle ∧ (faulting State.reset [n]).lifecycle = .unbound ∧
          (faulting State.reset [n]).quietFor (n - 1) ∧ (faulting State.reset [n]).calls + n ∈ [n] := by decide

/-- At 16, where the operations run it, and at 39, the last position the statement admits. -/
theorem witness_PadSkipsTheHiddenCells :
    (ready true false false 16#6).cursorPosition.toNat ≤ 39 ∧ (ready true false false 16#6).quietFor 504 ∧
      (ready true false false 16#6).linesDistinct ∧ (ready true false false 16#6).timingMet ∧
      (ready true false false 39#6).cursorPosition.toNat ≤ 39 := by decide

/-- The premises of the statements about a READY block (ModeOperationsComplete, SettingTwiceResendsTheWord,
ClearCompletes). -/
theorem witness_ready_block :
    fresh.isReady ∧ fresh.quietFor 21 ∧ fresh.quietFor 42 ∧ fresh.quietFor 105 ∧ fresh.quietFor 966 ∧
      fresh.linesDistinct ∧ fresh.timingMet := by decide

/-- From UNBOUND, from RELEASED, and with distinct lines. -/
theorem witness_ConstructCompletes :
    State.reset.seq = .idle ∧ State.reset.lifecycle = .unbound ∧ State.reset.quietFor 125 ∧
      (fresh.setLifecycle .released).seq = .idle ∧ (fresh.setLifecycle .released).lifecycle = .released ∧
      (7 :: 8 :: y1Lines).Nodup ∧ State.reset.timingMet := by decide

/-- Seven and nine lines. -/
theorem witness_WrongLineCountIsRefused :
    State.reset.seq = .idle ∧ State.reset.lifecycle = .unbound ∧ (y1Lines.take 7).length ≠ 8 ∧
      (1 :: y1Lines).length ≠ 8 := by decide

/-- DestructAlwaysCompletes and DestructThenConstructStartsAfresh, from FAULTED. -/
theorem witness_Destruct :
    (fresh.setLifecycle .faulted).seq = .idle ∧ fresh.levelOf fresh.eLine ≠ .high ∧
      ∀ n ∈ (faulting fresh [1, 127]).faultAt,
        n ≤ (faulting fresh [1, 127]).calls + 1 ∨ (faulting fresh [1, 127]).calls + 126 < n := by decide

theorem witness_EncoderAcceptsExactlyAscii :
    (∃ c ∈ [99, 97, 102, 128], 128 ≤ c) ∧ ∀ c ∈ [0, 127], c < 128 := by decide

theorem witness_EncoderRoundTrip :
    encodeText [0, 127] = .ok [0x00#8, 0x7F#8] ∧ ∀ v ∈ [0x00#8, 0x7F#8], v.toNat < 128 := by decide

/-- SetTextCompletes and SetTextPlacesItsCharacters, at the lengths where the cases meet. -/
theorem witness_SetText :
    fresh.isReady ∧ fresh.linesDistinct ∧ fresh.timingMet ∧
      ∀ n ∈ [0, 1, 15, 16, 17, 32], (List.replicate n 65).length ≤ 32 ∧ (∀ c ∈ List.replicate n 65, c < 128) ∧
        fresh.quietFor (callCount (.setText (List.replicate n 65)) fresh) := by decide

theorem witness_FailedSetTextChangesNothing :
    fresh.isReady ∧ 32 < (List.replicate 33 65).length ∧ (List.replicate 32 233).length ≤ 32 ∧
      ∃ c ∈ List.replicate 32 233, 128 ≤ c := by decide

/-- AppendCapacityRule: a text on either side of the rule. -/
theorem witness_AppendCapacityRule :
    (ready true false false 50#6).isReady ∧ abc 4 ≠ [] ∧
      capacityOk (ready true false false 50#6).cursorPosition.toNat (abc 6).length = true ∧
      capacityOk (ready true false false 50#6).cursorPosition.toNat (abc 7).length = false ∧
      ends (exec (.append [65]) (ready true false false 50#6)) (fun _ => true) = true := by decide +kernel

/-- AppendCompletes and AppendPlacesItsCharacters, at the entry positions and lengths where the cases meet. -/
theorem witness_Append :
    ∀ p ∈ [(0#6, 16), (0#6, 17), (0#6, 32), (15#6, 1), (15#6, 2), (15#6, 17), (16#6, 1), (16#6, 16), (39#6, 17),
        (40#6, 16), (55#6, 1)],
      (ready true false false p.1).isReady ∧ List.replicate p.2 65 ≠ [] ∧
        capacityOk (ready true false false p.1).cursorPosition.toNat (List.replicate p.2 65).length = true ∧
        (∀ c ∈ List.replicate p.2 65, c < 128) ∧
        (ready true false false p.1).quietFor (callCount (.append (List.replicate p.2 65)) (ready true false false p.1)) ∧
        (ready true false false p.1).linesDistinct ∧ (ready true false false p.1).timingMet := by decide +kernel

theorem witness_LargestAcceptedAppend : 16 ≤ 63 ∧ 63 ≤ 63 ∧ 1 ≤ 1 := by decide

theorem witness_FailedAppendChangesNothing :
    fresh.isReady ∧ capacityOk fresh.cursorPosition.toNat (List.replicate 33 65).length = false ∧
      [233] ≠ ([] : List Nat) ∧ capacityOk fresh.cursorPosition.toNat [233].length = true ∧ ∃ c ∈ [233], 128 ≤ c := by
  decide

theorem witness_BoundarySkipIsLeftToTheNextAppend :
    fresh.isReady ∧ (abc 16).length = 16 ∧ (∀ x ∈ abc 16, x < 128) ∧ 71 < 128 ∧ fresh.quietFor 966 := by decide

theorem witness_LifecycleFaultChangesNothing :
    (Instr.construct 7 8 y1Lines).isEmitted = false ∧ Instr.construct 7 8 y1Lines ≠ .destruct ∧
      (fresh.setLifecycle .faulted).seq = .idle ∧ (fresh.setLifecycle .faulted).lifecycle = .faulted ∧
      fresh.lifecycle = .ready ∧ Instr.clear.isEmitted = false ∧ State.reset.seq = .idle ∧
      State.reset.lifecycle ≠ .ready := by decide

/-- OperationsEndOnlyWithTheirStatuses and PreciseErrorsChangeNothing: an operation for each of the statuses that
leave no trace, and one that ends with OK. -/
theorem witness_statuses :
    (∃ t, exec .destruct fresh = .next t ∧ t.returned = some .ok) ∧
      (∃ t, exec (.append []) fresh = .next t ∧ t.returned = some .validationError) ∧
      (∃ t, exec (.setText [233]) fresh = .next t ∧ t.returned = some .encodingError) ∧
      ∃ t, exec .clear State.reset = .next t ∧ t.returned = some .lifecycleFault :=
  ⟨⟨_, rfl, rfl⟩, ⟨_, rfl, rfl⟩, ⟨_, rfl, rfl⟩, ⟨_, rfl, rfl⟩⟩

theorem witness_AcceptedOperationMakesItsCalls :
    Instr.clear.isEmitted = false ∧ fresh.seq = .idle ∧ refusalOf .clear fresh = none ∧
      fresh.quietFor (callCount .clear fresh) ∧ refusalOf .destruct State.reset = none ∧
      State.reset.quietFor (callCount .destruct State.reset) := by decide

/-- At the first and at the last call of a `CLEAR`; inside the set-up of a `CONSTRUCT`; and in a text, after no and
after one data word. -/
theorem witness_HardwareFaultEndsTheOperation :
    refusalOf .clear fresh = none ∧ Instr.clear ≠ .destruct ∧
      (∀ k ∈ [1, 105], ¬ (faulting fresh [k]).quietFor (callCount .clear (faulting fresh [k]))) ∧
      refusalOf (.construct 7 8 y1Lines) State.reset = none ∧
      ¬ (faulting State.reset [4]).quietFor (callCount (.construct 7 8 y1Lines) (faulting State.reset [4])) ∧
      refusalOf (.append [65, 66]) fresh = none ∧
      (∀ k ∈ [21, 22], ¬ (faulting fresh [k]).quietFor (callCount (.append [65, 66]) (faulting fresh [k]))) ∧
      dataSentBefore (.append [65, 66]) fresh 21 = 0 ∧ dataSentBefore (.append [65, 66]) fresh 22 = 1 := by decide

/-- A driven line, over a word that a fault cuts at its second call. -/
theorem witness_ClaimedLinesStayClaimed :
    (faulting fresh [2]).levelOf 8 ≠ .unclaimed ∧ ∃ t, exec .iHome (faulting fresh [2]) = .next t ∧
      (decide (t.returned = some .hardwareFault)) = true :=
  ⟨by decide, ends_spec (by decide +kernel)⟩

theorem witness_FaultOnlyCutsTheTrace :
    (∃ t, exec (.setDisplay false) (faulting fresh [3]) = .next t ∧
      (decide (t.returned = some .hardwareFault ∧ t.events.length = 3)) = true) ∧
      ∃ u, exec (.setDisplay false) fresh = .next u ∧ (decide (u.events.length = 21)) = true :=
  ⟨ends_spec (by decide +kernel), ends_spec (by decide +kernel)⟩

theorem witness_OverlappingOperationIsRefused :
    Instr.clear.isEmitted = false ∧ fresh.seq = .idle ∧
      (fresh.setSeq (.busy { op := .clear, stage := .clear 0 })).seq = .busy { op := .clear, stage := .clear 0 } := by
  decide

/-- OnlyConstructBindsLines, FlagsWrittenOnlyByTheirOperations and LifecycleChangesOnlyAsListed: operations that do
change what the statements speak of. -/
theorem witness_changes :
    (∃ t, exec (.construct 7 8 y1Lines) ((ready false true true 5#6).setLifecycle .released) = .next t ∧
      (decide (t.displayOn = true ∧ t.cursorOn = false ∧ t.blinkOn = false ∧ t.lifecycle = .ready)) = true) ∧
      (∃ t, exec (.setCursor true) fresh = .next t ∧ (decide (t.cursorOn = true)) = true) ∧
      ∃ t, exec .destruct fresh = .next t ∧ (decide (t.lifecycle = .released)) = true :=
  ⟨ends_spec (by decide +kernel), ends_spec (by decide +kernel), ends_spec (by decide +kernel)⟩

/-- OnlyEmittedWordsAreLatched: a run that latches words, and one that leaves a doubt. -/
theorem witness_OnlyEmittedWordsAreLatched :
    (∃ t, exec (.dChar 0x7F#7) fresh = .next t ∧
      (decide (t.linesDistinct ∧ t.timingMet ∧ t.latched = [d 0x7F] ∧ t.stray = [])) = true) ∧
      ∃ t, exec (.dChar 0x7F#7) (faulting fresh [20]) = .next t ∧
        (decide (t.linesDistinct ∧ t.timingMet ∧ t.latched = [] ∧ t.stray.length = 1)) = true :=
  ⟨ends_spec (by decide +kernel), ends_spec (by decide +kernel)⟩

theorem readCell_unlisted (p : Nat) : fresh.readCell p = none := rfl

/-- The three invariants hold of a READY block, and it takes a step. -/
theorem witness_invariants :
    fresh.canonical ∧ fresh.atRest ∧ fresh.shadowTrue ∧ ∃ t, step (fresh.setHost [.word 0x10#8 {}]) = .next t := by
  refine ⟨by decide, ⟨rfl, fun _ => by decide⟩, ⟨rfl, fun _ _ _ => ⟨by decide, by decide, fun p => ?_⟩⟩, ⟨_, rfl⟩⟩
  rw [readCell_unlisted]
  simp [fresh, ready]

theorem witness_SequencerRunsTheWholeOperation : Instr.clear.isEmitted = false ∧ fresh.seq = .idle := by decide

end Sys2Proof.Tests
end

namespace Sys2Proof.Proofs
open Sys2Proof.Machine

/-! ## A step between operations -/

/-- Settles O6: an idle sequencer takes `step` to the host's list, the waiting call takes it to the decoder (R7, R222),
and the decoded instruction is run whole (R19). -/
theorem stepRunsTheDecodedCall : Obligations.StepRunsTheDecodedCall := by
  intro s c rest i hidle hhost hdecode
  simp only [step, hidle, hhost, hdecode]

end Sys2Proof.Proofs

namespace Sys2Proof.Proofs
open Sys2Proof.Machine

/-! ## How an instruction ends -/

/-- A host operation that ran to its end: its words were sent from a state `b` that has the registers written first and
what the controller had seen and holds, and the block is READY with the status OK. -/
structure Completed (i : Instr) (s b u t : State) : Prop where
  accepted : refusalOf i s = none
  origin : (Instr.isSending i ∧ s.lifecycle = .ready) ∨
    ((∃ rs e d, i = .construct rs e d) ∧ (s.lifecycle = .unbound ∨ s.lifecycle = .released))
  lines : SameLines (firstWrites i s) b
  flags : SameFlags (firstWrites i s) b
  inputs : SameInputs s b
  cursor : b.cursorPosition = (firstWrites i s).cursorPosition
  latched : b.latched = s.latched
  cells : b.cells = s.cells
  sent : SentWords b u (opWords i s)
  result : t = (u.setLifecycle .ready).endWith .ok

/-- Everything an instruction that answers a next state can have done. -/
inductive Ending (i : Instr) (s t : State) : Prop where
  /-- Its checks refused it (R190, R191). -/
  | refused (e : Status) (hret : t = s.setReturned e)
  /-- An emitted word was sent (R51). -/
  | word (hi : i.isEmitted = true) (ws : List Latch) (hsent : SentWords s t ws)
  /-- A backend call answered *fault* (R186). -/
  | faulted (hi : i ≠ .destruct) (hl : SameLines (firstWrites i s) t) (hf : SameFlags (firstWrites i s) t)
      (hlife : t.lifecycle = .faulted) (hret : t.returned = some .hardwareFault)
  /-- `DESTRUCT` released the lines (R165). -/
  | released (hi : i = .destruct) (hl : SameLines s t) (hf : SameFlags s t) (hlife : t.lifecycle = .released)
  /-- The operation ran to its end. -/
  | completed (b u : State) (h : Completed i s b u t)

theorem sameLines_trans {s t u : State} (h : SameLines s t) (h' : SameLines t u) : SameLines s u :=
  ⟨h'.1.trans h.1, h'.2.1.trans h.2.1, h'.2.2.trans h.2.2⟩

theorem sameFlags_trans {s t u : State} (h : SameFlags s t) (h' : SameFlags t u) : SameFlags s u :=
  ⟨h'.1.trans h.1, h'.2.1.trans h.2.1, h'.2.2.trans h.2.2⟩

theorem setLifecycle_self {s : State} {l : Lifecycle} (h : s.lifecycle = l) : s.setLifecycle l = s := by
  subst h
  rfl

theorem wordParts_of_isEmitted {i : Instr} (h : i.isEmitted = true) : ∃ v rs, wordParts i = some (v, rs) := by
  cases i with
  | iClear | iFunc | iDisp _ _ _ | iEntry | iHome | dChar _ | dNull => exact ⟨_, _, rfl⟩
  | _ => cases h

theorem firstWrites_of_isEmitted {i : Instr} (h : i.isEmitted = true) (s : State) : firstWrites i s = s := by
  cases i with
  | iClear | iFunc | iDisp _ _ _ | iEntry | iHome | dChar _ | dNull => rfl
  | _ => cases h

theorem ending_of_isEmitted {i : Instr} (hi : i.isEmitted = true) {s t : State} (h : exec i s = .next t) :
    Ending i s t := by
  obtain ⟨v, rs, hw⟩ := wordParts_of_isEmitted hi
  obtain ⟨r, hr, hsends⟩ := emitted_sends hw s
  rw [hr] at h
  rcases finishWord_sends hsends h with hsent | ⟨u, n, rfl, hcut⟩
  · exact .word hi _ hsent
  · have hfw := firstWrites_of_isEmitted hi s
    exact .faulted (by rintro rfl; cases hi) (by rw [hfw]; exact hcut.lines) (by rw [hfw]; exact hcut.flags)
      hcut.lifecycle rfl

theorem ending_of_isSending {i : Instr} (hi : Instr.isSending i) {s t : State} (h : exec i s = .next t) :
    Ending i s t := by
  obtain ⟨-, -, -, hlife, hlatched, -, hcells, -, hinputs⟩ := firstWrites_frame i s
  rcases sending_cases hi (idle_of_next hi.1 h) with ⟨e, -, -, he⟩ | ⟨hacc, hready, r, hr, hsends⟩
  · rw [he] at h
    cases h
    exact .refused e rfl
  · rw [hr] at h
    rcases finish_sends hsends h with ⟨u, rfl, hsent⟩ | ⟨u, n, rfl, hcut⟩
    · refine .completed _ u ⟨hacc, .inl ⟨hi, hready⟩, ⟨rfl, rfl, rfl⟩, ⟨rfl, rfl, rfl⟩, hinputs, rfl, hlatched,
        hcells, hsent, ?_⟩
      rw [setLifecycle_self (hsent.lifecycle.trans (hlife.trans hready))]
    · exact .faulted hi.2.2 hcut.lines hcut.flags hcut.lifecycle rfl

/-- `CONSTRUCT` past its checks ends with a fault in the set-up, with a fault in the clear sequence, or whole (R161,
R164). -/
theorem ending_of_construct {rs e : LineId} {d : List LineId} {s t : State}
    (h : exec (.construct rs e d) s = .next t) : Ending (.construct rs e d) s t := by
  rcases construct_cases rs e d (idle_of_next rfl h) with ⟨er, -, -, he⟩ | ⟨v, hacc, rfl, hlife, hr⟩
  · rw [he] at h
    cases h
    exact .refused er rfl
  · have hfw := firstWrites_construct rs e v s
    rw [hr] at h
    rcases hset : emitAll (setupCalls (constructed rs e v s)) (constructed rs e v s) with u | ⟨er, u⟩
    · rw [hset] at h
      obtain ⟨-, rfl⟩ := (emitAll_going_iff _ _ _).1 hset
      obtain ⟨hl, hf, -, -, -, -, -, -, hin⟩ :=
        applyAll_fields (setupCalls (constructed rs e v s)) (constructed rs e v s)
      obtain ⟨hlat, -, hcells⟩ := setup_seen (constructed rs e v s)
      generalize applyAll (setupCalls (constructed rs e v s)) (constructed rs e v s) = u at *
      have hsends := clearSeq_sends u
      rw [dcb_congr hf] at hsends
      rcases hclr : clearSeq u with w | ⟨er, w⟩
      · simp only [Run.bind, hclr] at h
        cases h
        exact .completed (u.setCursorPosition 0#6) w ⟨hacc, .inr ⟨⟨_, _, _, rfl⟩, hlife⟩, hfw ▸ hl, hfw ▸ hf,
          hin, by rw [hfw]; rfl, hlat, hcells, (hsends.going w hclr).2, rfl⟩
      · simp only [Run.bind, hclr] at h
        cases h
        obtain ⟨rfl, n, hcut⟩ := hsends.raised er w hclr
        exact .faulted (by simp) (hfw ▸ sameLines_trans hl hcut.lines) (hfw ▸ sameFlags_trans hf hcut.flags)
          hcut.lifecycle rfl
    · rw [hset] at h
      cases h
      obtain ⟨rfl, pre, c, post, -, -, -, rfl⟩ := emitAll_raised hset
      obtain ⟨hl, hf, -, hlf, -⟩ := cutAt_fields pre c (constructed rs e v s)
      exact .faulted (by simp) (hfw ▸ hl) (hfw ▸ hf) hlf rfl

/-- The release leaves the line registers and the flags alone, however it is answered. -/
theorem swallow_emit_rel_frame (s : State) :
    SameLines s (swallow (emit .rel s)) ∧ SameFlags s (swallow (emit .rel s)) := by
  rw [emit_eq]
  split
  · have h := rest_fields (faultCall_rest .rel (s.recordCall .rel))
    exact ⟨h.1, h.2.1⟩
  · have h := rest_fields (applyCall_rest .rel (s.recordCall .rel))
    exact ⟨h.1, h.2.1⟩

theorem exec_destruct_idle {s : State} (hs : s.seq = .idle) : exec .destruct s = finish (destructOp s) :=
  hostOp_idle hs destructOp

theorem ending_of_destruct {s t : State} (h : exec .destruct s = .next t) : Ending .destruct s t := by
  rw [exec_destruct_idle (idle_of_next rfl h)] at h
  cases h
  obtain ⟨hl, hf⟩ := swallow_emit_rel_frame s
  exact .released rfl hl hf rfl

/-- The one inversion law of `exec`: every proof about what an instruction keeps goes through these endings. -/
theorem exec_ending {i : Instr} {s t : State} (h : exec i s = .next t) : Ending i s t := by
  by_cases he : i.isEmitted = true
  · exact ending_of_isEmitted he h
  · rw [Bool.not_eq_true] at he
    by_cases hc : ∃ rs e d, i = .construct rs e d
    · obtain ⟨rs, e, d, rfl⟩ := hc
      exact ending_of_construct h
    · by_cases hd : i = .destruct
      · subst hd
        exact ending_of_destruct h
      · exact ending_of_isSending ⟨he, fun rs e d hi => hc ⟨rs, e, d, hi⟩, hd⟩ h

/-- Every host operation ends with the sequencer IDLE (R19). -/
theorem idle_after_exec {i : Instr} (hi : i.isEmitted = false) {s t : State} (h : exec i s = .next t) :
    t.seq = .idle := by
  have hop : ∀ k, hostOp k s = .next t → t.seq = .idle := fun k hk => by
    rw [hostOp_idle (idle_of_next hi h)] at hk
    rcases hr : k s with u | ⟨e, u⟩ <;> rw [hr] at hk <;> cases hk <;> rfl
  cases i with
  | iClear | iFunc | iDisp _ _ _ | iEntry | iHome | dChar _ | dNull => cases hi
  | _ => exact hop _ h

/-! ## What only some operations write -/

/-- The line registers and the flags are those written first, unless the operation was refused. -/
theorem Ending.frame {i : Instr} {s t : State} (h : Ending i s t) :
    (SameLines s t ∧ SameFlags s t) ∨ (SameLines (firstWrites i s) t ∧ SameFlags (firstWrites i s) t) := by
  cases h with
  | refused e hret =>
    subst hret
    exact .inl ⟨⟨rfl, rfl, rfl⟩, ⟨rfl, rfl, rfl⟩⟩
  | word hi ws hsent => exact .inl ⟨hsent.transmitted.2.2.1, hsent.flags⟩
  | faulted hi hl hf _ _ => exact .inr ⟨hl, hf⟩
  | released hi hl hf _ => exact .inl ⟨hl, hf⟩
  | completed b u h =>
    obtain ⟨-, -, hl, -⟩ := h.sent.transmitted
    have hu : SameLines u t ∧ SameFlags u t := by
      rw [h.result]
      exact ⟨⟨rfl, rfl, rfl⟩, ⟨rfl, rfl, rfl⟩⟩
    exact .inr ⟨sameLines_trans h.lines (sameLines_trans hl hu.1),
      sameFlags_trans h.flags (sameFlags_trans h.sent.flags hu.2)⟩

/-- `CONSTRUCT`'s first writes bind its operands, or nothing if the list has not eight lines (R161, R163). -/
theorem firstWrites_construct_cases (rs e : LineId) (d : List LineId) (s : State) :
    firstWrites (.construct rs e d) s = s ∨
      ∃ v : Vector LineId 8, d = v.toList ∧ firstWrites (.construct rs e d) s = constructed rs e v s := by
  by_cases hd : d.length = 8
  · obtain ⟨v, rfl⟩ : ∃ v : Vector LineId 8, d = v.toList := ⟨⟨d.toArray, hd⟩, rfl⟩
    exact .inr ⟨v, rfl, firstWrites_construct rs e v s⟩
  · exact .inl (by simp only [firstWrites, dataLinesOf_error hd])

/-- Settles O51: an ending has the line registers the instruction wrote first, and only `CONSTRUCT` writes them. -/
theorem onlyConstructBindsLines : Obligations.OnlyConstructBindsLines := by
  intro s t i h
  rcases (exec_ending h).frame with ⟨hl, -⟩ | ⟨hl, -⟩
  · exact .inl hl
  · by_cases hc : ∃ rs e d, i = .construct rs e d
    · obtain ⟨rs, e, d, rfl⟩ := hc
      rcases firstWrites_construct_cases rs e d s with hfw | ⟨v, rfl, hfw⟩ <;> rw [hfw] at hl
      · exact .inl hl
      · obtain ⟨hrs, he, hd⟩ := hl
        exact .inr ⟨v, by rw [hrs, he]; rfl, hd⟩
    · obtain ⟨-, -, -, -, -, -, -, hsame, -⟩ := firstWrites_frame i s
      exact .inl (sameLines_trans (hsame fun rs e d hi => hc ⟨rs, e, d, hi⟩) hl)

/-- `i` is an instruction that may write `b` to the flag of `set`, `on` and `off`, whose default is `dflt` (R12, R161). -/
def MayWriteFlag (set : Bool → Instr) (on off : Instr) (dflt : Bool) (i : Instr) (b : Bool) : Prop :=
  i = set b ∨ (i = on ∧ b = true) ∨ (i = off ∧ b = false) ∨ ((∃ rs e d, i = .construct rs e d) ∧ b = dflt)

theorem firstWrites_flags (i : Instr) (s : State) :
    ((firstWrites i s).displayOn ≠ s.displayOn →
        MayWriteFlag .setDisplay .displayOn .displayOff true i (firstWrites i s).displayOn) ∧
      ((firstWrites i s).cursorOn ≠ s.cursorOn →
        MayWriteFlag .setCursor .cursorOn .cursorOff false i (firstWrites i s).cursorOn) ∧
      ((firstWrites i s).blinkOn ≠ s.blinkOn →
        MayWriteFlag .setBlink .blinkOn .blinkOff false i (firstWrites i s).blinkOn) := by
  cases i with
  | construct rs e d =>
    rcases firstWrites_construct_cases rs e d s with hfw | ⟨v, rfl, hfw⟩ <;> rw [hfw] <;>
      simp [MayWriteFlag, constructed, State.setDefaultFlags]
  | _ => simp [MayWriteFlag, firstWrites]

/-- Settles O52: an ending has the flags the instruction wrote first. -/
theorem flagsWrittenOnlyByTheirOperations : Obligations.FlagsWrittenOnlyByTheirOperations := by
  intro s t i h
  rcases (exec_ending h).frame with ⟨-, hd, hc, hb⟩ | ⟨-, hd, hc, hb⟩ <;> rw [hd, hc, hb]
  · exact ⟨fun hne => absurd rfl hne, fun hne => absurd rfl hne, fun hne => absurd rfl hne⟩
  · exact firstWrites_flags i s

/-- Settles O53: one transition of R18 for each ending that changes the lifecycle. -/
theorem lifecycleChangesOnlyAsListed : Obligations.LifecycleChangesOnlyAsListed := by
  intro s t i h
  refine ⟨fun hi => ?_, fun hne => ?_⟩
  · subst hi

    rw [exec_destruct_idle (idle_of_next rfl h)] at h
    cases h
    rfl
  · cases exec_ending h with
    | refused e hret => exact absurd (hret ▸ rfl) hne
    | word hi ws hsent => exact absurd hsent.lifecycle hne
    | faulted hi _ _ hlife hret => exact .inr (.inl ⟨hlife, hret, hi⟩)
    | released hi _ _ hlife => exact .inr (.inr ⟨hlife, hi⟩)
    | completed b u hc =>
      obtain rfl := hc.result
      rcases hc.origin with ⟨-, hready⟩ | ⟨hcon, hlife⟩
      · exact absurd hready.symm hne
      · exact .inl ⟨rfl, hcon, rfl, hlife⟩

end Sys2Proof.Proofs

namespace Sys2Proof.Proofs
open Sys2Proof.Machine

/-! ## Invariants of the block between operations -/

/-- What the host presents is a host operation, never an emitted word (R50). -/
theorem not_isEmitted_of_decodeCall {c : HostCall} {i : Instr} (h : decodeCall c = .instr i) :
    i.isEmitted = false := by
  have hno : ∀ a j, j.isEmitted = false → decodeNoOperand a j = .instr i → i.isEmitted = false := by
    intro a j hj hd
    cases a <;> cases hd
    exact hj
  cases c with
  | named op a ops =>
    cases h
    cases op <;> rfl
  | word w ops =>
    simp only [decodeCall, decodeCommand] at h
    split at h
    · split at h
      case h_1 | h_2 | h_3 | h_4 | h_5 => exact hno _ _ rfl h
      case h_6 | h_7 | h_8 => cases h; rfl
      case h_9 => cases h
    · cases h

/-- What a step can do between operations: nothing, the next host operation, or the answer to a reserved word (R60,
R198, R222). -/
theorem step_idle_cases {s t : State} (hs : s.seq = .idle) (h : step s = .next t) :
    t = s ∨ ∃ rest, t = (s.setHost rest).setReturned .validationError ∨
      ∃ i, i.isEmitted = false ∧ exec i (s.setHost rest) = .next t := by
  unfold step at h
  rw [hs] at h
  rcases hh : s.host with _ | ⟨c, rest⟩ <;> simp only [hh] at h
  · cases h
    exact .inl rfl
  · refine .inr ⟨rest, ?_⟩
    rcases hd : decodeCall c with i | e <;> simp only [hd] at h
    · exact .inr ⟨i, not_isEmitted_of_decodeCall hd, h⟩
    · cases h
      exact .inl (endWith_idle (s := s.setHost rest) hs _)

/-- The sequencer is IDLE, and a READY block has `P`. -/
def IdleAndReady (P : State → Prop) (s : State) : Prop := s.seq = .idle ∧ (s.lifecycle = .ready → P s)

/-- The packaged induction step: what the host's list and the returned status do not touch, and what every operation
that runs to its end establishes, every step keeps. The other endings leave no READY block (R18). -/
theorem step_keeps_idleAndReady {P : State → Prop} (hhost : ∀ s h, P s → P (s.setHost h))
    (hret : ∀ s e, P s → P (s.setReturned e))
    (hcomp : ∀ i s b u t, (s.lifecycle = .ready → P s) → Completed i s b u t → P t) {s t : State}
    (hs : IdleAndReady P s) (h : step s = .next t) : IdleAndReady P t := by
  obtain ⟨hidle, hready⟩ := hs
  rcases step_idle_cases hidle h with rfl | ⟨rest, rfl | ⟨i, hi, hx⟩⟩
  · exact ⟨hidle, hready⟩
  · exact ⟨hidle, fun hl => hret _ _ (hhost _ _ (hready hl))⟩
  · refine ⟨idle_after_exec hi hx, fun hl => ?_⟩
    cases exec_ending hx with
    | refused e he =>
      subst he
      exact hret _ _ (hhost _ _ (hready hl))
    | word he ws hsent => rw [hi] at he; cases he
    | faulted _ _ _ hlife _ => rw [hlife] at hl; cases hl
    | released _ _ _ hlife => rw [hlife] at hl; cases hl
    | completed b u hc => exact hcomp i _ b u t (fun hr => hhost s rest (hready hr)) hc

/-! ## Where the cursor ends -/

theorem length_le_of_setText_accepted {text : List CodePoint} {s : State} (h : refusalOf (.setText text) s = none) :
    text.length ≤ 32 := by
  rcases hr : checkSetText text s with e | bytes
  · simp [refusalOf, hr] at h
  · rcases checkSetText_cases hr with ⟨-, -, hl, -⟩ | ⟨h, -⟩ | h | h
    · exact hl
    all_goals cases h

theorem capacityOk_of_append_accepted {text : List CodePoint} {s : State} (h : refusalOf (.append text) s = none) :
    text ≠ [] ∧ capacityOk s.cursorPosition.toNat text.length = true := by
  rcases hr : checkAppend text s with e | bytes
  · simp [refusalOf, hr] at h
  · rcases checkAppend_cases hr with ⟨-, -, hne, hc, -⟩ | ⟨h, -⟩ | h | h
    · exact ⟨hne, hc⟩
    all_goals cases h

theorem cursorReachable_setTextEnd {l : Nat} (h : l ≤ 32) : cursorReachable (setTextEnd l) := by
  unfold setTextEnd cursorReachable
  split <;> omega

theorem cursorReachable_appendEnd {c l : Nat} (hc : cursorReachable c) (h : capacityOk c l = true) :
    cursorReachable (appendEnd c l) := by
  rw [capacityOk_iff] at h
  unfold appendEnd cursorReachable at *
  split <;> omega

/-- `CONSTRUCT` starts from cursor 0 (R161). -/
theorem cursor_firstWrites_construct {rs e : LineId} {d : List LineId} {s : State}
    (h : refusalOf (.construct rs e d) s = none) :
    (firstWrites (.construct rs e d) s).cursorPosition = 0#6 := by
  rcases hr : checkConstruct d s with er | v
  · simp [refusalOf, hr] at h
  · rcases checkConstruct_cases hr with ⟨v, -, rfl, -⟩ | ⟨h, -⟩ | h
    · rw [firstWrites_construct]
      rfl
    all_goals cases h

/-- From a position an operation can leave, every operation that completes leaves such a position (R14). -/
theorem Completed.cursorReachable_end {i : Instr} {s b u t : State} (h : Completed i s b u t)
    (hs : s.lifecycle = .ready → cursorReachable s.cursorPosition.toNat) :
    cursorReachable ((firstWrites i s).cursorPosition.toNat + dataCount (opWords i s)) := by
  rcases h.origin with ⟨hsend, hready⟩ | ⟨⟨rs, e, d, rfl⟩, -⟩
  · have hc := hs hready
    have hacc := h.accepted
    obtain ⟨hi, hcon, hdes⟩ := hsend
    cases i with
    | construct rs e d => exact absurd rfl (hcon rs e d)
    | destruct => exact absurd rfl hdes
    | iClear | iFunc | iDisp _ _ _ | iEntry | iHome | dChar _ | dNull => cases hi
    | clear => exact .inl (Nat.zero_le 16)
    | setText text =>
      simpa [firstWrites, opWords, dataCount_setTextWords]
        using cursorReachable_setTextEnd (length_le_of_setText_accepted hacc)
    | append text =>
      simpa only [firstWrites, opWords, dataCount_appendWords]
        using cursorReachable_appendEnd hc (capacityOk_of_append_accepted hacc).2
    | _ => exact hc
  · rw [cursor_firstWrites_construct h.accepted]
    exact .inl (Nat.zero_le 16)

/-- The cursor of an operation that completes counts its data words (R13). -/
theorem Completed.cursor_end {i : Instr} {s b u t : State} (h : Completed i s b u t) :
    t.cursorPosition.toNat = (firstWrites i s).cursorPosition.toNat + dataCount (opWords i s) := by
  have hfit := cursor_opWords h.accepted
  rw [← h.cursor] at hfit ⊢
  rw [h.result]
  exact h.sent.cursor hfit

/-! ## At rest -/

/-- Every operation that completes transmits at least one word. -/
theorem Completed.opWords_ne_nil {i : Instr} {s b u t : State} (h : Completed i s b u t) : opWords i s ≠ [] := by
  rcases h.origin with ⟨⟨hi, -, hdes⟩, -⟩ | ⟨⟨rs, e, d, rfl⟩, -⟩
  · cases i with
    | destruct => exact absurd rfl hdes
    | iClear | iFunc | iDisp _ _ _ | iEntry | iHome | dChar _ | dNull => cases hi
    | append text =>
      have hne := (capacityOk_of_append_accepted h.accepted).1
      have hlen := length_appendWords s.cursorPosition.toNat text
      have hpos := List.length_pos_iff.2 hne
      refine List.length_pos_iff.1 ?_
      unfold appendEnd at hlen
      simp only [opWords]
      split at hlen <;> omega
    | _ => exact List.cons_ne_nil _ _
  · exact List.cons_ne_nil _ _

/-- The last word leaves E low and every line of the block driven (R90). -/
theorem Completed.lines_end {i : Instr} {s b u t : State} (h : Completed i s b u t) :
    t.levelOf t.eLine = .low ∧ ∀ l ∈ t.lines, t.driven l := by
  have hne := h.opWords_ne_nil
  obtain ⟨-, -, hlines, -, -, hlow, -⟩ := h.sent.transmitted
  obtain rfl := h.result
  refine ⟨?_, fun l hl => h.sent.driven hne l ?_⟩
  · exact (congrArg u.levelOf hlines.2.1).trans (hlow hne)
  · rw [← lines_congr hlines]
    exact hl

/-- Settles O56: the only ending that leaves a READY block changed is that of a completed operation. Its last word
leaves the lines at rest, and its count of data words leaves the cursor on one of the two rows. -/
theorem stepKeepsRest : Obligations.StepKeepsRest := by
  intro s t hs h
  refine step_keeps_idleAndReady
    (P := fun s => cursorReachable s.cursorPosition.toNat ∧ s.levelOf s.eLine = .low ∧ ∀ l ∈ s.lines, s.driven l)
    (fun _ _ hp => hp) (fun _ _ hp => hp) (fun i s b u t hp hc => ⟨?_, hc.lines_end⟩) hs h
  rw [hc.cursor_end]
  exact hc.cursorReachable_end fun hready => (hp hready).1

/-! ## The shadow of the latched trace -/

/-- No word among them is the clear-display word. -/
def NoClear (ws : List Latch) : Prop := ∀ w ∈ ws, w.rs = true ∨ w.byte ≠ Config.clearDisplay

theorem noClear_map_dataWord (bs : List Byte) : NoClear (bs.map dataWord) := by
  intro w hw
  obtain ⟨b, -, rfl⟩ := List.mem_map.1 hw
  exact .inl rfl

theorem noClear_append {ws vs : List Latch} (hw : NoClear ws) (hv : NoClear vs) : NoClear (ws ++ vs) := by
  intro w h
  rcases List.mem_append.1 h with h | h
  · exact hw w h
  · exact hv w h

theorem noClear_charWords (text : List CodePoint) : NoClear (charWords text) := by
  rw [charWords_eq]
  exact noClear_map_dataWord _

theorem noClear_nullWords : NoClear nullWords := by
  rw [nullWords_eq]
  exact noClear_map_dataWord _

theorem noClear_skip (as bs : List CodePoint) : NoClear (charWords as ++ nullWords ++ charWords bs) :=
  noClear_append (noClear_append (noClear_charWords as) noClear_nullWords) (noClear_charWords bs)

theorem noClear_setTextWords (text : List CodePoint) : NoClear (setTextWords text) := by
  unfold setTextWords
  split
  · exact noClear_charWords text
  · exact noClear_skip _ _

theorem noClear_appendWords (c : Nat) (text : List CodePoint) : NoClear (appendWords c text) := by
  unfold appendWords
  split
  · exact noClear_skip _ _
  · exact noClear_charWords text

theorem displayControlByte_ne_clearDisplay (d c b : Bool) : displayControlByte d c b ≠ Config.clearDisplay := by
  revert d c b
  decide

theorem noClear_displayControl (d c b : Bool) : NoClear [instrWord (displayControlByte d c b)] := by
  intro w hw
  rw [List.mem_singleton.1 hw]
  exact .inr (displayControlByte_ne_clearDisplay d c b)

/-- After its first word a clear sequence clears no more (R121). -/
theorem clearWords_eq (d c b : Bool) :
    ∃ ws, clearWords (displayControlByte d c b) = instrWord Config.clearDisplay :: ws ∧ NoClear ws := by
  refine ⟨_, rfl, fun w hw => .inr ?_⟩
  simp only [List.mem_cons, List.not_mem_nil, or_false] at hw
  rcases hw with rfl | rfl | rfl | rfl
  · decide
  · exact displayControlByte_ne_clearDisplay d c b
  · decide
  · decide

/-- An operation that completes clears nothing and goes on from the cursor it found, or begins with a clear at cursor 0
and clears no more (R123). -/
theorem Completed.opWords_clear {i : Instr} {s b u t : State} (h : Completed i s b u t) :
    (s.lifecycle = .ready ∧ (firstWrites i s).cursorPosition = s.cursorPosition ∧
        NoClear (opWords i s)) ∨
      ((firstWrites i s).cursorPosition = 0#6 ∧
        ∃ ws, opWords i s = instrWord Config.clearDisplay :: ws ∧ NoClear ws) := by
  rcases h.origin with ⟨⟨hi, hcon, hdes⟩, hready⟩ | ⟨⟨rs, e, d, rfl⟩, -⟩
  · cases i with
    | construct rs e d => exact absurd rfl (hcon rs e d)
    | destruct => exact absurd rfl hdes
    | iClear | iFunc | iDisp _ _ _ | iEntry | iHome | dChar _ | dNull => cases hi
    | clear => exact .inr ⟨rfl, clearWords_eq _ _ _⟩
    | setText text =>
      obtain ⟨ws, hws, hno⟩ := clearWords_eq s.displayOn s.cursorOn s.blinkOn
      exact .inr ⟨rfl, ws ++ setTextWords text, congrArg (· ++ setTextWords text) hws,
        noClear_append hno (noClear_setTextWords text)⟩
    | append text => exact .inl ⟨hready, rfl, noClear_appendWords _ text⟩
    | _ => exact .inl ⟨hready, rfl, noClear_displayControl _ _ _⟩
  · exact .inr ⟨cursor_firstWrites_construct h.accepted, clearWords_eq true false false⟩

/-- The cells written are exactly those below `c`. -/
def FilledTo (c : Nat) (m : Memory) : Prop := ∀ p, (mapGet m p).isSome = decide (p < c)

theorem filledTo_memoryWrite {c : Nat} {m : Memory} (h : FilledTo c m) (v : Byte) :
    FilledTo (c + 1) (memoryWrite c v m) := by
  intro p
  by_cases hp : p = c
  · subst hp
    simp [memoryWrite]
  · rw [memoryWrite, mapGet_mapPut_ne hp, h p]
    exact decide_eq_decide.2 (by omega)

/-- One word without a clear writes the cell at the cursor if it is data, and no cell otherwise (R86). -/
theorem filledTo_cellsAfterLatch {c : Nat} {m : Memory} {w : Latch} (h : FilledTo c m)
    (hw : w.rs = true ∨ w.byte ≠ Config.clearDisplay) (hc : c ≤ 63) :
    FilledTo (if w.rs then c + 1 else c) (cellsAfterLatch w (BitVec.ofNat 6 c) m) := by
  have hcur : (BitVec.ofNat 6 c).toNat = c := by
    rw [BitVec.toNat_ofNat]
    omega
  unfold cellsAfterLatch
  by_cases hrs : w.rs = true
  · rw [if_pos hrs, if_pos hrs, hcur]
    exact filledTo_memoryWrite h w.byte
  · rw [if_neg hrs, if_neg hrs, if_neg (hw.resolve_left hrs)]
    exact h

/-- The cells follow the cursor through words without a clear. -/
theorem filledTo_cellsAfterWords {ws : List Latch} {c : Nat} {m : Memory} (hno : NoClear ws)
    (hc : c + dataCount ws ≤ 63) (h : FilledTo c m) :
    FilledTo (c + dataCount ws) (cellsAfterWords ws c m) := by
  induction ws generalizing c m with
  | nil => exact h
  | cons w ws ih =>
    rw [dataCount_cons] at hc ⊢
    have hstep := filledTo_cellsAfterLatch h (hno w (by simp)) (by omega)
    have hsum : c + (dataCount ws + if w.rs then 1 else 0) = (if w.rs then c + 1 else c) + dataCount ws := by
      split <;> omega
    rw [cellsAfterWords, hsum]
    exact ih (fun v hv => hno v (by simp [hv])) (by omega) hstep

/-- The latched trace's own count follows the data words too. -/
theorem dataSinceClear_append {ws : List Latch} (hno : NoClear ws) (ls : List Latch) :
    dataSinceClear (ls ++ ws) = dataSinceClear ls + dataCount ws := by
  unfold dataSinceClear
  rw [List.foldl_append]
  generalize ls.foldl _ 0 = n
  induction ws generalizing n with
  | nil => rfl
  | cons w ws ih =>
    rw [List.foldl_cons, ih (fun v hv => hno v (by simp [hv])), dataCount_cons]
    have hstep : (if w.rs then n + 1 else if w.byte = Config.clearDisplay then 0 else n) =
        n + if w.rs then 1 else 0 := by
      rcases hno w (by simp) with hrs | hbyte
      · simp [hrs]
      · rw [if_neg hbyte]
        split <;> rfl
    rw [hstep]
    omega

/-- A clear-display word starts the count again. -/
theorem dataSinceClear_clear {ws : List Latch} (hno : NoClear ws) (ls : List Latch) :
    dataSinceClear (ls ++ instrWord Config.clearDisplay :: ws) = dataCount ws := by
  have hclear : dataSinceClear (ls ++ [instrWord Config.clearDisplay]) = 0 := by
    simp [dataSinceClear]
  rw [List.append_cons, dataSinceClear_append hno, hclear, Nat.zero_add]

/-- The clear-display word leaves every cell unknown (U9). -/
theorem cellsAfterWords_clear (ws : List Latch) (c : Nat) (m : Memory) :
    cellsAfterWords (instrWord Config.clearDisplay :: ws) c m = cellsAfterWords ws c [] := rfl

theorem filledTo_nil : FilledTo 0 [] := fun p => by simp [mapGet]

/-- In a block with distinct lines and a sufficient delay the cursor shadows the latched trace and the cells. -/
def Shadows (s : State) : Prop :=
  s.linesDistinct → s.timingMet →
    cursorReachable s.cursorPosition.toNat ∧ s.cursorPosition.toNat = dataSinceClear s.latched ∧
      FilledTo s.cursorPosition.toNat s.cells

/-- The latched trace and the cells after a completed operation. -/
theorem Completed.seen_end {i : Instr} {s b u t : State} (h : Completed i s b u t) (hd : t.linesDistinct)
    (ht : t.timingMet) :
    b.linesDistinct ∧ b.timingMet ∧ t.latched = s.latched ++ opWords i s ∧
      t.cells = cellsAfterWords (opWords i s) (firstWrites i s).cursorPosition.toNat s.cells := by
  have hfit := cursor_opWords h.accepted
  obtain ⟨-, -, hlines, hinputs, -, -, hlatched⟩ := h.sent.transmitted
  obtain rfl := h.result
  have hbd : b.linesDistinct := (linesDistinct_congr hlines).1 hd
  have hbt : b.timingMet := (timingMet_congr hinputs).1 ht
  refine ⟨hbd, hbt, ?_, ?_⟩
  · exact (hlatched hbd hbt).1.trans (by rw [h.latched])
  · rw [← h.cursor] at hfit ⊢
    exact (h.sent.cells hfit hbd hbt).trans (by rw [h.cells])

/-- A READY block keeps its lines: `CONSTRUCT` does not complete in it (R168). -/
theorem Completed.lines_of_ready {i : Instr} {s b u t : State} (h : Completed i s b u t) (hs : s.lifecycle = .ready) :
    SameLines s b := by
  rcases h.origin with ⟨⟨-, hcon, -⟩, -⟩ | ⟨-, hlife⟩
  · obtain ⟨-, -, -, -, -, -, -, hlines, -⟩ := firstWrites_frame i s
    exact sameLines_trans (hlines hcon) h.lines
  · rw [hs] at hlife
    rcases hlife with hlife | hlife <;> cases hlife

theorem Completed.shadows {i : Instr} {s b u t : State} (h : Completed i s b u t)
    (hs : s.lifecycle = .ready → Shadows s) : Shadows t := by
  intro hd ht
  have hfit := cursor_opWords h.accepted
  obtain ⟨hbd, hbt, hlatched, hcells⟩ := h.seen_end hd ht
  have hready : s.lifecycle = .ready → _ := fun hr =>
    hs hr ((linesDistinct_congr (h.lines_of_ready hr)).1 hbd) ((timingMet_congr h.inputs).1 hbt)
  rw [h.cursor_end, hlatched, hcells]
  refine ⟨h.cursorReachable_end fun hr => (hready hr).1, ?_⟩
  rcases h.opWords_clear with ⟨hr, hcur, hno⟩ | ⟨hcur, ws, hws, hno⟩
  · obtain ⟨-, hshadow, hfilled⟩ := hready hr
    rw [hcur] at hfit ⊢
    exact ⟨by rw [dataSinceClear_append hno, hshadow], filledTo_cellsAfterWords hno hfit hfilled⟩
  · have hcount : dataCount (instrWord Config.clearDisplay :: ws) = dataCount ws := dataCount_cons _ ws
    rw [hcur, hws, hcount] at hfit ⊢
    rw [dataSinceClear_clear hno, cellsAfterWords_clear]
    exact ⟨Nat.zero_add _, filledTo_cellsAfterWords hno hfit filledTo_nil⟩

/-- Settles O57: a completed operation either goes on from the cursor it found or clears first. From there the cursor,
the latched trace's count and the cells written advance together, one data word at a time. -/
theorem stepKeepsTheShadowTrue : Obligations.StepKeepsTheShadowTrue := fun _ _ hs h =>
  step_keeps_idleAndReady (P := Shadows) (fun _ _ hp => hp) (fun _ _ hp => hp)
    (fun _ _ _ _ _ hp hc => hc.shadows hp) hs h

end Sys2Proof.Proofs

namespace Sys2Proof.Proofs
open Sys2Proof.Machine

/-! ## A step inside an operation -/

/-- Settles O7: the selected word is run from its first call. -/
theorem stepRunsTheSelectedWord : Obligations.StepRunsTheSelectedWord := by
  intro s p i hseq hsel hphase
  simp only [step, hseq, hsel, hphase, if_true]

/-- At a later phase the step is what remains of the word (R82). -/
theorem step_resumes_word {s : State} {p : SeqPos} {i : Instr} {v : Byte} {rs : Bool} (hseq : s.seq = .busy p)
    (hsel : selectWord p s = some i) (hw : wordParts i = some (v, rs)) (hp : p.phase ≠ 0) :
    step s = afterWord p.op (nextPos p s) (finishWord (sendFrom p.phase v rs s)) := by
  simp only [step, hseq, hsel, if_neg hp, resumeWord, hw]

/-- A word whose remaining calls are quiet makes them all, and moves the cursor if it is data (R82, R86). -/
theorem sendFrom_quiet {k : Nat} {v : Byte} {rs : Bool} {s : State} (hq : s.quietFor (21 - k)) :
    sendFrom k v rs s =
      .going (if rs then (applyAll ((transmitCalls s v rs).drop k) s).advanceCursor
        else applyAll ((transmitCalls s v rs).drop k) s) := by
  rw [sendFrom, (transmitFrom_going_iff k v rs s _).2 ⟨hq, rfl⟩]
  rfl

theorem advanceCursor_toNat {s : State} (h : s.cursorPosition.toNat < 63) :
    s.advanceCursor.cursorPosition.toNat = s.cursorPosition.toNat + 1 := by
  have hne : s.cursorPosition ≠ 63#6 := fun he => by simp [he] at h
  simp only [State.advanceCursor, State.setCursorPosition_cursorPosition, if_neg hne]
  bv_omega

theorem sameInputs_trans {s t u : State} (h : SameInputs s t) (h' : SameInputs t u) : SameInputs s u :=
  ⟨h'.1.trans h.1, h'.2.1.trans h.2.1, h'.2.2.1.trans h.2.2.1, h'.2.2.2.trans h.2.2.2⟩

/-- `t` is `s` after a word that began at phase `k` has made its last call, the sequencer not yet moved on. -/
structure WordRested (s t : State) (k : Nat) (v : Byte) (rs : Bool) : Prop where
  events : t.events = s.events ++ (transmitCalls s v rs).drop k
  calls : t.calls = s.calls + (21 - k)
  lines : SameLines s t
  flags : SameFlags s t
  inputs : SameInputs s t
  seq : t.seq = s.seq
  lifecycle : t.lifecycle = s.lifecycle
  returned : t.returned = s.returned
  instrCursor : rs = false → t.cursorPosition = s.cursorPosition
  dataCursor : rs = true → s.cursorPosition.toNat < 63 → t.cursorPosition.toNat = s.cursorPosition.toNat + 1

theorem sendFrom_rested {k : Nat} {v : Byte} {rs : Bool} {s : State} (hq : s.quietFor (21 - k)) :
    ∃ t, sendFrom k v rs s = .going t ∧ WordRested s t k v rs := by
  obtain ⟨hl, hf, hc, hlife, hseq, hev, hcalls, hret, hin⟩ := applyAll_fields ((transmitCalls s v rs).drop k) s
  rw [List.length_drop, length_transmitCalls] at hcalls
  refine ⟨_, sendFrom_quiet hq, ?_⟩
  cases rs with
  | false => exact ⟨hev, hcalls, hl, hf, hin, hseq, hlife, hret, fun _ => hc, nofun⟩
  | true =>
    refine ⟨hev, hcalls, hl, hf, hin, hseq, hlife, hret, nofun, fun _ h63 => ?_⟩
    rw [← hc] at h63 ⊢
    exact advanceCursor_toNat h63

/-- Ending an operation with OK leaves the traces, the line registers, the flags, the inputs and the cursor alone. -/
theorem completeOp_frame (op : OpName) (t : State) :
    (completeOp op t).events = t.events ∧ (completeOp op t).calls = t.calls ∧ SameLines t (completeOp op t) ∧
      SameFlags t (completeOp op t) ∧ SameInputs t (completeOp op t) ∧
      (completeOp op t).cursorPosition = t.cursorPosition ∧ (completeOp op t).seq = .idle ∧
      (completeOp op t).returned = some .ok := by
  unfold completeOp
  split <;> exact ⟨rfl, rfl, ⟨rfl, rfl, rfl⟩, ⟨rfl, rfl, rfl⟩, ⟨rfl, rfl, rfl, rfl⟩, rfl, rfl, rfl⟩

/-- Settles O8: the rest of the word's calls, then the sequencer's next position or the end of the operation. -/
theorem stepMakesTheRemainingCalls : Obligations.StepMakesTheRemainingCalls := by
  intro s p i v rs hseq hsel hw hlo _ hq
  obtain ⟨t, ht, h⟩ := sendFrom_rested (v := v) (rs := rs) hq
  have hbusy : t.seq ≠ .idle := by
    rw [h.seq, hseq]
    simp
  rw [step_resumes_word hseq hsel hw (by omega), ht]
  simp only [finishWord, afterWord, if_neg hbusy]
  cases nextPos p s with
  | some q =>
    exact ⟨_, rfl, h.events, h.calls, h.lines, h.flags, h.inputs, h.instrCursor, h.dataCursor, rfl, h.lifecycle,
      h.returned⟩
  | none =>
    obtain ⟨hev, hcalls, hl, hf, hin, hc, hidle, hret⟩ := completeOp_frame p.op t
    exact ⟨_, rfl, hev.trans h.events, hcalls.trans h.calls, sameLines_trans h.lines hl, sameFlags_trans h.flags hf,
      sameInputs_trans h.inputs hin, fun hrs => hc.trans (h.instrCursor hrs),
      fun hrs h63 => (congrArg BitVec.toNat hc).trans (h.dataCursor hrs h63), hidle, hret⟩

/-! ## The sequencer, run to the end -/

theorem clearSeq_setCursorPosition (s : State) : clearSeq (s.setCursorPosition 0#6) = clearSeq s := rfl

/-- A clear that ends the operation, from its beginning. -/
theorem comes_clear {op : OpName} (hop : op ≠ .setText) {u : State} (hcur : u.cursorPosition = 0#6) :
    Comes (u.setSeq (.busy { op := op, stage := .clear 0 })) (finishOp op (clearSeq u)) := by
  have h := comes_clearSeq (p := { op := op, stage := .clear 0 }) (u := u) (k := fun t => .going t) rfl rfl hcur
    fun t _ => .inr ⟨if_neg hop, rfl⟩
  rwa [Run.bind_going] at h

/-- A clear and then the text of `SET_TEXT`, from its beginning. -/
theorem comes_setText (text : List (BitVec 7)) {u : State} (hcur : u.cursorPosition = 0#6) :
    Comes (u.setSeq (.busy { op := .setText, stage := .clear 0, text := text }))
      (finishOp .setText ((clearSeq u).bind (setTextLoop (bytesFrom text 0)))) := by
  refine comes_clearSeq (p := { op := .setText, stage := .clear 0, text := text }) rfl rfl hcur fun t _ => ?_
  cases text with
  | nil => exact .inr ⟨rfl, rfl⟩
  | cons c cs => exact .inl ⟨atChar .setText (c :: cs) 0, rfl, comes_setTextLoop cs.length _ 0 t (by simp)⟩

/-- Where `CONSTRUCT` begins (R162). -/
abbrev atSetup : SeqPos := { op := .construct, stage := .setup 0 }

/-- Where `DESTRUCT` begins (R165). -/
abbrev atRelease : SeqPos := { op := .destruct, stage := .release }

/-- The line set-up in one step (R162), and then the clear, from its beginning. -/
theorem comes_construct {u : State} (hcur : u.cursorPosition = 0#6) :
    Comes (u.setSeq (.busy atSetup)) (finishOp .construct ((emitAll (setupCalls u) u).bind clearSeq)) := by
  have hstep : step (u.setSeq (.busy atSetup)) = resumeSetup 0 atSetup (u.setSeq (.busy atSetup)) := rfl
  have hcalls : (setupCalls (u.setSeq (.busy atSetup))).drop 0 = setupCalls u := rfl
  rw [resumeSetup, hcalls, emitAll_setSeq] at hstep
  rcases hrun : emitAll (setupCalls u) u with t | ⟨e, t⟩ <;> rw [hrun] at hstep
  · obtain ⟨-, rfl⟩ := (emitAll_going_iff _ _ _).1 hrun
    obtain ⟨-, -, hc, -⟩ := applyAll_fields (setupCalls u) u
    exact comes_step hstep (comes_clear (by simp) (hc.trans hcur))
  · exact comes_step hstep (comes_now _)

theorem swallow_emit_setSeq (c : BackendCall) (s : State) (q : Seq) :
    swallow (emit c (s.setSeq q)) = (swallow (emit c s)).setSeq q := by
  rw [emit_setSeq]
  cases emit c s <;> rfl

/-- The release is one step, which does not read `seq` (R165). -/
theorem comes_destruct (s : State) : Comes (s.setSeq (.busy atRelease)) (finish (destructOp s)) := by
  have hstep : step (s.setSeq (.busy atRelease)) = finish (destructOp (s.setSeq (.busy atRelease))) := rfl
  rw [destructOp, swallow_emit_setSeq] at hstep
  exact comes_step hstep (comes_now _)

/-- An operation that its checks refuse ends before its first step; past the checks, what is left is its body. -/
theorem comes_startWith {α : Type} {c : Except Status α} {s : State} (hs : s.seq = .idle)
    (hc : ∀ e, c = .error e → Precise e) {k : α → State → Run} {k' : α → State}
    (hk : ∀ a, c = .ok a → Comes (k' a) (finish (k a s))) :
    Comes (startWith c s k') (finish (afterChecks c s k)) := by
  cases c with
  | error e =>
    have hend : finish (afterChecks (.error e) s k) = .next (s.endWith e) := by
      rw [endWith_idle hs]
      exact finish_raise_precise hs (hc e rfl)
    rw [hend]
    exact comes_now _
  | ok a => exact hk a rfl

/-- `CONSTRUCT` makes the handle READY as its last act (R161). -/
theorem finish_ready (r : Run) : finish (r.bind fun t => .going (t.setLifecycle .ready)) = finishOp .construct r := by
  cases r <;> rfl

theorem construct_comes (rs e : LineId) (d : List LineId) {s : State} (hs : s.seq = .idle) :
    Comes (startOp (.construct rs e d) s) (exec (.construct rs e d) s) := by
  simp only [exec, execConstruct, hostOp_idle hs, constructOp, startOp]
  refine comes_startWith hs (fun e h => checkConstruct_precise h) fun v _ => ?_
  rw [← Run.bind_assoc, finish_ready]
  exact comes_construct rfl

theorem clear_comes {s : State} (hs : s.seq = .idle) : Comes (startOp .clear s) (exec .clear s) := by
  simp only [exec, execClear, hostOp_idle hs, clearOp, startOp]
  refine comes_startWith hs (fun e h => checkReady_precise h) fun _ _ => ?_
  have h := comes_clear (op := .clear) (by simp) (u := s.setCursorPosition 0#6) rfl
  rwa [clearSeq_setCursorPosition, finishOp_eq (by simp)] at h

theorem setText_comes (text : List CodePoint) {s : State} (hs : s.seq = .idle) :
    Comes (startOp (.setText text) s) (exec (.setText text) s) := by
  simp only [exec, execSetText, hostOp_idle hs, setTextOp, startOp]
  refine comes_startWith hs (fun e h => checkSetText_precise h) fun bytes hb => ?_
  rcases checkSetText_cases hb with ⟨h, -, -, hascii⟩ | ⟨h, -⟩ | h | h <;> cases h
  have h := comes_setText ((text.map byteOfCodePoint).map charOfByte) (u := s.setCursorPosition 0#6) rfl
  rwa [bytesFrom_encoded hascii, clearSeq_setCursorPosition, finishOp_eq (by simp)] at h

theorem append_comes (text : List CodePoint) {s : State} (hs : s.seq = .idle) :
    Comes (startOp (.append text) s) (exec (.append text) s) := by
  simp only [exec, execAppend, hostOp_idle hs, appendOp, startOp]
  refine comes_startWith hs (fun e h => checkAppend_precise h) fun bytes hb => ?_
  rcases checkAppend_cases hb with ⟨h, -, hne, -, hascii⟩ | ⟨h, -⟩ | h | h <;> cases h
  have hlen := List.length_pos_iff.2 hne
  have h := comes_appendLoop (text.length - 1) ((text.map byteOfCodePoint).map charOfByte) 0 s
    (by simp only [List.length_map]; omega)
  rwa [bytesFrom_encoded hascii, finishOp_eq (by simp)] at h

/-- Settles O60: operation by operation, over the laws of the clear sequence, the text loops and the set operations. -/
theorem sequencerRunsTheWholeOperation : Obligations.SequencerRunsTheWholeOperation := by
  intro s i hi hs
  cases i with
  | iClear | iFunc | iDisp _ _ _ | iEntry | iHome | dChar _ | dNull => cases hi
  | construct rs e d => exact construct_comes rs e d hs
  | destruct =>
    rw [exec_destruct_idle hs]
    exact comes_destruct s
  | clear => exact clear_comes hs
  | setText text => exact setText_comes text hs
  | append text => exact append_comes text hs
  | setDisplay b => exact comes_mode (op := .setDisplay) nofun (fun t => t.setDisplayOn b) hs
  | setCursor b => exact comes_mode (op := .setCursor) nofun (fun t => t.setCursorOn b) hs
  | setBlink b => exact comes_mode (op := .setBlink) nofun (fun t => t.setBlinkOn b) hs
  | displayOn => exact comes_mode (op := .displayOn) nofun (fun t => t.setDisplayOn true) hs
  | displayOff => exact comes_mode (op := .displayOff) nofun (fun t => t.setDisplayOn false) hs
  | cursorOn => exact comes_mode (op := .cursorOn) nofun (fun t => t.setCursorOn true) hs
  | cursorOff => exact comes_mode (op := .cursorOff) nofun (fun t => t.setCursorOn false) hs
  | blinkOn => exact comes_mode (op := .blinkOn) nofun (fun t => t.setBlinkOn true) hs
  | blinkOff => exact comes_mode (op := .blinkOff) nofun (fun t => t.setBlinkOn false) hs

/-! ## Reset -/

/-- Settles O58: with no line claimed, no cell written and the block UNBOUND, each invariant is met. -/
theorem resetMeetsTheInvariants : Obligations.ResetMeetsTheInvariants :=
  ⟨⟨linesWf_nil, memoryWf_nil⟩, ⟨rfl, nofun⟩, ⟨rfl, nofun⟩⟩

/-- Settles O59: the values of the reset state as it is written out. -/
theorem resetValues : Obligations.ResetValues :=
  ⟨rfl, rfl, rfl, rfl, rfl, rfl, fun _ => rfl, rfl, rfl⟩

end Sys2Proof.Proofs

namespace Sys2Proof.Proofs
open Sys2Proof.Machine

/-! ## The canonical form of the two maps -/

/-- A six-bit cursor is one of the 80 positions, so what a latched word does to the cells keeps their form (R30). -/
theorem memoryWf_cellsAfterLatch {m : Memory} (hm : Memory.wf m) (w : Latch) (c : BitVec 6) :
    Memory.wf (cellsAfterLatch w c m) := by
  have hc : c.toNat < cellCount := Nat.lt_trans c.isLt (by decide)
  unfold cellsAfterLatch
  split
  · exact memoryWf_memoryWrite hc hm
  · split
    · exact memoryWf_nil
    · exact hm

theorem canonical_putLevel {s : State} (h : s.canonical) (l : LineId) (v : Level) : (s.putLevel l v).canonical :=
  ⟨linesWf_linesPut h.1, h.2⟩

theorem canonical_indeterminate {s : State} (h : s.canonical) : s.indeterminate.canonical := ⟨h.1, memoryWf_nil⟩

theorem canonical_observeFall {s : State} (h : s.canonical) : s.observeFall.canonical := by
  unfold State.observeFall
  split
  · exact ⟨h.1, memoryWf_cellsAfterLatch h.2 _ _⟩
  · exact canonical_indeterminate h

theorem canonical_applyCall (c : BackendCall) {s : State} (h : s.canonical) : (applyCall c s).canonical := by
  cases c with
  | cfg l => exact canonical_putLevel h l _
  | write l b =>
    have ht := canonical_putLevel h l (levelOfBool b)
    simp only [applyCall]
    split
    · exact canonical_observeFall ht
    · exact ht
  | sleep d => exact h
  | rel =>
    simp only [applyCall]
    split
    · exact ⟨linesWf_nil, memoryWf_nil⟩
    · exact ⟨linesWf_nil, h.2⟩

theorem canonical_faultCall (c : BackendCall) {s : State} (h : s.canonical) : (faultCall c s).canonical := by
  cases c with
  | cfg l | write l b => exact canonical_putLevel h l _
  | sleep d => exact h
  | rel => exact canonical_applyCall .rel h

/-- Every act of a step keeps the canonical form: only backend calls write the two maps. -/
theorem keptBySteps_canonical : KeptBySteps State.canonical where
  record _ _ h := h
  apply _ c _ h := canonical_applyCall c h
  fault _ c _ h := canonical_faultCall c h
  faulted _ h := h
  indeterminate _ h := canonical_indeterminate h
  cursor _ _ h := h
  ends _ _ h := h
  lifecycle _ _ h := h
  bind _ _ _ _ h := h
  display _ _ h := h
  cursorFlag _ _ h := h
  blink _ _ h := h
  release _ h := canonical_applyCall .rel h
  seq _ _ h := h
  host _ _ h := h

/-- Settles O55: a property that every act of a step keeps is kept by every step. -/
theorem stepKeepsCanonicalForm : Obligations.StepKeepsCanonicalForm :=
  fun _ _ hs h => step_all keptBySteps_canonical hs h

end Sys2Proof.Proofs

namespace Sys2Proof.Proofs
open Sys2Proof.Machine

/-! ## The calls an instruction makes -/

/-- From `s` on, the run has made the calls `cs` if it goes on, and a beginning of them if a *fault* answer ended it
(R38, R186). -/
structure Makes (r : Run) (s : State) (cs : List BackendCall) : Prop where
  going : ∀ t, r = .going t → t.events = s.events ++ cs ∧ t.faultAt = s.faultAt
  raised : ∀ e t, r = .raised e t → t.events <+: s.events ++ cs ∧ s.faultAt ≠ []

theorem emitAll_makes (cs : List BackendCall) (s : State) : Makes (emitAll cs s) s cs where
  going t ht := by
    obtain ⟨-, rfl⟩ := (emitAll_going_iff cs s t).1 ht
    obtain ⟨-, -, -, -, -, hev, -, -, -, hfault, -⟩ := applyAll_fields cs s
    exact ⟨hev, hfault⟩
  raised e t ht := by
    obtain ⟨-, pre, c, post, rfl, -, hfault, rfl⟩ := emitAll_raised ht
    obtain ⟨-, -, -, -, -, hev, -⟩ := cutAt_fields pre c s
    exact ⟨⟨post, by simp [hev]⟩, List.ne_nil_of_mem hfault⟩

theorem makes_of_sends {r : Run} {s : State} {ws : List Latch} (h : r.Sends s ws) :
    Makes r s (wordCalls s ws) where
  going t ht := by
    obtain ⟨hev, -, -, ⟨-, hfault, -⟩, -⟩ := (h.going t ht).2.transmitted
    exact ⟨hev, hfault⟩
  raised e t ht := by
    obtain ⟨-, n, hcut⟩ := h.raised e t ht
    exact ⟨hcut.events ▸ (List.prefix_append_right_inj _).2 (List.take_prefix _ _), List.ne_nil_of_mem hcut.fault⟩

theorem Makes.bind {r : Run} {k : State → Run} {s : State} {cs ds : List BackendCall} (h : Makes r s cs)
    (hk : ∀ t, r = .going t → Makes (k t) t ds) : Makes (r.bind k) s (cs ++ ds) := by
  cases r with
  | going t =>
    obtain ⟨hev, hfault⟩ := h.going t rfl
    obtain ⟨hgo, hra⟩ := hk t rfl
    rw [hev, hfault, List.append_assoc] at hgo hra
    exact ⟨hgo, hra⟩
  | raised e t =>
    obtain ⟨hev, hfault⟩ := h.raised e t rfl
    refine ⟨fun u hu => (by cases hu), fun e' u hu => ?_⟩
    cases hu
    exact ⟨hev.trans (List.append_assoc s.events cs ds ▸ List.prefix_append _ ds), hfault⟩

/-- The calls an instruction makes when none of them answers *fault*; an operation that its checks refuse makes none. -/
def callsOf (i : Instr) (s : State) : List BackendCall :=
  match wordParts i, refusalOf i s with
  | some (v, rs), _ => transmitCalls s v rs
  | none, some _ => []
  | none, none => opCalls i s

theorem callsOf_word {i : Instr} {v : Byte} {rs : Bool} (h : wordParts i = some (v, rs)) (s : State) :
    callsOf i s = transmitCalls s v rs := by
  simp only [callsOf, h]

theorem wordParts_of_not_isEmitted {i : Instr} (h : i.isEmitted = false) : wordParts i = none := by
  cases i with
  | iClear | iFunc | iDisp _ _ _ | iEntry | iHome | dChar _ | dNull => cases h
  | _ => rfl

theorem callsOf_refused {i : Instr} {s : State} {e : Status} (hi : i.isEmitted = false)
    (h : refusalOf i s = some e) : callsOf i s = [] := by
  simp only [callsOf, wordParts_of_not_isEmitted hi, h]

theorem callsOf_accepted {i : Instr} {s : State} (hi : i.isEmitted = false) (h : refusalOf i s = none) :
    callsOf i s = opCalls i s := by
  simp only [callsOf, wordParts_of_not_isEmitted hi, h]

/-! ## The same calls, whatever the backend answers -/

theorem opCalls_faultAt (i : Instr) (s : State) (fs : List Nat) :
    opCalls i { s with faultAt := fs } = opCalls i s := by
  cases i with
  | construct rs e d =>
    simp only [opCalls, callsBeforeWords, firstWrites]
    cases dataLinesOf d <;> rfl
  | _ => rfl

theorem refusalOf_faultAt (i : Instr) (s : State) (fs : List Nat) :
    refusalOf i { s with faultAt := fs } = refusalOf i s := by
  cases i <;> rfl

/-- Which calls an instruction makes does not depend on which of them will answer *fault* (R6). -/
theorem callsOf_faultAt (i : Instr) (s : State) (fs : List Nat) :
    callsOf i { s with faultAt := fs } = callsOf i s := by
  rw [callsOf, refusalOf_faultAt, opCalls_faultAt]
  rfl

/-! ## Every instruction makes its calls, or a beginning of them -/

/-- The events from `s` to `t` are a beginning of `cs`, and all of `cs` if no call can answer *fault*. -/
def MadeOf (cs : List BackendCall) (s t : State) : Prop :=
  t.events <+: s.events ++ cs ∧ (s.faultAt = [] → t.events = s.events ++ cs)

theorem Makes.all {r : Run} {s : State} {cs : List BackendCall} (h : Makes r s cs) :
    r.all (MadeOf cs s) := by
  cases r with
  | going u =>
    obtain ⟨hev, -⟩ := h.going u rfl
    exact ⟨hev ▸ List.prefix_rfl, fun _ => hev⟩
  | raised e u =>
    obtain ⟨hev, hfault⟩ := h.raised e u rfl
    exact ⟨hev, fun hno => absurd hno hfault⟩

theorem madeOf_finish {r : Run} {s t : State} {cs : List BackendCall} (h : Makes r s cs)
    (ht : finish r = .next t) : MadeOf cs s t := by
  have hall := h.all
  cases r <;> cases ht <;> exact hall

theorem madeOf_finishWord {r : Run} {s t : State} {cs : List BackendCall} (h : Makes r s cs)
    (ht : finishWord r = .next t) : MadeOf cs s t := by
  have hall := h.all
  cases r <;> cases ht <;> exact hall

theorem madeOf_refused {i : Instr} {s t : State} {e : Status} (hi : i.isEmitted = false)
    (href : refusalOf i s = some e) (ht : t = s.setReturned e) : MadeOf (callsOf i s) s t := by
  rw [callsOf_refused hi href, MadeOf, ht, List.append_nil]
  exact ⟨List.prefix_rfl, fun _ => rfl⟩

theorem madeOf_word {i : Instr} (hi : i.isEmitted = true) {s t : State} (h : exec i s = .next t) :
    MadeOf (callsOf i s) s t := by
  obtain ⟨v, rs, hw⟩ := wordParts_of_isEmitted hi
  obtain ⟨r, hr, hsends⟩ := emitted_sends hw s
  have hmakes := makes_of_sends hsends
  rw [wordCalls, List.flatMap_singleton, ← callsOf_word hw] at hmakes
  exact madeOf_finishWord hmakes (hr ▸ h)

/-- Only `CONSTRUCT` and `DESTRUCT` make calls before their words (R162, R165). -/
theorem opCalls_of_isSending {i : Instr} (hi : Instr.isSending i) (s : State) :
    opCalls i s = wordCalls (firstWrites i s) (opWords i s) := by
  obtain ⟨hi, hc, hd⟩ := hi
  cases i with
  | iClear | iFunc | iDisp _ _ _ | iEntry | iHome | dChar _ | dNull => cases hi
  | construct rs e d => exact absurd rfl (hc rs e d)
  | destruct => exact absurd rfl hd
  | _ => rfl

theorem madeOf_sending {i : Instr} (hi : Instr.isSending i) {s t : State} (h : exec i s = .next t) :
    MadeOf (callsOf i s) s t := by
  rcases sending_cases hi (idle_of_next hi.1 h) with ⟨e, href, -, he⟩ | ⟨hacc, -, r, hr, hsends⟩
  · rw [he] at h
    cases h
    exact madeOf_refused hi.1 href rfl
  · obtain ⟨-, hev, -, -, -, -, -, -, -, hfault, -⟩ := firstWrites_frame i s
    have hmade := madeOf_finish (makes_of_sends hsends) (hr ▸ h)
    rw [← opCalls_of_isSending hi, ← callsOf_accepted hi.1 hacc, MadeOf, hev, hfault] at hmade
    exact hmade

/-- `CONSTRUCT` past its checks: the line set-up, then the words of the clear sequence (R161, R162). -/
theorem constructBody_makes (u : State) :
    Makes ((emitAll (setupCalls u) u).bind fun u => (clearSeq u).bind fun u => .going (u.setLifecycle .ready)) u
      (setupCalls u ++ wordCalls u (clearWords u.dcb)) := by
  refine (emitAll_makes _ u).bind fun t ht => ?_
  obtain ⟨-, rfl⟩ := (emitAll_going_iff _ _ _).1 ht
  obtain ⟨hl, hf, -, -, -, -, -, -, hin⟩ := applyAll_fields (setupCalls u) u
  generalize applyAll (setupCalls u) u = t at *
  have hclear := makes_of_sends (clearSeq_sends t)
  rw [wordCalls_congr (t := t.setCursorPosition 0#6) hl hin.2.2.1, dcb_congr hf] at hclear
  rw [← List.append_nil (wordCalls _ _)]
  refine Makes.bind ⟨hclear.going, hclear.raised⟩ fun w _ => ⟨fun x hx => ?_, fun e x hx => by cases hx⟩
  cases hx
  exact ⟨(List.append_nil _).symm, rfl⟩

theorem madeOf_construct {rs e : LineId} {d : List LineId} {s t : State}
    (h : exec (.construct rs e d) s = .next t) : MadeOf (callsOf (.construct rs e d) s) s t := by
  rcases construct_cases rs e d (idle_of_next rfl h) with ⟨er, href, -, he⟩ | ⟨v, hacc, rfl, -, hr⟩
  · rw [he] at h
    cases h
    exact madeOf_refused rfl href rfl
  · have hmade := madeOf_finish (constructBody_makes (constructed rs e v s)) (hr ▸ h)
    rw [callsOf_accepted rfl hacc]
    simp only [opCalls, callsBeforeWords, opWords, firstWrites_construct]
    exact hmade

/-- The release is one call, however it is answered (R165). -/
theorem madeOf_destruct {s t : State} (h : exec .destruct s = .next t) : MadeOf (callsOf .destruct s) s t := by
  rw [exec_destruct_idle (idle_of_next rfl h)] at h
  cases h
  have hev : (swallow (emit .rel s)).events = s.events ++ [.rel] := by
    rw [emit_eq]
    obtain ⟨-, -, -, -, -, hdone, -⟩ := rest_fields (applyCall_rest .rel (s.recordCall .rel))
    split <;> exact hdone
  exact ⟨hev ▸ List.prefix_rfl, fun _ => hev⟩

theorem madeOf_exec {i : Instr} {s t : State} (h : exec i s = .next t) : MadeOf (callsOf i s) s t := by
  by_cases hi : i.isEmitted = true
  · exact madeOf_word hi h
  · rw [Bool.not_eq_true] at hi
    cases i with
    | construct rs e d => exact madeOf_construct h
    | destruct => exact madeOf_destruct h
    | _ => exact madeOf_sending ⟨hi, nofun, nofun⟩ h

/-- Settles O49: both runs make the calls of the instruction, the faultless one all of them, the other a beginning. -/
theorem faultOnlyCutsTheTrace : Obligations.FaultOnlyCutsTheTrace := by
  intro s t u i ht hu
  obtain ⟨hprefix, -⟩ := madeOf_exec ht
  obtain ⟨-, hwhole⟩ := madeOf_exec hu
  rw [hwhole rfl, callsOf_faultAt]
  exact hprefix

end Sys2Proof.Proofs

namespace Sys2Proof.Proofs
open Sys2Proof.Machine

/-! ## The decoder and the encoder, row by row -/

/-- The display-control byte of R53 is the bit pattern `00001DCB` of R51. -/
theorem encode_iDisp (d c b : Bool) :
    encode (.iDisp d c b) = .emitted (emittedWord false (displayControlByte d c b)) := by
  revert d c b
  decide

/-- The emitted word of a row is made of the parts the transmitter sends (R51, R62). -/
theorem encode_of_wordParts {i : Instr} {v : Byte} {rs : Bool} (h : wordParts i = some (v, rs)) :
    encode i = .emitted (emittedWord rs v) := by
  cases i with
  | iDisp d c b =>
    cases h
    exact encode_iDisp d c b
  | dChar c =>
    cases h
    rw [BitVec.setWidth_eq_append (by decide : 7 ≤ 8)]
    rfl
  | iClear | iFunc | iEntry | iHome | dNull =>
    cases h
    rfl
  | _ => cases h

/-- A display-control word is one of 0x008 to 0x00F (R56). -/
theorem extract_iDisp_iff (w : EmittedWord) :
    w.extractLsb' 3 6 = 0b000001#6 ↔ 0x008 ≤ w.toNat ∧ w.toNat ≤ 0x00F := by
  rw [← BitVec.toNat_inj]
  simp only [BitVec.extractLsb'_toNat, Nat.shiftRight_eq_div_pow, Nat.reducePow, BitVec.toNat_ofNat, Nat.one_mod]
  omega

/-- A character word is one of 0x100 to 0x17F (R56). -/
theorem extract_dChar_iff (w : EmittedWord) :
    w.extractLsb' 7 2 = 0b10#2 ↔ 0x100 ≤ w.toNat ∧ w.toNat ≤ 0x17F := by
  rw [← BitVec.toNat_inj]
  simp only [BitVec.extractLsb'_toNat, Nat.shiftRight_eq_div_pow, Nat.reducePow, BitVec.toNat_ofNat, Nat.reduceMod]
  omega

/-- A bit is the field of one bit there. -/
theorem ofBool_getLsbD {n : Nat} (x : BitVec n) (k : Nat) : BitVec.ofBool (x.getLsbD k) = x.extractLsb' k 1 := by
  rw [BitVec.getLsbD_eq_extractLsb']
  have hbit : ∀ y : BitVec 1, BitVec.ofBool (y == 1#1) = y := by decide
  exact hbit _

/-- The top field of a character word is 10 (R51, R56). -/
theorem emittedWord_dChar (c : BitVec 7) : emittedWord true (0#1 ++ c) = 0b10#2 ++ c :=
  (BitVec.append_assoc (x₁ := 1#1) (x₂ := 0#1) (x₃ := c)).symm

/-- The two fields of a character word make up the word. -/
theorem emittedWord_of_dChar {w : EmittedWord} (h : w.extractLsb' 7 2 = 0b10#2) :
    emittedWord true (0#1 ++ w.extractLsb' 0 7) = w := by
  rw [emittedWord_dChar, ← h]
  exact BitVec.extractLsb'_append_extractLsb'

/-- The high bits of a display-control word and its D, C and B make up the word. -/
theorem emittedWord_of_iDisp {w : EmittedWord} (h : w.extractLsb' 3 6 = 0b000001#6) :
    emittedWord false (0b00001#5 ++ BitVec.ofBool (w.getLsbD 2) ++ BitVec.ofBool (w.getLsbD 1)
      ++ BitVec.ofBool (w.getLsbD 0)) = w := by
  have hassoc : ∀ d c b : Bool,
      emittedWord false (0b00001#5 ++ BitVec.ofBool d ++ BitVec.ofBool c ++ BitVec.ofBool b) =
        0b000001#6 ++ (BitVec.ofBool d ++ BitVec.ofBool c ++ BitVec.ofBool b) := by decide
  rw [hassoc, ofBool_getLsbD, ofBool_getLsbD, ofBool_getLsbD, ← h]
  rw [BitVec.extractLsb'_append_extractLsb'_eq_extractLsb' (show 2 = 1 + 1 from rfl),
    BitVec.extractLsb'_append_extractLsb'_eq_extractLsb' (show 1 = 0 + 1 from rfl)]
  exact BitVec.extractLsb'_append_extractLsb'

/-- The operation number and `cmd[0]` make up a command word whose `cmd[3:1]` is zero (R57). -/
theorem commandWord_of_fields {w : CommandWord} (h : w.extractLsb' 1 3 = 0#3) :
    commandWord (w.extractLsb' 4 4) (w.getLsbD 0) = w := by
  calc commandWord (w.extractLsb' 4 4) (w.getLsbD 0)
      = w.extractLsb' 4 4 ++ w.extractLsb' 1 3 ++ w.extractLsb' 0 1 := by rw [commandWord, ofBool_getLsbD, h]
    _ = w.extractLsb' 1 7 ++ w.extractLsb' 0 1 := by
      rw [BitVec.extractLsb'_append_extractLsb'_eq_extractLsb' (show 4 = 1 + 3 from rfl)]
    _ = w := BitVec.extractLsb'_append_extractLsb'

/-! ## Emitted words -/

theorem decodeEmitted_iDisp {w : EmittedWord} (h : w.extractLsb' 3 6 = 0b000001#6) :
    decodeEmitted w = .instr (.iDisp (w.getLsbD 2) (w.getLsbD 1) (w.getLsbD 0)) := by
  obtain ⟨hlo, hhi⟩ := (extract_iDisp_iff w).1 h
  have hne : ∀ x : EmittedWord, x.toNat < 0x008 ∨ 0x00F < x.toNat → w ≠ x := by
    rintro x hx rfl
    omega
  rw [decodeEmitted, if_neg (hne _ (by decide)), if_neg (hne _ (by decide)), if_neg (hne _ (by decide)),
    if_neg (hne _ (by decide)), if_pos h]

theorem decodeEmitted_dChar {w : EmittedWord} (h : w.extractLsb' 7 2 = 0b10#2) :
    decodeEmitted w = .instr (.dChar (w.extractLsb' 0 7)) := by
  obtain ⟨hlo, -⟩ := (extract_dChar_iff w).1 h
  have hne : ∀ x : EmittedWord, x.toNat < 0x100 → w ≠ x := by
    rintro x hx rfl
    omega
  have hdisp : w.extractLsb' 3 6 ≠ 0b000001#6 := fun hd => by
    have := (extract_iDisp_iff w).1 hd
    omega
  rw [decodeEmitted, if_neg (hne _ (by decide)), if_neg (hne _ (by decide)), if_neg (hne _ (by decide)),
    if_neg (hne _ (by decide)), if_neg hdisp, if_pos h]

/-- The rows of R56, read backwards. -/
theorem decodeEmitted_cases {w : EmittedWord} {i : Instr} (h : decodeEmitted w = .instr i) :
    (w = 0x001#9 ∧ i = .iClear) ∨ (w = 0x002#9 ∧ i = .iHome) ∨ (w = 0x006#9 ∧ i = .iEntry) ∨
      (w = 0x038#9 ∧ i = .iFunc) ∨
      (w.extractLsb' 3 6 = 0b000001#6 ∧ i = .iDisp (w.getLsbD 2) (w.getLsbD 1) (w.getLsbD 0)) ∨
      (w.extractLsb' 7 2 = 0b10#2 ∧ i = .dChar (w.extractLsb' 0 7)) := by
  unfold decodeEmitted at h
  split_ifs at h with h1 h2 h3 h4 h5 h6 <;> cases h
  · exact .inl ⟨h1, rfl⟩
  · exact .inr (.inl ⟨h2, rfl⟩)
  · exact .inr (.inr (.inl ⟨h3, rfl⟩))
  · exact .inr (.inr (.inr (.inl ⟨h4, rfl⟩)))
  · exact .inr (.inr (.inr (.inr (.inl ⟨h5, rfl⟩))))
  · exact .inr (.inr (.inr (.inr (.inr ⟨h6, rfl⟩))))

theorem encode_of_decodeEmitted {w : EmittedWord} {i : Instr} (h : decodeEmitted w = .instr i) :
    encode i = .emitted w := by
  rcases decodeEmitted_cases h with ⟨rfl, rfl⟩ | ⟨rfl, rfl⟩ | ⟨rfl, rfl⟩ | ⟨rfl, rfl⟩ | ⟨hd, rfl⟩ | ⟨hc, rfl⟩
  · rfl
  · rfl
  · rfl
  · rfl
  · exact congrArg Encoded.emitted (emittedWord_of_iDisp hd)
  · exact congrArg Encoded.emitted (emittedWord_of_dChar hc)

theorem isEmitted_of_encode {w : EmittedWord} {i : Instr} (h : encode i = .emitted w) : i.isEmitted = true := by
  cases i with
  | iClear | iFunc | iDisp _ _ _ | iEntry | iHome | dChar _ | dNull => rfl
  | _ => cases h

/-- Settles O4: the row of R56 that a word falls in, and the numbers of the two rows that are ranges. -/
theorem exactlySevenKindsDecode : Obligations.ExactlySevenKindsDecode := by
  intro w
  rw [← extract_iDisp_iff, ← extract_dChar_iff]
  constructor
  · rintro ⟨i, h⟩
    have := decodeEmitted_cases h
    tauto
  · rintro (rfl | rfl | rfl | rfl | h | h)
    · exact ⟨_, rfl⟩
    · exact ⟨_, rfl⟩
    · exact ⟨_, rfl⟩
    · exact ⟨_, rfl⟩
    · exact ⟨_, decodeEmitted_iDisp h⟩
    · exact ⟨_, decodeEmitted_dChar h⟩

/-! ## Command words -/

theorem decodeNoOperand_eq_instr {a : Bool} {i j : Instr} (h : decodeNoOperand a j = .instr i) :
    a = false ∧ i = j := by
  cases a with
  | false =>
    cases h
    exact ⟨rfl, rfl⟩
  | true => cases h

/-- What a command word decodes to is no wrapper (R59), and has that word. -/
theorem encode_of_decodeCommand {w : CommandWord} {ops : Operands} {i : Instr}
    (h : decodeCommand w ops = .instr i) : i.expansion = i ∧ ∃ ops', encode i = .command w ops' := by
  unfold decodeCommand at h
  split at h
  case isTrue hbits =>
    have hword : ∀ k : BitVec 4, (w.extractLsb' 4 4).toNat = k.toNat → commandWord k (w.getLsbD 0) = w := by
      intro k hk
      rw [← BitVec.eq_of_toNat_eq hk]
      exact commandWord_of_fields hbits
    have hno : ∀ (k : BitVec 4) (j : Instr) (ops' : Operands), (w.extractLsb' 4 4).toNat = k.toNat →
        j.expansion = j → encode j = .command (commandWord k false) ops' →
        decodeNoOperand (w.getLsbD 0) j = .instr i → i.expansion = i ∧ ∃ ops', encode i = .command w ops' := by
      intro k j ops' hk hj henc hd
      obtain ⟨ha, rfl⟩ := decodeNoOperand_eq_instr hd
      exact ⟨hj, ops', by rw [henc, ← hword k hk, ha]⟩
    split at h
    case h_1 hk => exact hno 0x0#4 _ _ hk rfl rfl h
    case h_2 hk => exact hno 0x1#4 _ _ hk rfl rfl h
    case h_3 hk => exact hno 0x2#4 _ _ hk rfl rfl h
    case h_4 hk => exact hno 0x3#4 _ _ hk rfl rfl h
    case h_5 hk => exact hno 0x4#4 _ _ hk rfl rfl h
    case h_6 hk =>
      cases h
      exact ⟨rfl, {}, congrArg (Encoded.command · {}) (hword 0x5#4 hk)⟩
    case h_7 hk =>
      cases h
      exact ⟨rfl, {}, congrArg (Encoded.command · {}) (hword 0x6#4 hk)⟩
    case h_8 hk =>
      cases h
      exact ⟨rfl, {}, congrArg (Encoded.command · {}) (hword 0x7#4 hk)⟩
    case h_9 => cases h
  case isFalse => cases h

/-- The command words of R60. -/
abbrev IsReserved (w : CommandWord) : Prop :=
  8 ≤ (w.extractLsb' 4 4).toNat ∨ w.extractLsb' 1 3 ≠ 0#3 ∨
    (w.getLsbD 0 = true ∧ (w.extractLsb' 4 4).toNat ≤ 4)

theorem decodeNoOperand_isInstr_iff (a : Bool) (j : Instr) : (∃ i, decodeNoOperand a j = .instr i) ↔ a = false := by
  cases a <;> simp [decodeNoOperand]

/-- A command word has a meaning exactly when it is not reserved (R57, R60). -/
theorem decodeCommand_isInstr_iff (w : CommandWord) (ops : Operands) :
    (∃ i, decodeCommand w ops = .instr i) ↔ ¬ IsReserved w := by
  unfold decodeCommand IsReserved
  split
  case isTrue hbits =>
    split
    case h_1 hk | h_2 hk | h_3 hk | h_4 hk | h_5 hk =>
      rw [decodeNoOperand_isInstr_iff]
      simp [hbits, hk]
    case h_6 hk | h_7 hk | h_8 hk => simp [hbits, hk]
    case h_9 =>
      simp only [reduceCtorEq, exists_false, false_iff, not_not]
      exact .inl (by grind)
  case isFalse hbits => simp [hbits]

/-- A rejected call is answered with `ValidationError` (R60, R191). -/
theorem step_rejected {s : State} {c : HostCall} {rest : List HostCall} {r : Reject} (hidle : s.seq = .idle)
    (hhost : s.host = c :: rest) (hdecode : decodeCall c = .reject r) :
    step s = .next ((s.setHost rest).setReturned .validationError) := by
  simp only [step, hidle, hhost, hdecode]
  exact finish_raise_precise (s := s.setHost rest) hidle (.inl rfl)

/-- Settles O5: the words that do not decode are those of R60, and the others run as calls by name do (O6). -/
theorem reservedCommandIsRejected : Obligations.ReservedCommandIsRejected := by
  intro s w ops rest hidle hhost
  refine ⟨fun hres => ?_, fun hres => ?_⟩
  · cases hd : decodeCommand w ops with
    | instr i => exact absurd hres ((decodeCommand_isInstr_iff w ops).1 ⟨i, hd⟩)
    | reject r => exact step_rejected hidle hhost hd
  · obtain ⟨i, hd⟩ := (decodeCommand_isInstr_iff w ops).2 hres
    exact ⟨i, hd, stepRunsTheDecodedCall s (.word w ops) rest i hidle hhost hd⟩

/-! ## Both layers -/

theorem encode_expansion (i : Instr) : encode i.expansion = encode i := by
  cases i with
  | dNull => exact Laws.SharesWords.dNull.1.symm
  | _ => rfl

theorem decode_encode (i : Instr) : decode (encode i) = .instr i.expansion := by
  cases i with
  | iDisp d c b =>
    revert d c b
    decide
  | dChar c =>
    have htop : (0b10#2 ++ c).extractLsb' 7 2 = 0b10#2 := by
      rw [BitVec.extractLsb'_append_eq_of_le (Nat.le_refl 7)]
      exact BitVec.extractLsb'_eq_self
    have hlow : (0b10#2 ++ c).extractLsb' 0 7 = c := by
      rw [BitVec.extractLsb'_append_eq_of_add_le (Nat.le_refl 7), BitVec.extractLsb'_eq_self]
    rw [encode, emittedWord_dChar, decode, decodeEmitted_dChar htop, hlow]
    rfl
  | setDisplay b | setCursor b | setBlink b => cases b <;> rfl
  | _ => rfl

/-- Settles O1: row by row of the tables (R51, R53, R57, R59). -/
theorem decodeOfEncodeIsExpansion : Obligations.DecodeOfEncodeIsExpansion :=
  fun i => ⟨decode_encode i, encode_expansion i⟩

/-- Settles O2: the fields a decoder reads make up the whole word, and what a command word decodes to is its own
expansion, so its own words decode to it again. -/
theorem decodedWordIsReencoded : Obligations.DecodedWordIsReencoded := by
  refine ⟨fun w i h => encode_of_decodeEmitted h, fun w ops i h => ?_⟩
  obtain ⟨hexp, ops', henc⟩ := encode_of_decodeCommand h
  have hdec := decode_encode i
  rw [henc, hexp] at hdec
  exact ⟨ops', henc, hdec⟩

/-- Settles O3: the decoder, evaluated on six words. -/
theorem wordsOfTheTablesDecode : Obligations.WordsOfTheTablesDecode := ⟨rfl, rfl, rfl, rfl, rfl, rfl⟩

/-! ## A placed word -/

theorem decodeTableWord_cases {nbits w : Nat} {i : Instr} (h : decodeTableWord nbits w = some i) :
    (nbits ≤ 8 ∧ decodeCommand (BitVec.ofNat 8 w) {} = .instr i) ∨
      (8 < nbits ∧ decodeEmitted (BitVec.ofNat 9 w) = .instr i) := by
  simp only [decodeTableWord] at h
  split at h
  case h_1 j hd =>
    cases h
    split_ifs at hd with hbits hw hw
    · exact .inl ⟨hbits, hd⟩
    · exact .inr ⟨Nat.lt_of_not_le hbits, hd⟩
  case h_2 => cases h

/-- At the position an emitted word is placed at, the multiplexer selects that word, from its first call (R62). -/
theorem placeWord_selects {i : Instr} (hi : i.isEmitted = true) (s : State) :
    ∃ p, (placeWord i s).seq = .busy p ∧ selectWord p (placeWord i s) = some i ∧ p.phase = 0 := by
  cases i with
  | iClear | iFunc | iDisp _ _ _ | iEntry | iHome | dChar _ | dNull => exact ⟨_, rfl, rfl, rfl⟩
  | _ => cases hi

/-- Settles O11: a command word is the next call of an idle block (O6), an emitted word the word selected (O7). -/
theorem placedWordRunsNext : Obligations.PlacedWordRunsNext := by
  intro s nbits w i h
  rcases decodeTableWord_cases h with ⟨hbits, hd⟩ | ⟨hbits, hd⟩
  · refine ⟨fun _ => ?_, fun hlt => absurd hbits (Nat.not_le.2 hlt)⟩
    rw [State.withFetchWord, placeTableWord, if_pos hbits]
    exact stepRunsTheDecodedCall _ _ s.host i rfl rfl hd
  · refine ⟨fun hle => absurd hbits (Nat.not_lt.2 hle), fun _ => ?_⟩
    rw [State.withFetchWord, placeTableWord, if_neg (Nat.not_le.2 hbits), h]
    obtain ⟨p, hseq, hsel, hphase⟩ := placeWord_selects (isEmitted_of_encode (encode_of_decodeEmitted hd)) s
    exact ⟨p, hseq, stepRunsTheSelectedWord _ p i hseq hsel hphase⟩

/-! ## The mode operations' words -/

/-- Settles O21: the sum over the eight values of the flags, its word in the tables, and `DCB` as the byte sent. -/
theorem displayControlWordFromFlags : Obligations.DisplayControlWordFromFlags := by
  have hsum : ∀ d c b : Bool, (displayControlByte d c b).toNat = 8 + 4 * d.toNat + 2 * c.toNat + b.toNat := by decide
  exact ⟨fun d c b => ⟨hsum d c b, encode_iDisp d c b⟩, fun _ => rfl, rfl, rfl, rfl, rfl, rfl, rfl, rfl, rfl⟩

/-- Settles O23: a wrapper and its set operation are one operation with the operand written out. -/
theorem wrappersBehaveAsTheirExpansions : Obligations.WrappersBehaveAsTheirExpansions :=
  fun _ => ⟨rfl, rfl, rfl, rfl, rfl, rfl⟩

end Sys2Proof.Proofs

namespace Sys2Proof.Proofs
open Sys2Proof.Machine

/-! ## The emitted words as instructions -/

/-- An emitted word whose 21 calls are quiet is sent whole (R51, R82). -/
theorem emitted_sent {i : Instr} {v : Byte} {rs : Bool} (hw : wordParts i = some (v, rs)) {s : State}
    (hq : s.quietFor 21) : ∃ t, exec i s = .next t ∧ SentWords s t [⟨rs, v⟩] := by
  obtain ⟨r, hr, hsends⟩ := emitted_sends hw s
  obtain ⟨t, rfl, hsent⟩ := hsends.ok hq
  exact ⟨t, hr, hsent⟩

/-- Settles O17: each of the five is one instruction word, sent whole, and only the clear-display byte touches the cells
(U9). -/
theorem instructionWordsComplete : Obligations.InstructionWordsComplete := by
  intro s i v hi hq
  have hw : wordParts i = some (v, false) ∧ (v = Config.clearDisplay ↔ i = .iClear) := by
    rcases hi with ⟨rfl, rfl⟩ | ⟨rfl, rfl⟩ | ⟨rfl, rfl⟩ | ⟨rfl, rfl⟩ | ⟨d, c, b, rfl, rfl⟩
    · exact ⟨rfl, by decide⟩
    · exact ⟨rfl, by decide⟩
    · exact ⟨rfl, by decide⟩
    · exact ⟨rfl, by decide⟩
    · exact ⟨rfl, by simp [displayControlByte_ne_clearDisplay]⟩
  obtain ⟨hparts, hclear⟩ := hw
  obtain ⟨t, ht, hsent⟩ := emitted_sent hparts hq
  refine ⟨t, ht, hsent.transmitted, hsent.flags, hsent.instrCursor rfl, hsent.lifecycle, hsent.seq, hsent.returned,
    fun hd htm p => ?_⟩
  have hcells := hsent.cells (Nat.le_of_lt_succ s.cursorPosition.isLt) hd htm
  simp only [State.readCell, hcells, cellsAfterWords, cellsAfterLatch, Bool.false_eq_true, if_false, ← hclear]
  split <;> rfl

/-- A data word whose 21 calls are quiet makes them all and then moves the cursor (R86). -/
theorem sendData_quiet (v : Byte) {s : State} (hq : s.quietFor 21) :
    sendData v s = .going (applyAll (transmitCalls s v true) s).advanceCursor := by
  rw [sendData, transmitPattern_patternOf]
  exact sendFrom_quiet (k := 0) (rs := true) hq

/-- Settles O18: each of the two is one data word, sent whole. Its fall of E writes the cell at the cursor, which moves
only after the last call. -/
theorem dataWordsComplete : Obligations.DataWordsComplete := by
  intro s i v hi hq
  have hexec : exec i s = finishWord (sendData v s) := by
    rcases hi with ⟨c, rfl, hv⟩ | ⟨rfl, rfl⟩
    · obtain rfl : v = c.setWidth 8 := BitVec.eq_of_toNat_eq (by rw [hv, BitVec.toNat_setWidth_of_le (by decide)])
      rfl
    · rfl
  obtain ⟨-, hsent⟩ := (sendData_sends v s).going _ (sendData_quiet v hq)
  rw [hexec, sendData_quiet v hq]
  refine ⟨_, rfl, hsent.transmitted, hsent.flags, hsent.lifecycle, hsent.seq, hsent.returned,
    fun h63 => hsent.cursor_one h63, fun hd htm p => ?_⟩
  obtain ⟨-, -, hcells⟩ := latched_transmit s v true hd htm
  have hput : (applyAll (transmitCalls s v true) s).advanceCursor.readCell p =
      mapGet (mapPut s.cursorPosition.toNat v s.cells) p := congrArg (mapGet · p) hcells
  rw [hput]
  split
  · next hp => rw [hp, mapGet_mapPut_self]
  · next hp => exact mapGet_mapPut_ne hp v s.cells

end Sys2Proof.Proofs

namespace Sys2Proof.Proofs
open Sys2Proof.Machine

/-! ## What an instruction adds to the latched trace -/

/-- A latched word that is one of the seven kinds of emitted word (R51, R55). -/
def IsWord (w : Latch) : Prop := ∃ j, decodeEmitted (emittedWord w.rs w.byte) = .instr j

theorem isWord_of_wordParts {i : Instr} {v : Byte} {rs : Bool} (h : wordParts i = some (v, rs)) :
    IsWord ⟨rs, v⟩ := by
  have hdec := decode_encode i
  rw [encode_of_wordParts h] at hdec
  exact ⟨_, hdec⟩

theorem isWord_displayControl (d c b : Bool) : IsWord (instrWord (displayControlByte d c b)) :=
  isWord_of_wordParts (i := .iDisp d c b) rfl

theorem isWord_clearWords (d c b : Bool) : ∀ w ∈ clearWords (displayControlByte d c b), IsWord w := by
  simp only [clearWords, List.forall_mem_cons]
  exact ⟨isWord_of_wordParts (i := .iClear) rfl, isWord_of_wordParts (i := .iFunc) rfl, isWord_displayControl d c b,
    isWord_of_wordParts (i := .iEntry) rfl, isWord_of_wordParts (i := .iHome) rfl, nofun⟩

theorem isWord_nullWords : ∀ w ∈ nullWords, IsWord w := fun w hw => by
  rw [List.eq_of_mem_replicate hw]
  exact isWord_of_wordParts (i := .dNull) rfl

/-- An ASCII code point is seven bits wide (R54, R71). -/
theorem isWord_charWords {text : List CodePoint} (h : ∀ c ∈ text, c < 128) : ∀ w ∈ charWords text, IsWord w := by
  intro w hw
  obtain ⟨c, hc, rfl⟩ := List.mem_map.1 hw
  have hascii : LT.lt (α := Nat) c 128 := h c hc
  have hbyte : byteOfCodePoint c = (BitVec.ofNat 7 c).setWidth 8 := BitVec.eq_of_toNat_eq (by
    rw [BitVec.toNat_setWidth_of_le (by decide), byteOfCodePoint, BitVec.toNat_ofNat, BitVec.toNat_ofNat]
    omega)
  exact isWord_of_wordParts (i := .dChar (BitVec.ofNat 7 c)) (by rw [hbyte]; rfl)

/-- The skip stands between two parts of the text (R132, R143). -/
theorem isWord_skip {text : List CodePoint} (h : ∀ c ∈ text, c < 128) (k : Nat) :
    ∀ w ∈ charWords (text.take k) ++ nullWords ++ charWords (text.drop k), IsWord w :=
  List.forall_mem_append.2 ⟨List.forall_mem_append.2
    ⟨isWord_charWords fun c hc => h c (List.mem_of_mem_take hc), isWord_nullWords⟩,
    isWord_charWords fun c hc => h c (List.mem_of_mem_drop hc)⟩

theorem isWord_setTextWords {text : List CodePoint} (h : ∀ c ∈ text, c < 128) :
    ∀ w ∈ setTextWords text, IsWord w := by
  unfold setTextWords
  split
  · exact isWord_charWords h
  · exact isWord_skip h 16

theorem isWord_appendWords (n : Nat) {text : List CodePoint} (h : ∀ c ∈ text, c < 128) :
    ∀ w ∈ appendWords n text, IsWord w := by
  unfold appendWords
  split
  · exact isWord_skip h _
  · exact isWord_charWords h

theorem ascii_of_setText_accepted {text : List CodePoint} {s : State} (h : refusalOf (.setText text) s = none) :
    ∀ c ∈ text, c < 128 := by
  rcases hr : checkSetText text s with e | bytes
  · simp [refusalOf, hr] at h
  · rcases checkSetText_cases hr with ⟨-, -, -, ha⟩ | ⟨h, -⟩ | h | h
    · exact ha
    all_goals cases h

theorem ascii_of_append_accepted {text : List CodePoint} {s : State} (h : refusalOf (.append text) s = none) :
    ∀ c ∈ text, c < 128 := by
  rcases hr : checkAppend text s with e | bytes
  · simp [refusalOf, hr] at h
  · rcases checkAppend_cases hr with ⟨-, -, -, -, ha⟩ | ⟨h, -⟩ | h | h
    · exact ha
    all_goals cases h

/-- An accepted operation sends words of the seven kinds only (R55). -/
theorem isWord_opWords {i : Instr} {s : State} (h : refusalOf i s = none) : ∀ w ∈ opWords i s, IsWord w := by
  cases i with
  | iClear | iFunc | iDisp _ _ _ | iEntry | iHome | dChar _ | dNull | destruct => exact nofun
  | construct rs e d => exact isWord_clearWords true false false
  | clear => exact isWord_clearWords _ _ _
  | setText text =>
    exact List.forall_mem_append.2 ⟨isWord_clearWords _ _ _, isWord_setTextWords (ascii_of_setText_accepted h)⟩
  | append text => exact isWord_appendWords _ (ascii_of_append_accepted h)
  | _ => exact List.forall_mem_singleton.2 (isWord_displayControl _ _ _)

/-- From `s` to `t` a beginning of the words `ws` has been latched, and at most one entry has gone to `stray`, and that
only if `doubt` holds (R88, R89). -/
structure Saw (s t : State) (ws : List Latch) (doubt : Prop) : Prop where
  latched : ∃ n, t.latched = s.latched ++ ws.take n
  stray : t.stray = s.stray ∨ (∃ x, t.stray = s.stray ++ [⟨t.latched.length, x⟩]) ∧ doubt

/-- What comes after `t` shows the controller nothing. -/
theorem Saw.congr_end {s t u : State} {ws : List Latch} {p q : Prop} (h : Saw s t ws p) (hl : u.latched = t.latched)
    (hs : u.stray = t.stray) (hpq : p → q) : Saw s u ws q := by
  obtain ⟨hlatched, hstray⟩ := h
  rw [← hl] at hlatched hstray
  rw [← hs] at hstray
  exact ⟨hlatched, hstray.imp_right (And.imp_right hpq)⟩

/-- What came before `b` showed the controller nothing. -/
theorem Saw.congr_start {s b t : State} {ws : List Latch} {p : Prop} (h : Saw b t ws p) (hl : b.latched = s.latched)
    (hs : b.stray = s.stray) : Saw s t ws p := by
  obtain ⟨hlatched, hstray⟩ := h
  rw [hl] at hlatched
  rw [hs] at hstray
  exact ⟨hlatched, hstray⟩

theorem saw_nothing {s t : State} (hl : t.latched = s.latched) (hs : t.stray = s.stray) (ws : List Latch) (p : Prop) :
    Saw s t ws p :=
  ⟨⟨0, by simp [hl]⟩, .inl hs⟩

/-- What the controller sees of a run, with distinct lines and a sufficient delay (R170, R220). -/
structure Sees (r : Run) (s : State) (ws : List Latch) : Prop where
  going : ∀ t, r = .going t → t.linesDistinct → t.timingMet → Saw s t ws False
  raised : ∀ e t, r = .raised e t → t.linesDistinct → t.timingMet → Saw s t ws (e = .hardwareFault)

theorem Sees.congr_start {r : Run} {s b : State} {ws : List Latch} (h : Sees r b ws) (hl : b.latched = s.latched)
    (hs : b.stray = s.stray) : Sees r s ws :=
  ⟨fun t ht hd htm => (h.going t ht hd htm).congr_start hl hs,
    fun e t ht hd htm => (h.raised e t ht hd htm).congr_start hl hs⟩

/-- Making the handle READY shows the controller nothing. -/
theorem Sees.setLifecycle {r : Run} {s : State} {ws : List Latch} (h : Sees r s ws) (l : Lifecycle) :
    Sees (r.bind fun u => .going (u.setLifecycle l)) s ws := by
  cases r with
  | going u =>
    refine ⟨fun t ht hd htm => ?_, fun e t ht => by cases ht⟩
    cases ht
    exact (h.going u rfl hd htm).congr_end rfl rfl id
  | raised e u =>
    refine ⟨fun t ht => (by cases ht), fun e t ht hd htm => ?_⟩
    cases ht
    exact h.raised _ u rfl hd htm

theorem sees_of_sends {r : Run} {s : State} {ws : List Latch} (h : r.Sends s ws) : Sees r s ws where
  going t ht hd htm := by
    obtain ⟨-, -, hlines, hinputs, -, -, hseen⟩ := (h.going t ht).2.transmitted
    obtain ⟨hl, hs, -⟩ := hseen ((linesDistinct_congr hlines).1 hd) ((timingMet_congr hinputs).1 htm)
    exact ⟨⟨ws.length, by rw [hl, List.take_length]⟩, .inl hs⟩
  raised e t ht hd htm := by
    obtain ⟨he, n, hcut⟩ := h.raised e t ht
    have hd' := (linesDistinct_congr hcut.lines).1 hd
    have htm' := (timingMet_congr hcut.inputs).1 htm
    have hs := hcut.stray hd' htm'
    refine ⟨⟨n / 21, hcut.latched hd' htm'⟩, ?_⟩
    split at hs
    · exact .inl hs
    · exact .inr ⟨hs, he⟩

theorem saw_finish {r : Run} {s t : State} {ws : List Latch} (h : Sees r s ws) (ht : finish r = .next t)
    (hd : t.linesDistinct) (htm : t.timingMet) : Saw s t ws (t.returned = some .hardwareFault) := by
  cases r with
  | going u =>
    cases ht
    exact (h.going u rfl hd htm).congr_end rfl rfl False.elim
  | raised e u =>
    cases ht
    exact (h.raised e u rfl hd htm).congr_end rfl rfl (congrArg some)

theorem saw_finishWord {r : Run} {s t : State} {ws : List Latch} (h : Sees r s ws) (ht : finishWord r = .next t)
    (hd : t.linesDistinct) (htm : t.timingMet) : Saw s t ws (t.returned = some .hardwareFault) := by
  cases r with
  | going u =>
    cases ht
    exact (h.going _ rfl hd htm).congr_end rfl rfl False.elim
  | raised e u =>
    cases ht
    exact (h.raised e u rfl hd htm).congr_end rfl rfl (congrArg some)

/-- A line set-up cut short has shown the controller nothing (R162). -/
theorem setup_cut_seen {u t : State} (h : CutShort u (setupCalls u) t) :
    t.latched = u.latched ∧ t.stray = u.stray := by
  obtain ⟨pre, c, post, heq, -, -, rfl⟩ := h
  have hc : c ≠ .rel := fun hrel => rel_notMem_setupCalls u (heq ▸ by simp [hrel])
  obtain ⟨hl, hs, -⟩ := faultCall_seen hc ((applyAll pre u).recordCall c)
  have hpre : (applyAll pre u).latched = u.latched ∧ (applyAll pre u).stray = u.stray := by
    obtain ⟨k, l, -, ⟨-, -, rfl⟩ | ⟨-, -, rfl⟩⟩ := setup_list_split heq
    · obtain ⟨hl, hs, -⟩ := setup_list_seen (u.lines.take k) u
      exact ⟨hl, hs⟩
    · obtain ⟨hl, hs, -⟩ := setup_list_seen (u.lines.take k) u
      rw [applyAll_append]
      exact ⟨hl, hs⟩
  exact ⟨hl.trans hpre.1, hs.trans hpre.2⟩

/-- `CONSTRUCT` past its checks: the set-up shows the controller nothing, and then the clear sequence is sent (R161). -/
theorem constructBody_sees (u : State) :
    Sees ((emitAll (setupCalls u) u).bind fun u => (clearSeq u).bind fun u => .going (u.setLifecycle .ready)) u
      (clearWords u.dcb) := by
  rcases hset : emitAll (setupCalls u) u with t | ⟨e, t⟩
  · obtain ⟨-, rfl⟩ := (emitAll_going_iff _ _ _).1 hset
    obtain ⟨-, hf, -⟩ := applyAll_fields (setupCalls u) u
    obtain ⟨hl, hs, -⟩ := setup_seen u
    generalize applyAll (setupCalls u) u = t at *
    have hsees := sees_of_sends (clearSeq_sends t)
    rw [dcb_congr hf] at hsees
    rw [Run.bind]
    exact (hsees.congr_start hl hs).setLifecycle .ready
  · obtain ⟨-, hcut⟩ := emitAll_raised hset
    obtain ⟨hl, hs⟩ := setup_cut_seen hcut
    refine ⟨fun x hx => (by cases hx), fun e x hx _ _ => ?_⟩
    cases hx
    exact saw_nothing hl hs _ _

/-- The release latches nothing, and leaves a doubt only if it finds E high (U6). -/
theorem release_saw (s : State) : Saw s (swallow (emit .rel s)) [] (s.levelOf s.eLine = .high) := by
  have hrel : Saw s (applyCall .rel (s.recordCall .rel)) [] (s.levelOf s.eLine = .high) := by
    by_cases hE : s.levelOf s.eLine = .high
    · have happ : applyCall .rel (s.recordCall .rel) = (s.recordCall .rel).indeterminate.setLevels [] := by
        simp only [applyCall]
        rw [if_pos (by exact hE)]
      rw [happ]
      exact ⟨⟨0, (List.append_nil _).symm⟩, .inr ⟨⟨_, rfl⟩, hE⟩⟩
    · have happ : applyCall .rel (s.recordCall .rel) = (s.recordCall .rel).setLevels [] := by
        simp only [applyCall]
        rw [if_neg (by exact hE)]
      rw [happ]
      exact saw_nothing (s := s) (t := (s.recordCall .rel).setLevels []) rfl rfl _ _
  rw [emit_eq]
  split
  · exact hrel.congr_end rfl rfl id
  · exact hrel

/-- What the controller sees of an instruction: words of the seven kinds, and perhaps one doubt (R55, R89). -/
def SawWords (i : Instr) (s t : State) : Prop :=
  ∃ ws, (∀ w ∈ ws, IsWord w) ∧
    Saw s t ws (t.returned = some .hardwareFault ∨ (i = .destruct ∧ s.levelOf s.eLine = .high))

theorem sawWords_refused (i : Instr) (s : State) (e : Status) : SawWords i s (s.setReturned e) :=
  ⟨[], nofun, saw_nothing (s := s) (t := s.setReturned e) rfl rfl _ _⟩

theorem sawWords_word {i : Instr} (hi : i.isEmitted = true) {s t : State} (h : exec i s = .next t)
    (hd : t.linesDistinct) (htm : t.timingMet) : SawWords i s t := by
  obtain ⟨v, rs, hw⟩ := wordParts_of_isEmitted hi
  obtain ⟨r, hr, hsends⟩ := emitted_sends hw s
  exact ⟨_, List.forall_mem_singleton.2 (isWord_of_wordParts hw),
    (saw_finishWord (sees_of_sends hsends) (hr ▸ h) hd htm).congr_end rfl rfl .inl⟩

theorem firstWrites_stray (i : Instr) (s : State) : (firstWrites i s).stray = s.stray := by
  cases i with
  | construct rs e d =>
    rcases firstWrites_construct_cases rs e d s with hfw | ⟨v, -, hfw⟩ <;> rw [hfw]
    rfl
  | _ => rfl

theorem sawWords_sending {i : Instr} (hi : Instr.isSending i) {s t : State} (h : exec i s = .next t)
    (hd : t.linesDistinct) (htm : t.timingMet) : SawWords i s t := by
  rcases sending_cases hi (idle_of_next hi.1 h) with ⟨e, -, -, he⟩ | ⟨hacc, -, r, hr, hsends⟩
  · rw [he] at h
    cases h
    exact sawWords_refused i s e
  · obtain ⟨-, -, -, -, hl, -⟩ := firstWrites_frame i s
    have hsaw := saw_finish (sees_of_sends hsends) (hr ▸ h) hd htm
    exact ⟨_, isWord_opWords hacc, (hsaw.congr_start hl (firstWrites_stray i s)).congr_end rfl rfl .inl⟩

theorem sawWords_construct {rs e : LineId} {d : List LineId} {s t : State}
    (h : exec (.construct rs e d) s = .next t) (hd : t.linesDistinct) (htm : t.timingMet) :
    SawWords (.construct rs e d) s t := by
  rcases construct_cases rs e d (idle_of_next rfl h) with ⟨er, -, -, he⟩ | ⟨v, -, rfl, -, hr⟩
  · rw [he] at h
    cases h
    exact sawWords_refused _ s er
  · have hsaw := saw_finish (constructBody_sees (constructed rs e v s)) (hr ▸ h) hd htm
    exact ⟨_, isWord_clearWords true false false, (hsaw.congr_start (s := s) rfl rfl).congr_end rfl rfl .inl⟩

theorem sawWords_destruct {s t : State} (h : exec .destruct s = .next t) : SawWords .destruct s t := by
  rw [exec_destruct_idle (idle_of_next rfl h)] at h
  cases h
  exact ⟨[], nofun, (release_saw s).congr_end rfl rfl fun hE => .inr ⟨rfl, hE⟩⟩

theorem exec_sawWords {i : Instr} {s t : State} (h : exec i s = .next t) (hd : t.linesDistinct)
    (htm : t.timingMet) : SawWords i s t := by
  by_cases hi : i.isEmitted = true
  · exact sawWords_word hi h hd htm
  · rw [Bool.not_eq_true] at hi
    cases i with
    | construct rs e d => exact sawWords_construct h hd htm
    | destruct => exact sawWords_destruct h
    | _ => exact sawWords_sending ⟨hi, nofun, nofun⟩ h hd htm

/-- Settles O54: what is latched is a beginning of the words the instruction sends, each the word of a row of R51. A
fault in one of them adds one entry to `stray`, and so does a release that finds E high. -/
theorem onlyEmittedWordsAreLatched : Obligations.OnlyEmittedWordsAreLatched := by
  intro s t i h hd htm
  obtain ⟨ws, hwords, ⟨n, hl⟩, hs⟩ := exec_sawWords h hd htm
  exact ⟨⟨ws.take n, hl, fun w hw => hwords w (List.mem_of_mem_take hw)⟩, hs⟩

end Sys2Proof.Proofs

namespace Sys2Proof.Proofs
open Sys2Proof.Machine

/-! ## The text encoder (R72, R76) -/

/-- Settles O31: the test of R72 is on the whole text, before any byte is produced. -/
theorem encoderAcceptsExactlyAscii : Obligations.EncoderAcceptsExactlyAscii :=
  fun _ => ⟨encodeText_of_not_ascii, encodeText_of_ascii⟩

theorem toNat_byteOfCodePoint {c : CodePoint} (h : c < 128) : (byteOfCodePoint c).toNat = c := by
  rw [byteOfCodePoint, BitVec.toNat_ofNat]
  exact Nat.mod_eq_of_lt (Nat.lt_trans h (by decide))

theorem byteOfCodePoint_toNat (v : Byte) : byteOfCodePoint v.toNat = v := by
  rw [byteOfCodePoint, BitVec.ofNat_toNat, BitVec.setWidth_eq]

theorem toNat_lt_of_mem_encoded {text : List CodePoint} (h : ∀ c ∈ text, c < 128) :
    ∀ v ∈ text.map byteOfCodePoint, v.toNat < 128 := by
  refine List.forall_mem_map.2 fun c hc => ?_
  rw [toNat_byteOfCodePoint (h c hc)]
  exact h c hc

/-- The direction of R76 that needs the text to be ASCII: a larger code point would lose its upper bits. -/
theorem decodeText_encoded {text : List CodePoint} (h : ∀ c ∈ text, c < 128) :
    decodeText (text.map byteOfCodePoint) = text := by
  rw [decodeText, List.map_map]
  exact (List.map_congr_left fun c hc => toNat_byteOfCodePoint (h c hc)).trans (List.map_id text)

theorem map_byteOfCodePoint_decodeText (bytes : List Byte) : (decodeText bytes).map byteOfCodePoint = bytes := by
  rw [decodeText, List.map_map]
  exact List.map_id'' byteOfCodePoint_toNat bytes

theorem encodeText_decodeText {bytes : List Byte} (h : ∀ v ∈ bytes, v.toNat < 128) :
    encodeText (decodeText bytes) = .ok bytes := by
  have hascii : ∀ c ∈ decodeText bytes, c < 128 := List.forall_mem_map.2 h
  rw [encodeText_of_ascii hascii, map_byteOfCodePoint_decodeText]

/-- Settles O32: an accepted text is ASCII and its result is `byteOfCodePoint` of every character, which
`BitVec.toNat` inverts below 128. -/
theorem encoderRoundTrip : Obligations.EncoderRoundTrip := by
  refine ⟨fun text bytes h => ?_, fun bytes => encodeText_decodeText⟩
  obtain ⟨hascii, rfl⟩ := encodeText_ok h
  exact ⟨List.length_map _, toNat_lt_of_mem_encoded hascii, decodeText_encoded hascii⟩

end Sys2Proof.Proofs

namespace Sys2Proof.Proofs
open Sys2Proof.Machine

/-! ## The delays a trace asks for (R84) -/

theorem sleepTotal_append (as bs : List BackendCall) : sleepTotal (as ++ bs) = sleepTotal as + sleepTotal bs := by
  induction as with
  | nil => exact (zero_add _).symm
  | cons c as ih =>
    cases c with
    | sleep d => rw [List.cons_append, sleepTotal, sleepTotal, ih, add_assoc]
    | _ => exact ih

/-- One after E rises, one after each data line and one after E falls. -/
theorem sleepTotal_transmitCalls (s : State) (v : Byte) (rs : Bool) :
    sleepTotal (transmitCalls s v rs) = 10 * s.enableDelay := by
  simp only [transmitCalls, pulseCalls, dataCalls, List.flatMap_cons, List.flatMap_nil, List.append_nil,
    List.cons_append, List.nil_append, sleepTotal]
  ring

theorem sleepTotal_wordCalls (s : State) (ws : List Latch) :
    sleepTotal (wordCalls s ws) = 10 * ws.length * s.enableDelay := by
  induction ws with
  | nil => simp [wordCalls, sleepTotal]
  | cons w ws ih =>
    have hsplit : wordCalls s (w :: ws) = transmitCalls s w.byte w.rs ++ wordCalls s ws := rfl
    rw [hsplit, sleepTotal_append, sleepTotal_transmitCalls, ih, List.length_cons]
    push_cast
    ring

/-! ## A transmission without a fault -/

/-- Settles O12: a quiet transmission is its 21 calls, all answered *done*, and calls touch the traces, the lines and the
cells only. -/
theorem transmitMakesItsCalls : Obligations.TransmitMakesItsCalls := by
  intro s v rs hq
  obtain ⟨hlines, hflags, hcursor, hlife, hseq, hevents, -, hret, hinputs⟩ := applyAll_fields (transmitCalls s v rs) s
  refine ⟨_, (transmit_going_iff v rs s _).2 ⟨hq, rfl⟩, hevents, ?_, levelOf_transmit_e s v rs,
    fun l hl => levelOf_transmit_other s v rs hl, hlines, hflags, hinputs, hcursor, hlife, hseq, hret⟩
  rw [hevents, sleepTotal_append, sleepTotal_transmitCalls]

/-- Settles O13: the fall of E at call 20 finds RS and the data lines at their new levels. -/
theorem transmitLatchesItsWord : Obligations.TransmitLatchesItsWord := by
  intro s v rs hq hd htm
  obtain ⟨hlatched, hstray, -⟩ := latched_transmit s v rs hd htm
  exact ⟨_, (transmit_going_iff v rs s _).2 ⟨hq, rfl⟩, hlatched, hstray, shows_transmit s v rs hd⟩

theorem patternOf_bits (b7 b6 b5 b4 b3 b2 b1 b0 : Bool) :
    patternOf (BitVec.ofBoolListBE [b7, b6, b5, b4, b3, b2, b1, b0]) =
      [b7, b6, b5, b4, b3, b2, b1, b0].map Bool.toNat := by
  simp only [patternOf, BitVec.getLsbD_ofBoolListBE]
  rfl

/-- Eight binary digits are the pattern of a byte (R80). -/
theorem exists_patternOf {p : List Nat} (hlen : p.length = 8) (hbin : ∀ x ∈ p, x = 0 ∨ x = 1) :
    ∃ v, patternOf v = p := by
  have hbits : (p.map (· == 1)).map Bool.toNat = p := by
    rw [List.map_map]
    refine (List.map_congr_left fun x hx => ?_).trans (List.map_id p)
    rcases hbin x hx with rfl | rfl <;> rfl
  rw [← hbits]
  match p, hlen with
  | [_, _, _, _, _, _, _, _], _ => exact ⟨_, patternOf_bits _ _ _ _ _ _ _ _⟩

theorem patternValue_malformed {p : List Nat} (h : ¬ (p.length = 8 ∧ ∀ x ∈ p, x = 0 ∨ x = 1)) :
    patternValue p = none := by
  simp only [← Nat.le_one_iff_eq_zero_or_eq_one] at h
  exact if_neg h

/-- Settles O14: a malformed pattern has no value and is raised at once; the value of any other is the byte it is the
pattern of. -/
theorem malformedPatternIsAProtocolError : Obligations.MalformedPatternIsAProtocolError := by
  refine fun p rs s => ⟨fun h => ?_, fun ⟨hlen, hbin⟩ => ?_⟩
  · rw [transmitPattern, patternValue_malformed h]
    rfl
  · obtain ⟨v, rfl⟩ := exists_patternOf hlen hbin
    exact ⟨v, rfl, transmitPattern_patternOf v rs s⟩

/-! ## The skip -/

/-- The cells of a skip hold null bytes, and no other cell is written (R87). -/
theorem readCell_skip {s t : State} (h : SentWords s t nullWords) (hc : s.cursorPosition.toNat ≤ 39)
    (hd : s.linesDistinct) (htm : s.timingMet) (p : Nat) :
    t.readCell p = if s.cursorPosition.toNat ≤ p ∧ p < s.cursorPosition.toNat + 24 then some 0x00#8
      else s.readCell p := by
  rw [nullWords_eq] at h
  have hcell := h.readCell_data (by rw [List.length_replicate]; omega) hd htm p
  rw [List.length_replicate] at hcell
  rw [hcell]
  split
  · rw [List.getElem?_replicate, if_pos (by omega)]
  · rfl

/-- Settles O16: the skip is 24 null data words sent whole. -/
theorem padSkipsTheHiddenCells : Obligations.PadSkipsTheHiddenCells := by
  intro s hc hq
  obtain ⟨t, ht, hsent⟩ := (pad24_sends s).ok hq
  obtain ⟨hevents, hcalls, -, -, -, -, hseen⟩ := hsent.transmitted
  change t.events = s.events ++ wordCalls s nullWords at hevents
  have hcursor := hsent.cursor (by rw [dataCount_nullWords]; omega)
  rw [length_nullWords] at hcalls
  rw [dataCount_nullWords] at hcursor
  refine ⟨t, ht, hcalls, ?_, hcursor, fun h16 => by omega, ?_, fun hd htm =>
    ⟨(hseen hd htm).1, readCell_skip hsent hc hd htm⟩⟩
  · rw [hevents, List.length_append, length_wordCalls, length_nullWords]
  · rw [hevents, sleepTotal_append, sleepTotal_wordCalls, length_nullWords]
    norm_num

end Sys2Proof.Proofs

namespace Sys2Proof.Proofs
open Sys2Proof.Machine

/-! ## Where a fault cuts a transmission -/

theorem not_quietFor_of_fault {s : State} {k n : Nat} (hf : s.calls + k ∈ s.faultAt) (hk : 1 ≤ k) (hn : k ≤ n) :
    ¬ s.quietFor n := fun hq => by
  rcases hq _ hf with h | h <;> omega

/-- There is one first fault. -/
theorem firstFault_unique {s : State} {a b : Nat} (ha : s.quietFor a) (hfa : s.calls + a + 1 ∈ s.faultAt)
    (hb : s.quietFor b) (hfb : s.calls + b + 1 ∈ s.faultAt) : a = b := by
  rcases ha _ hfb with h | h <;> rcases hb _ hfa with h' | h' <;> omega

/-- The state in which a transmission is cut short at call `c`, after the calls `pre` and before the calls `post`: with
the controller's input in doubt unless `c` is the last (R89). -/
def cutWord (pre : List BackendCall) (c : BackendCall) (post : List BackendCall) (s : State) : State :=
  if post = [] then cutAt pre c s else (cutAt pre c s).indeterminate

theorem cutWord_last (pre : List BackendCall) (c : BackendCall) (s : State) : cutWord pre c [] s = cutAt pre c s :=
  if_pos rfl

theorem cutWord_early {post : List BackendCall} (h : post ≠ []) (pre : List BackendCall) (c : BackendCall) (s : State) :
    cutWord pre c post s = (cutAt pre c s).indeterminate := if_neg h

theorem cutWord_rest (pre : List BackendCall) (c : BackendCall) (post : List BackendCall) (s : State) :
    (cutWord pre c post s).rest = (cutAt pre c s).rest := by
  unfold cutWord
  split <;> rfl

theorem levelOf_cutWord (pre : List BackendCall) (c : BackendCall) (post : List BackendCall) (s : State) (l : LineId) :
    (cutWord pre c post s).levelOf l = (cutAt pre c s).levelOf l := by
  unfold cutWord
  split <;> rfl

/-- A fault at the `k`-th of the calls that a `TRANSMIT` at phase `j` has still to make cuts it short there (R82,
R186). -/
theorem transmitFrom_fault {j k : Nat} (v : Byte) (rs : Bool) {s : State} (hk : 1 ≤ k) (hjk : j + k ≤ 21)
    (hq : s.quietFor (k - 1)) (hf : s.calls + k ∈ s.faultAt) :
    ∃ pre c post, (transmitCalls s v rs).drop j = pre ++ c :: post ∧ pre.length + 1 = k ∧
      transmitFrom j v rs s = .raised .hardwareFault (cutWord pre c post s) := by
  rcases hr : transmitFrom j v rs s with t | ⟨e, t⟩
  · obtain ⟨hquiet, -⟩ := (transmitFrom_going_iff j v rs s t).1 hr
    exact absurd hquiet (not_quietFor_of_fault hf hk (by omega))
  · obtain ⟨rfl, pre, c, post, hsplit, hpre, hfault, rfl⟩ := transmitFrom_raised hr
    have hpos : pre.length = k - 1 :=
      firstFault_unique hpre hfault hq (by rwa [Nat.add_assoc, Nat.sub_add_cancel hk])
    exact ⟨pre, c, post, hsplit, by omega, rfl⟩

/-- `t` is `s` after a word that began at phase `j` was cut short at the `k`-th of its remaining calls (R89, R186). -/
structure WordCut (s t : State) (j k : Nat) (v : Byte) (rs : Bool) : Prop where
  lifecycle : t.lifecycle = .faulted
  calls : t.calls = s.calls + k
  events : t.events = s.events ++ ((transmitCalls s v rs).drop j).take k
  cursor : t.cursorPosition = s.cursorPosition
  lines : SameLines s t
  flags : SameFlags s t
  inputs : SameInputs s t
  doubt : s.linesDistinct → j + k ≤ 20 →
    t.latched = s.latched ∧ (∃ x, t.stray = s.stray ++ [⟨s.latched.length, x⟩]) ∧ ∀ p, t.readCell p = none
  noDoubt : s.timingMet → j + k = 21 → t.stray = s.stray
  whole : s.linesDistinct → s.timingMet → j = 0 → k = 21 → t.latched = s.latched ++ [⟨rs, v⟩]

/-- Short of its last call a cut transmission has latched nothing and leaves one doubt (R89). -/
theorem cutWord_doubt {j : Nat} {v : Byte} {rs : Bool} {s : State} {pre post : List BackendCall} {c : BackendCall}
    (hsplit : (transmitCalls s v rs).drop j = pre ++ c :: post) (hc : c ≠ .rel) (hpost : post ≠ [])
    (hd : s.linesDistinct) :
    (cutWord pre c post s).latched = s.latched ∧
      (∃ x, (cutWord pre c post s).stray = s.stray ++ [⟨s.latched.length, x⟩]) ∧
      ∀ p, (cutWord pre c post s).readCell p = none := by
  obtain ⟨hlatched, hstray, -⟩ := faultCall_seen hc ((applyAll pre s).recordCall c)
  obtain ⟨hl, hs, -⟩ := seen_of_prefix hsplit hpost hd
  have hcutLatched : (cutAt pre c s).latched = s.latched := hlatched.trans hl
  have hcutStray : (cutAt pre c s).stray = s.stray := hstray.trans hs
  rw [cutWord_early hpost, ← hcutLatched, ← hcutStray]
  exact ⟨rfl, ⟨_, rfl⟩, fun _ => rfl⟩

theorem wordCut_cutWord {j : Nat} {v : Byte} {rs : Bool} {s : State} {pre post : List BackendCall} {c : BackendCall}
    (hsplit : (transmitCalls s v rs).drop j = pre ++ c :: post) :
    WordCut s (cutWord pre c post s) j (pre.length + 1) v rs := by
  obtain ⟨hlines, hflags, hcursor, hlife, -, hevents, hcalls, -, hinputs⟩ := cutAt_fields pre c s
  obtain ⟨rlines, rflags, rcursor, rlife, -, revents, rcalls, -, rinputs⟩ := rest_fields (cutWord_rest pre c post s)
  have hrel : .rel ∉ pre ++ c :: post := fun h =>
    rel_notMem_transmitCalls s v rs (List.mem_of_mem_drop (hsplit ▸ h))
  have hc : c ≠ .rel := fun h => hrel (by simp [h])
  have hseen := faultCall_seen hc ((applyAll pre s).recordCall c)
  have hlen : 21 - j = pre.length + (post.length + 1) := by
    have := congrArg List.length hsplit
    rwa [List.length_drop, length_transmitCalls, List.length_append, List.length_cons] at this
  have hlast : j + (pre.length + 1) = 21 → post = [] := fun h => List.length_eq_zero_iff.1 (by omega)
  refine ⟨rlife.trans hlife, rcalls.trans hcalls, ?_, rcursor.trans hcursor, sameLines_trans hlines rlines,
    sameFlags_trans hflags rflags, sameInputs_trans hinputs rinputs, fun hd h20 => ?_, fun htm h21 => ?_,
    fun hd htm hj h21 => ?_⟩
  · rw [revents, hevents, hsplit, List.take_length_add_append]
    rfl
  · exact cutWord_doubt hsplit hc (fun h => by rw [h, List.length_nil] at hlen; omega) hd
  · obtain rfl := hlast h21
    rw [cutWord_last]
    exact hseen.2.1.trans (applyAll_stray (fun h => hrel (List.mem_append_left _ h)) htm)
  · subst hj
    obtain rfl := hlast (by omega)
    rw [cutWord_last]
    exact hseen.1.trans (latched_before_last hsplit hd htm).1

theorem WordCut.faultSeen {s t : State} {k : Nat} {v : Byte} {rs : Bool} (h : WordCut s t 0 k v rs) (hk : k ≤ 21)
    (hd : s.linesDistinct) (htm : s.timingMet) : FaultSeen s t ⟨rs, v⟩ k := by
  unfold FaultSeen
  split
  · next h21 => exact ⟨h.whole hd htm rfl h21, h.noDoubt htm (by omega)⟩
  · exact h.doubt hd (by omega)

/-! ## Levels where a transmission is cut -/

/-- A call that leaves the level of a line alone. -/
def SparesLine (l : LineId) : BackendCall → Prop
  | .cfg j => l ≠ j
  | .write j _ => l ≠ j
  | .sleep _ => True
  | .rel => False

theorem levelOf_applyCall_spared {l : LineId} {c : BackendCall} (h : SparesLine l c) (s : State) :
    (applyCall c s).levelOf l = s.levelOf l := by
  cases c with
  | cfg j => exact (levelOf_applyCall_cfg s j l).trans (if_neg h)
  | write j b => exact (levelOf_applyCall_write s j l b).trans (if_neg h)
  | sleep d => rfl
  | rel => exact h.elim

theorem levelOf_faultCall_spared {l : LineId} {c : BackendCall} (h : SparesLine l c) (s : State) :
    (faultCall c s).levelOf l = s.levelOf l := by
  cases c with
  | cfg j => exact levelOf_putLevel_ne s h _
  | write j b => exact levelOf_putLevel_ne s h _
  | sleep d => rfl
  | rel => exact h.elim

theorem levelOf_applyAll_spared {l : LineId} {cs : List BackendCall} (h : ∀ c ∈ cs, SparesLine l c) (s : State) :
    (applyAll cs s).levelOf l = s.levelOf l := by
  induction cs generalizing s with
  | nil => rfl
  | cons c cs ih =>
    obtain ⟨hc, hcs⟩ := List.forall_mem_cons.1 h
    exact (ih hcs _).trans (levelOf_applyCall_spared hc _)

theorem levelOf_cutAt_spared {l : LineId} {c : BackendCall} (h : SparesLine l c) (pre : List BackendCall) (s : State) :
    (cutAt pre c s).levelOf l = (applyAll pre s).levelOf l :=
  levelOf_faultCall_spared h ((applyAll pre s).recordCall c)

/-- Of these calls only the one at place `n`, counted from 0, acts on the line: it writes `b`. -/
def WritesOnce (l : LineId) (b : Bool) (n : Nat) (cs : List BackendCall) : Prop :=
  ∃ as bs, cs = as ++ .write l b :: bs ∧ as.length = n ∧ (∀ c ∈ as, SparesLine l c) ∧ ∀ c ∈ bs, SparesLine l c

/-- Cut after its one write, the line has its new level (R89). -/
theorem WritesOnce.levelOf_after {l : LineId} {b : Bool} {n : Nat} {cs pre : List BackendCall} {c : BackendCall}
    (h : WritesOnce l b n cs) (hcut : pre ++ [c] <+: cs) (hn : n < pre.length) (s : State) :
    (cutAt pre c s).levelOf l = levelOfBool b := by
  obtain ⟨as, bs, rfl, rfl, -, hbs⟩ := h
  obtain ⟨mid, rfl⟩ : as ++ [.write l b] <+: pre :=
    List.prefix_of_prefix_length_le (l₃ := as ++ .write l b :: bs) ⟨bs, by simp⟩
      ((List.prefix_append pre [c]).trans hcut) (by simpa using hn)
  obtain ⟨post, hpost⟩ := hcut
  obtain rfl : mid ++ c :: post = bs := by simpa using hpost
  obtain ⟨hmid, hrest⟩ := List.forall_mem_append.1 hbs
  rw [levelOf_cutAt_spared (List.forall_mem_cons.1 hrest).1, applyAll_append, levelOf_applyAll_spared hmid,
    applyAll_append]
  simp only [applyAll, levelOf_applyCall_write, if_true]

/-- Cut before its one write, the line has its old level (R89). -/
theorem WritesOnce.levelOf_before {l : LineId} {b : Bool} {n : Nat} {cs pre : List BackendCall} {c : BackendCall}
    (h : WritesOnce l b n cs) (hcut : pre ++ [c] <+: cs) (hn : pre.length < n) (s : State) :
    (cutAt pre c s).levelOf l = s.levelOf l := by
  obtain ⟨as, bs, rfl, rfl, has, -⟩ := h
  obtain ⟨post, rfl⟩ : pre ++ [c] <+: as :=
    List.prefix_of_prefix_length_le hcut (List.prefix_append as _) (by simpa using hn)
  obtain ⟨hpre, hc⟩ := List.forall_mem_append.1 (List.forall_mem_append.1 has).1
  rw [levelOf_cutAt_spared (List.forall_mem_singleton.1 hc), levelOf_applyAll_spared hpre]

theorem writesOnce_rs {s : State} (v : Byte) (rs : Bool) (hd : s.linesDistinct) :
    WritesOnce s.rsLine rs 0 (transmitCalls s v rs) := by
  refine ⟨[], (transmitCalls s v rs).tail, rfl, rfl, nofun, ?_⟩
  simp (disch := decide) [transmitCalls, pulseCalls, dataCalls, SparesLine, rsLine_ne_eLine hd,
    (dataLine_ne_rsLine hd _).symm]

/-- E is written once more, at call 20, which is none of `riseCalls`. -/
theorem writesOnce_e {s : State} (v : Byte) (rs : Bool) (hd : s.linesDistinct) :
    WritesOnce s.eLine true 1 (riseCalls s v rs) := by
  refine ⟨[.write s.rsLine rs], .sleep s.enableDelay :: dataCalls s v, rfl, rfl, ?_, ?_⟩
  · simp [SparesLine, (rsLine_ne_eLine hd).symm]
  · simp (disch := decide) [dataCalls, SparesLine, (dataLine_ne_eLine hd _).symm]

/-- The order of the data lines, cut at one of them. -/
theorem dataOrder_split (i : Fin 8) : ∃ as bs : List (Fin 8), [7, 6, 5, 4, 3, 2, 1, 0] = as ++ i :: bs ∧
    as.length = 7 - i.val ∧ (∀ a ∈ as, a ≠ i) ∧ ∀ a ∈ bs, a ≠ i := by
  refine ⟨[7, 6, 5, 4, 3, 2, 1, 0].take (7 - i.val), [7, 6, 5, 4, 3, 2, 1, 0].drop (8 - i.val), ?_⟩
  revert i
  decide

/-- The two calls of a data line in a transmission (R81). -/
def lineCalls (s : State) (v : Byte) (i : Fin 8) : List BackendCall :=
  [.write s.dataLines[i] (v.getLsbD i.val), .sleep s.enableDelay]

theorem dataCalls_eq (s : State) (v : Byte) : dataCalls s v = [7, 6, 5, 4, 3, 2, 1, 0].flatMap (lineCalls s v) := rfl

theorem sparesLine_lineCalls {s : State} (v : Byte) (hd : s.linesDistinct) {i : Fin 8} {js : List (Fin 8)}
    (hjs : ∀ j ∈ js, j ≠ i) : ∀ c ∈ js.flatMap (lineCalls s v), SparesLine s.dataLines[i] c := by
  intro c hc
  obtain ⟨j, hj, hc⟩ := List.mem_flatMap.1 hc
  rcases List.mem_pair.1 hc with rfl | rfl
  · exact dataLine_ne hd i.isLt j.isLt fun h => hjs j hj (Fin.ext h.symm)
  · trivial

theorem writesOnce_data {s : State} (v : Byte) (rs : Bool) (hd : s.linesDistinct) (i : Fin 8) :
    WritesOnce s.dataLines[i] (v.getLsbD i.val) (17 - 2 * i.val) (transmitCalls s v rs) := by
  obtain ⟨as, bs, horder, hlen, has, hbs⟩ := dataOrder_split i
  have hrs : s.dataLines[i.val] ≠ s.rsLine := dataLine_ne_rsLine hd i.isLt
  have he : s.dataLines[i.val] ≠ s.eLine := dataLine_ne_eLine hd i.isLt
  refine ⟨[.write s.rsLine rs, .write s.eLine true, .sleep s.enableDelay] ++ as.flatMap (lineCalls s v),
    .sleep s.enableDelay :: (bs.flatMap (lineCalls s v) ++ [.write s.eLine false, .sleep s.enableDelay]), ?_, ?_, ?_, ?_⟩
  · rw [transmitCalls_eq, riseCalls, dataCalls_eq, horder]
    simp [lineCalls]
  · simp only [lineCalls, List.length_append, List.length_flatMap, List.length_cons, List.length_nil,
      List.map_const', List.sum_replicate, hlen, smul_eq_mul]
    omega
  · exact List.forall_mem_append.2 ⟨by simp [hrs, he, SparesLine], sparesLine_lineCalls v hd has⟩
  · exact List.forall_mem_cons.2 ⟨trivial, List.forall_mem_append.2
      ⟨sparesLine_lineCalls v hd hbs, by simp [he, SparesLine]⟩⟩

/-- Settles O15: the fault splits the 21 calls, and each line of the block is written at one place among them but for E,
written at calls 2 and 20. -/
theorem faultInsideATransmission : Obligations.FaultInsideATransmission := by
  intro s v rs k hk hk21 hq hf
  obtain ⟨pre, c, post, hsplit, rfl, hrun⟩ := transmitFrom_fault (j := 0) v rs hk (by omega) hq hf
  have hcut := wordCut_cutWord hsplit
  rw [List.drop_zero] at hsplit
  have hprefix : pre ++ [c] <+: transmitCalls s v rs := ⟨post, by rw [hsplit, List.append_assoc]; rfl⟩
  refine ⟨_, hrun, hcut.lifecycle, hcut.calls, hcut.events, hcut.cursor, hcut.lines, hcut.flags, hcut.inputs,
    fun hd => ?_⟩
  simp only [levelOf_cutWord]
  refine ⟨fun h1 => (writesOnce_rs v rs hd).levelOf_after hprefix (by omega) s, fun h3 h19 => ?_,
    fun i => ⟨fun h => (writesOnce_data v rs hd i).levelOf_after hprefix (by omega) s,
      fun h => (writesOnce_data v rs hd i).levelOf_before hprefix (by omega) s⟩, hcut.faultSeen hk21 hd⟩
  have hrise : pre ++ [c] <+: riseCalls s v rs :=
    List.prefix_of_prefix_length_le hprefix (List.prefix_append _ _)
      (by rw [List.length_append]; exact h19)
  exact (writesOnce_e v rs hd).levelOf_after hrise (by omega) s

/-! ## A fault inside a word -/

theorem sendInstr_eq_sendFrom (v : Byte) (s : State) : sendInstr v s = sendFrom 0 v false s := by
  rw [sendInstr, transmitPattern_patternOf]
  exact (Run.bind_going _).symm

theorem sendData_eq_sendFrom (v : Byte) (s : State) : sendData v s = sendFrom 0 v true s := by
  rw [sendData, transmitPattern_patternOf]
  rfl

/-- An emitted word is its byte's transmission from phase 0 on (R85, R86). -/
theorem exec_word {i : Instr} {v : Byte} {rs : Bool} (hw : wordParts i = some (v, rs)) (s : State) :
    exec i s = finishWord (sendFrom 0 v rs s) := by
  cases i with
  | iClear | iFunc | iDisp _ _ _ | iEntry | iHome =>
    cases hw
    exact congrArg finishWord (sendInstr_eq_sendFrom _ s)
  | dChar _ | dNull =>
    cases hw
    exact congrArg finishWord (sendData_eq_sendFrom _ s)
  | _ => cases hw

/-- At any phase the step of a busy block is what remains of the word it stands at (R82). -/
theorem step_runs_word {s : State} {p : SeqPos} {i : Instr} {v : Byte} {rs : Bool} (hseq : s.seq = .busy p)
    (hsel : selectWord p s = some i) (hw : wordParts i = some (v, rs)) :
    step s = afterWord p.op (nextPos p s) (finishWord (sendFrom p.phase v rs s)) := by
  by_cases hp : p.phase = 0
  · rw [stepRunsTheSelectedWord s p i hseq hsel hp, exec_word hw, hp]
  · exact step_resumes_word hseq hsel hw hp

/-- A fault in the calls that remain ends the word, and a data word's cursor stays where it was (R86). -/
theorem sendFrom_fault {j k : Nat} (v : Byte) (rs : Bool) {s : State} (hk : 1 ≤ k) (hjk : j + k ≤ 21)
    (hq : s.quietFor (k - 1)) (hf : s.calls + k ∈ s.faultAt) :
    ∃ t, finishWord (sendFrom j v rs s) = .next (t.endWith .hardwareFault) ∧ WordCut s t j k v rs := by
  obtain ⟨pre, c, post, hsplit, rfl, hrun⟩ := transmitFrom_fault v rs hk hjk hq hf
  exact ⟨cutWord pre c post s, by rw [sendFrom, hrun]; rfl, wordCut_cutWord hsplit⟩

/-- Settles O19: the word is cut from phase 0. -/
theorem faultInsideAnEmittedWord : Obligations.FaultInsideAnEmittedWord := by
  intro s i v rs k hw hk hk21 hq hf
  obtain ⟨t, ht, hcut⟩ := sendFrom_fault (j := 0) v rs hk (by omega) hq hf
  exact ⟨t.endWith .hardwareFault, (exec_word hw s).trans ht, rfl, hcut.lifecycle, rfl, hcut.calls, hcut.events,
    hcut.cursor, hcut.lines, hcut.flags, hcut.inputs, hcut.faultSeen hk21⟩

/-- Settles O20: the word is cut from the phase it stood at, and the sequencer leaves an ended operation ended. -/
theorem faultInsideAStep : Obligations.FaultInsideAStep := by
  intro s p i v rs k hseq hsel hw hk hjk hq hf
  obtain ⟨t, ht, hcut⟩ := sendFrom_fault v rs hk hjk hq hf
  refine ⟨t.endWith .hardwareFault, ?_, rfl, hcut.lifecycle, rfl, hcut.calls, hcut.events, hcut.cursor, hcut.lines,
    hcut.flags, hcut.inputs, fun hd htm => ⟨fun h20 => ?_, hcut.noDoubt htm⟩⟩
  · rw [step_runs_word hseq hsel hw, ht]
    rfl
  · obtain ⟨hlatched, hstray, -⟩ := hcut.doubt hd h20
    exact ⟨hlatched, hstray⟩

end Sys2Proof.Proofs

namespace Sys2Proof.Proofs
open Sys2Proof.Machine

/-! ## An accepted operation without a fault -/

/-- An accepted operation whose calls are quiet writes its first registers, sends its words whole and answers OK. -/
theorem sending_completes {i : Instr} (hi : Instr.isSending i) {s : State} (hs : s.seq = .idle)
    (hacc : refusalOf i s = none) (hq : s.quietFor (callCount i s)) :
    ∃ u, exec i s = .next (u.endWith .ok) ∧ SentWords (firstWrites i s) u (opWords i s) := by
  obtain ⟨hcalls, -, -, -, -, -, -, -, -, hfaultAt, -⟩ := firstWrites_frame i s
  rcases sending_cases hi hs with ⟨e, he, -⟩ | ⟨-, -, r, hr, hsends⟩
  · rw [hacc] at he
    cases he
  · obtain ⟨u, rfl, hsent⟩ := hsends.ok (by rwa [length_opWords hi, State.quietFor, hcalls, hfaultAt])
    exact ⟨u, hr, hsent⟩

/-! ## The mode operations -/

/-- The nine operations of spec/42_mode.md. -/
def IsModeOperation : Instr → Prop
  | .setDisplay _ | .setCursor _ | .setBlink _ => True
  | .displayOn | .displayOff | .cursorOn | .cursorOff | .blinkOn | .blinkOff => True
  | _ => False

/-- The block with its three flags as given (R12). -/
def withFlags (d c b : Bool) (s : State) : State := ((s.setDisplayOn d).setCursorOn c).setBlinkOn b

/-- A mode operation writes flags and nothing else before it sends (R104). -/
theorem IsModeOperation.firstWrites_eq {i : Instr} (hi : IsModeOperation i) (s : State) :
    firstWrites i s = withFlags (firstWrites i s).displayOn (firstWrites i s).cursorOn (firstWrites i s).blinkOn s := by
  cases i with
  | setDisplay _ | setCursor _ | setBlink _ | displayOn | displayOff | cursorOn | cursorOff | blinkOn | blinkOff => rfl
  | _ => cases hi

/-- A mode operation has the check of `CLEAR` and sends one word, `DCB` as its first writes leave it (R101, R104). -/
theorem IsModeOperation.sends_dcb {i : Instr} (hi : IsModeOperation i) (s : State) :
    Instr.isSending i ∧ refusalOf i s = refusalOf .clear s ∧ callCount i s = 21 ∧
      opWords i s = [instrWord (firstWrites i s).dcb] := by
  cases i with
  | setDisplay _ | setCursor _ | setBlink _ | displayOn | displayOff | cursorOn | cursorOff | blinkOn | blinkOff =>
    exact ⟨⟨rfl, nofun, nofun⟩, rfl, rfl, rfl⟩
  | _ => cases hi

theorem refusalOf_clear_ready {s : State} (h : s.lifecycle = .ready) : refusalOf .clear s = none := by
  simp only [refusalOf, checkReady_ok h]

/-- A mode operation at a READY block, without a fault: the flags are those first written, the word is theirs, and
nothing else in the block or the cells has changed (R102). -/
theorem mode_completes {i : Instr} (hi : IsModeOperation i) {s : State} (hs : s.isReady) (hq : s.quietFor 21) :
    ∃ t, exec i s = .next t ∧ SameFlags (firstWrites i s) t ∧ Transmitted s t [instrWord (firstWrites i s).dcb] ∧
      t.cursorPosition = s.cursorPosition ∧ t.isReady ∧ t.returned = some .ok ∧
      (s.linesDistinct → s.timingMet → t.cells = s.cells) := by
  obtain ⟨hready, hidle⟩ := hs
  obtain ⟨hsending, hcheck, hcount, hwords⟩ := hi.sends_dcb s
  obtain ⟨d, c, b, hfirst⟩ : ∃ d c b, firstWrites i s = withFlags d c b s := ⟨_, _, _, hi.firstWrites_eq s⟩
  obtain ⟨u, hu, hsent⟩ := sending_completes hsending hidle (hcheck.trans (refusalOf_clear_ready hready))
    (by rwa [hcount])
  rw [hwords, hfirst] at hsent
  rw [hfirst]
  refine ⟨_, hu, hsent.flags, hsent.transmitted, hsent.instrCursor rfl, ⟨hsent.lifecycle.trans hready, rfl⟩, rfl,
    fun hd htm => ?_⟩
  exact (hsent.cells (Nat.le_of_lt_succ s.cursorPosition.isLt) hd htm).trans
    (cellsAfterWords_displayControl d c b _ _)

/-- Settles O22: in each of the nine cases the flags `d`, `c`, `b` are those the operation writes first. -/
theorem modeOperationsComplete : Obligations.ModeOperationsComplete := by
  intro s i d c b hi hs hq
  have hmode : IsModeOperation i ∧ firstWrites i s = withFlags d c b s := by
    rcases hi with ⟨rfl, rfl, rfl⟩ | ⟨rfl, rfl, rfl⟩ | ⟨rfl, rfl, rfl⟩ | ⟨rfl, rfl, rfl, rfl⟩ | ⟨rfl, rfl, rfl, rfl⟩ |
      ⟨rfl, rfl, rfl, rfl⟩ | ⟨rfl, rfl, rfl, rfl⟩ | ⟨rfl, rfl, rfl, rfl⟩ | ⟨rfl, rfl, rfl, rfl⟩ <;>
    exact ⟨trivial, rfl⟩
  obtain ⟨hi, hfirst⟩ := hmode
  obtain ⟨t, ht, ⟨hD, hC, hB⟩, hsent, hcursor, hready, hreturned, hcells⟩ := mode_completes hi hs hq
  rw [hfirst] at hD hC hB hsent
  exact ⟨t, ht, hD, hC, hB, hsent, hcursor, hready, hreturned, fun hd htm p => congrArg (mapGet · p) (hcells hd htm)⟩

/-- A set operation writes nothing new where the flags are already as it leaves them (R103). -/
theorem firstWrites_again {i : Instr} {b : Bool} (hi : i = .setDisplay b ∨ i = .setCursor b ∨ i = .setBlink b)
    {s t : State} (h : SameFlags (firstWrites i s) t) : firstWrites i t = t := by
  obtain ⟨hD, hC, hB⟩ := h
  rcases hi with rfl | rfl | rfl
  · exact congrArg t.setDisplayOn hD.symm
  · exact congrArg t.setCursorOn hC.symm
  · exact congrArg t.setBlinkOn hB.symm

/-- Settles O24: the second operation finds the flags it writes, so its word is the first's. -/
theorem settingTwiceResendsTheWord : Obligations.SettingTwiceResendsTheWord := by
  intro s i b hi hs hq hd htm
  have hmode : IsModeOperation i := by
    rcases hi with rfl | rfl | rfl <;> trivial
  obtain ⟨t, ht, hflags, ⟨-, hcalls, hlines, hinputs, -, -, hseen⟩, hcursor, hready, -⟩ :=
    mode_completes hmode hs (quietFor_add (b := 21) hq)
  obtain ⟨u, hu, hflags', ⟨-, -, -, -, -, -, hseen'⟩, hcursor', hready', -⟩ :=
    mode_completes hmode hready (quietFor_later hq hcalls hinputs.2.1)
  obtain ⟨hlatched, -⟩ := hseen hd htm
  obtain ⟨hlatched', -⟩ := hseen' ((linesDistinct_congr hlines).2 hd) ((timingMet_congr hinputs).2 htm)
  rw [firstWrites_again hi hflags] at hflags' hlatched'
  refine ⟨t, u, _, ht, hu, hflags', hlatched, ?_, hcursor'.trans hcursor, hready'⟩
  rw [hlatched', hlatched, dcb_congr hflags, List.append_assoc]
  rfl

end Sys2Proof.Proofs

namespace Sys2Proof.Proofs
open Sys2Proof.Machine

/-! ## CLEAR -/

/-- Settles O25: the first write puts the cursor at 0 and keeps the flags, none of the five words is data, and the
clear-display word empties the cells, which the other four do not write. -/
theorem clearCompletes : Obligations.ClearCompletes := by
  intro s ⟨hready, hidle⟩ hq
  obtain ⟨u, hu, hsent⟩ :=
    sending_completes (i := .clear) ⟨rfl, nofun, nofun⟩ hidle (refusalOf_clear_ready hready) hq
  have hcells : s.linesDistinct → s.timingMet → u.cells = [] := fun hd htm =>
    (hsent.cells (Nat.zero_le 63) hd htm).trans (cellsAfterWords_clearWords _ _ _ _ _)
  exact ⟨u.endWith .ok, hu, hsent.instrCursor (dataCount_clearWords s.dcb), hsent.transmitted.of_setCursor.endWith .ok,
    hsent.flags, ⟨hsent.lifecycle.trans hready, rfl⟩, rfl, fun hd htm p => congrArg (mapGet · p) (hcells hd htm)⟩

end Sys2Proof.Proofs

namespace Sys2Proof.Proofs
open Sys2Proof.Machine

/-! ## How the text operations are refused -/

theorem isSending_setText (text : List CodePoint) : Instr.isSending (.setText text) := ⟨rfl, nofun, nofun⟩

theorem isSending_append (text : List CodePoint) : Instr.isSending (.append text) := ⟨rfl, nofun, nofun⟩

/-- An operation whose checks raise a status returns it and changes nothing else (R191). -/
theorem exec_refused {i : Instr} (hi : Instr.isSending i) {s : State} (hs : s.seq = .idle) {e : Status}
    (h : refusalOf i s = some e) : exec i s = .next (s.setReturned e) := by
  rcases sending_cases hi hs with ⟨e', he', -, hx⟩ | ⟨hnone, -⟩
  · cases h.symm.trans he'
    exact hx
  · rw [hnone] at h
    cases h

/-- A status of the checks is returned only if the checks raise it: past them an operation ends with OK or
`HardwareFault` (R186, R190). -/
theorem refusalOf_of_returned {i : Instr} (hi : Instr.isSending i) {s t : State} (h : exec i s = .next t)
    {e : Status} (he : Precise e) (hret : t.returned = some e) : refusalOf i s = some e := by
  rcases sending_cases hi (idle_of_next hi.1 h) with ⟨e', he', -, hx⟩ | ⟨-, -, r, hr, hsends⟩
  · rw [hx] at h
    cases h
    exact he'.trans hret
  · have hends : e = .ok ∨ e = .hardwareFault := by
      rcases finish_sends hsends (hr ▸ h) with ⟨u, rfl, -⟩ | ⟨u, n, rfl, -⟩ <;> cases hret
      · exact .inl rfl
      · exact .inr rfl
    rcases hends with rfl | rfl <;> simp [Precise] at he

/-- Past the length check only the encoder can refuse a `SET_TEXT` (R131). -/
theorem checkSetText_of_fits {text : List CodePoint} {s : State} (h : s.lifecycle = .ready)
    (hl : text.length ≤ 32) : checkSetText text s = encodeText text := by
  rw [checkSetText, if_neg (not_not.2 h), if_neg (Nat.not_lt.2 hl)]

theorem checkSetText_of_tooLong {text : List CodePoint} {s : State} (h : s.lifecycle = .ready)
    (hl : 32 < text.length) : checkSetText text s = .error .validationError := by
  rw [checkSetText, if_neg (not_not.2 h), if_pos hl]

/-- Past the emptiness and capacity checks only the encoder can refuse an `APPEND` (R139). -/
theorem checkAppend_of_fits {text : List CodePoint} {s : State} (h : s.lifecycle = .ready) (hne : text ≠ [])
    (hc : capacityOk s.cursorPosition.toNat text.length = true) : checkAppend text s = encodeText text := by
  rw [checkAppend, if_neg (not_not.2 h), if_neg (mt List.length_eq_zero_iff.1 hne), if_neg (by simp [hc])]

theorem checkAppend_of_unfit {text : List CodePoint} {s : State} (h : s.lifecycle = .ready)
    (hu : text = [] ∨ capacityOk s.cursorPosition.toNat text.length = false) :
    checkAppend text s = .error .validationError := by
  rw [checkAppend, if_neg (not_not.2 h)]
  split
  · rfl
  · next hne => rw [if_pos (hu.resolve_left (mt List.length_eq_zero_iff.2 hne))]

/-- An `APPEND` whose checks raise a status returns it and changes nothing else (R139, R191). -/
theorem append_refused {text : List CodePoint} {s : State} {e : Status} (hs : s.seq = .idle)
    (h : checkAppend text s = .error e) : exec (.append text) s = .next (s.setReturned e) :=
  exec_refused (isSending_append text) hs (by simp only [refusalOf, h])

/-- A `SET_TEXT` whose checks raise a status returns it and changes nothing else (R131, R191). -/
theorem setText_refused {text : List CodePoint} {s : State} {e : Status} (hs : s.seq = .idle)
    (h : checkSetText text s = .error e) : exec (.setText text) s = .next (s.setReturned e) :=
  exec_refused (isSending_setText text) hs (by simp only [refusalOf, h])

/-- Settles O35: the length is tested first, then the encoder, and both tests come before the first backend call. -/
theorem failedSetTextChangesNothing : Obligations.FailedSetTextChangesNothing := by
  intro s text ⟨hready, hidle⟩
  refine ⟨fun hl => setText_refused hidle (checkSetText_of_tooLong hready hl), fun hl hnot => ?_⟩
  exact setText_refused hidle ((checkSetText_of_fits hready hl).trans (encodeText_of_not_ascii hnot))

/-- Settles O41: emptiness and capacity are tested before the encoder, and all of them before the first backend
call. -/
theorem failedAppendChangesNothing : Obligations.FailedAppendChangesNothing := by
  intro s text ⟨hready, hidle⟩
  refine ⟨fun hu => append_refused hidle (checkAppend_of_unfit hready hu), fun hne hc hnot => ?_⟩
  exact append_refused hidle ((checkAppend_of_fits hready hne hc).trans (encodeText_of_not_ascii hnot))

/-- An `APPEND` that fits is not answered with `ValidationError`: what is left of its checks is the encoder, which has a
status of its own (R139). -/
theorem append_returned_of_fits {text : List CodePoint} {s t : State} (hs : s.isReady) (hne : text ≠ [])
    (hc : capacityOk s.cursorPosition.toNat text.length = true) (h : exec (.append text) s = .next t) :
    t.returned ≠ some .validationError := by
  intro hret
  have href := refusalOf_of_returned (isSending_append text) h (.inl rfl) hret
  simp only [refusalOf, checkAppend_of_fits hs.1 hne hc] at href
  cases henc : encodeText text with
  | ok bytes => simp [henc] at href
  | error e => simp [henc, encodeText_error henc] at href

/-- Settles O37: the rule is `capacityOk_iff`, the two examples are evaluated, and the capacity check alone tells the
two answers of a READY `APPEND` apart. -/
theorem appendCapacityRule : Obligations.AppendCapacityRule := by
  refine ⟨fun c l => ?_, by decide, by decide, fun s text hs hne => ⟨fun hc => ?_, fun hc t ht => ?_⟩⟩
  · rw [capacityOk_iff]
    omega
  · exact append_refused hs.2 (checkAppend_of_unfit hs.1 (.inr hc))
  · exact append_returned_of_fits hs hne hc ht

/-- Settles O38: the rule of R140 in the four ranges of the entry position. -/
theorem largestAcceptedAppend : Obligations.LargestAcceptedAppend := by
  intro c l _ _
  rw [capacityOk_iff]
  split_ifs <;> omega

/-- With no characters to send, `SET_TEXT` is its clear sequence, in every lifecycle state (R136). -/
theorem setTextOp_nil (s : State) : setTextOp [] s = clearOp s := by
  by_cases h : s.lifecycle = .ready
  · rw [setTextOp, afterChecks_ok (checkSetText_ok (text := []) h (Nat.zero_le 32) nofun), clearOp_ready h]
    exact Run.bind_going (clearSeq s)
  · rw [setTextOp, clearOp, checkReady_error h, checkSetText, if_pos h]
    rfl

/-- Settles O36: the loop over no characters sends nothing after the clear. -/
theorem emptySetTextIsAClear : Obligations.EmptySetTextIsAClear :=
  ⟨encodeText_of_ascii nofun, fun s => congrArg (hostOp · s) (funext setTextOp_nil)⟩

end Sys2Proof.Proofs

namespace Sys2Proof.Proofs
open Sys2Proof.Machine

/-! ## The text operations without a fault -/

/-- An accepted operation of a READY block whose calls are quiet: the cursor has counted its data words, the block is
READY again with the status OK, and the cells are those the words write (R13, R86, R230). -/
theorem sending_ends {i : Instr} (hi : Instr.isSending i) {s : State} (hs : s.isReady)
    (hacc : refusalOf i s = none) (hq : s.quietFor (callCount i s)) :
    ∃ t, exec i s = .next t ∧
      t.cursorPosition.toNat = (firstWrites i s).cursorPosition.toNat + dataCount (opWords i s) ∧
      Transmitted (firstWrites i s) t (opWords i s) ∧ t.calls = s.calls + callCount i s ∧
      SameFlags (firstWrites i s) t ∧ t.isReady ∧ t.returned = some .ok ∧
      (s.linesDistinct → s.timingMet →
        t.cells = cellsAfterWords (opWords i s) (firstWrites i s).cursorPosition.toNat s.cells) := by
  obtain ⟨hcalls, -, -, hlife, -, -, hcells, hlines, hinputs⟩ := firstWrites_frame i s
  obtain ⟨u, hu, hsent⟩ := sending_completes hi hs.2 hacc hq
  have hfit := cursor_opWords hacc
  have hmade : u.calls = s.calls + callCount i s := by
    obtain ⟨-, hc, -⟩ := hsent.transmitted
    rw [hc, hcalls, length_opWords hi]
  refine ⟨_, hu, hsent.cursor hfit, hsent.transmitted.endWith .ok, hmade, hsent.flags,
    ⟨hsent.lifecycle.trans (hlife.trans hs.1), rfl⟩, rfl, fun hd htm => ?_⟩
  rw [← hcells]
  exact hsent.cells hfit ((linesDistinct_congr (hlines hi.2.1)).2 hd) ((timingMet_congr hinputs).2 htm)

/-- `SET_TEXT` of an ASCII text that fits: after the clear every cell is unknown and the cursor 0, so the characters and
the skip say where it ends and what is written (R131, R132). -/
theorem setText_ends {s : State} {text : List CodePoint} (hs : s.isReady) (hl : text.length ≤ 32)
    (ha : ∀ c ∈ text, c < 128) (hq : s.quietFor (callCount (.setText text) s)) :
    ∃ t, exec (.setText text) s = .next t ∧ t.cursorPosition.toNat = setTextEnd text.length ∧
      Transmitted s t (clearWords s.dcb ++ setTextWords text) ∧
      t.calls = s.calls + callCount (.setText text) s ∧ SameFlags s t ∧ t.isReady ∧ t.returned = some .ok ∧
      (s.linesDistinct → s.timingMet → t.cells = cellsAfterWords (setTextWords text) 0 []) := by
  obtain ⟨t, ht, hcursor, hsent, hcalls, hflags, hready, hreturned, hcells⟩ :=
    sending_ends (isSending_setText text) hs (by simp only [refusalOf, checkSetText_ok hs.1 hl ha]) hq
  refine ⟨t, ht, ?_, hsent.of_setCursor, hcalls, hflags, hready, hreturned, fun hd htm => ?_⟩
  · rw [hcursor, opWords, dataCount_append, dataCount_clearWords, dataCount_setTextWords, Nat.zero_add]
    exact Nat.zero_add _
  · rw [hcells hd htm, opWords, cellsAfterWords_append, dataCount_clearWords, State.dcb, cellsAfterWords_clearWords]
    rfl

/-- `APPEND` of an ASCII text that fits: it goes on from the cursor as it stands (R139, R143). -/
theorem append_ends {s : State} {text : List CodePoint} (hs : s.isReady) (hne : text ≠ [])
    (hc : capacityOk s.cursorPosition.toNat text.length = true) (ha : ∀ c ∈ text, c < 128)
    (hq : s.quietFor (callCount (.append text) s)) :
    ∃ t, exec (.append text) s = .next t ∧
      t.cursorPosition.toNat = appendEnd s.cursorPosition.toNat text.length ∧
      Transmitted s t (appendWords s.cursorPosition.toNat text) ∧
      t.calls = s.calls + callCount (.append text) s ∧ SameFlags s t ∧ t.isReady ∧ t.returned = some .ok ∧
      (s.linesDistinct → s.timingMet →
        t.cells = cellsAfterWords (appendWords s.cursorPosition.toNat text) s.cursorPosition.toNat s.cells) := by
  obtain ⟨t, ht, hcursor, h⟩ :=
    sending_ends (isSending_append text) hs (by simp only [refusalOf, checkAppend_ok hs.1 hne hc ha]) hq
  exact ⟨t, ht, hcursor.trans (dataCount_appendWords _ text), h⟩

/-- Settles O33: the clear sends no data, so the cursor counts the text's data words alone. -/
theorem setTextCompletes : Obligations.SetTextCompletes := by
  intro s text hs hl ha hq
  obtain ⟨t, ht, hcursor, hsent, hcalls, hflags, hready, hreturned, -⟩ := setText_ends hs hl ha hq
  exact ⟨t, ht, hcursor, hsent, hcalls, hflags, hready, hreturned⟩

/-- Settles O39: the words are those of the loop, which sends no instruction. -/
theorem appendCompletes : Obligations.AppendCompletes := by
  intro s text hs hne hc ha hq
  obtain ⟨t, ht, hcursor, hsent, hcalls, hflags, hready, hreturned, -⟩ := append_ends hs hne hc ha hq
  exact ⟨t, ht, hcursor, hsent, hcalls, hflags, hready, hreturned⟩

/-! ## An append that ends at the boundary -/

/-- From cursor 0, sixteen characters fit and reach the boundary without a skip (R142, R145). -/
theorem append_to_boundary {s : State} {text : List CodePoint} (hs : s.isReady) (hcur : s.cursorPosition.toNat = 0)
    (hl : text.length = 16) (ha : ∀ c ∈ text, c < 128) (hq : s.quietFor 336) :
    ∃ t, exec (.append text) s = .next t ∧ t.cursorPosition.toNat = 16 ∧ Transmitted s t (charWords text) ∧
      t.calls = s.calls + 336 ∧ t.isReady := by
  have hne : text ≠ [] := List.ne_nil_of_length_eq_add_one hl
  have hcount : callCount (.append text) s = 336 := by
    simp [callCount, hcur, hl]
  have hwords : appendWords 0 text = charWords text := if_neg (by omega)
  obtain ⟨t, ht, hcursor, hsent, hcalls, -, hready, -⟩ :=
    append_ends hs hne (by rw [hcur, hl]; decide) ha (hcount ▸ hq)
  rw [hcur, hl] at hcursor
  rw [hcur, hwords] at hsent
  exact ⟨t, ht, hcursor, hsent, hcalls.trans (by rw [hcount]), hready⟩

/-- From the boundary, one character comes after the whole skip (R142, R145). -/
theorem append_from_boundary {s : State} {c : CodePoint} (hs : s.isReady) (hcur : s.cursorPosition.toNat = 16)
    (hc : c < 128) (hq : s.quietFor 525) :
    ∃ t, exec (.append [c]) s = .next t ∧ t.cursorPosition.toNat = 41 ∧
      Transmitted s t (nullWords ++ charWords [c]) := by
  have hcount : callCount (.append [c]) s = 525 := by
    simp [callCount, hcur]
  obtain ⟨t, ht, hcursor, hsent, -⟩ :=
    append_ends hs (List.cons_ne_nil c []) (by rw [hcur]; rfl) (List.forall_mem_singleton.2 hc) (hcount ▸ hq)
  rw [hcur] at hcursor hsent
  exact ⟨t, ht, hcursor, hsent⟩

/-- Settles O42: `CLEAR`, the append to the boundary and the append from it, one after another in a quiet block. -/
theorem boundarySkipIsLeftToTheNextAppend : Obligations.BoundarySkipIsLeftToTheNextAppend := by
  intro s text c hs hl ha hc hq hd htm
  refine ⟨?_, ?_⟩
  · have hcount : callCount (.setText text) s = 945 := by simp [callCount, hl]
    obtain ⟨t, ht, hcursor, -⟩ :=
      setText_ends hs (by omega) ha (hcount ▸ quietFor_add (b := 21) hq)
    exact ⟨t, ht, hcursor.trans (by rw [hl]; rfl)⟩
  · obtain ⟨t, ht, hcur, ⟨-, hcalls, hlines, hinputs, -⟩, -, hready, -⟩ :=
      clearCompletes s hs (quietFor_add (b := 861) hq)
    have hqt : t.quietFor (336 + 525) := quietFor_later hq hcalls hinputs.2.1
    obtain ⟨u, hu, hcur', ⟨-, -, hlines', hinputs', -, -, hseen⟩, hcalls', hready'⟩ :=
      append_to_boundary hready (by rw [hcur]; rfl) hl ha (quietFor_add hqt)
    obtain ⟨w, hw, hcur'', -, -, -, -, -, -, hseen'⟩ :=
      append_from_boundary hready' hcur' hc (quietFor_later hqt hcalls' hinputs'.2.1)
    have hdt := (linesDistinct_congr hlines).2 hd
    have htt := (timingMet_congr hinputs).2 htm
    obtain ⟨hlatched, -⟩ := hseen hdt htt
    obtain ⟨hlatched', -⟩ := hseen' ((linesDistinct_congr hlines').2 hdt) ((timingMet_congr hinputs').2 htt)
    exact ⟨t, u, w, ht, hu, hw, hcur', hlatched, hlatched'.trans (List.append_assoc _ _ _).symm, hcur''⟩

end Sys2Proof.Proofs

namespace Sys2Proof.Proofs
open Sys2Proof.Machine

/-! ## Where the characters land -/

/-- The data bytes of a text with the skip before its character `k` (R133, R142). -/
def skipBytes (k : Nat) (text : List CodePoint) : List Byte :=
  (text.take k).map byteOfCodePoint ++ List.replicate 24 0x00#8 ++ (text.drop k).map byteOfCodePoint

theorem charWords_skip (k : Nat) (text : List CodePoint) :
    charWords (text.take k) ++ nullWords ++ charWords (text.drop k) = (skipBytes k text).map dataWord := by
  rw [skipBytes, List.map_append, List.map_append, charWords_eq, charWords_eq, nullWords_eq]

theorem length_skipBytes (k : Nat) (text : List CodePoint) : (skipBytes k text).length = text.length + 24 := by
  simp only [skipBytes, List.length_append, List.length_map, List.length_take, List.length_replicate, List.length_drop]
  omega

/-- The nulls stand between the characters before the skip and those after it. -/
theorem getElem?_skipBytes {k : Nat} {text : List CodePoint} (hk : k ≤ text.length) (p : Nat) :
    (skipBytes k text)[p]? =
      if p < k then text[p]?.map byteOfCodePoint
      else if p < k + 24 then some 0x00#8
      else text[p - 24]?.map byteOfCodePoint := by
  have hbefore : ((text.take k).map byteOfCodePoint).length = k := by
    rw [List.length_map, List.length_take, Nat.min_eq_left hk]
  rw [skipBytes, List.append_assoc, List.getElem?_append, hbefore]
  split_ifs with h1 h2
  · rw [List.getElem?_map, List.getElem?_take_of_lt h1]
  · rw [List.getElem?_append_left (by simp; omega), List.getElem?_replicate_of_lt (by omega)]
  · rw [List.getElem?_append_right (by simp; omega), List.length_replicate, List.getElem?_map, List.getElem?_drop,
      show k + (p - k - 24) = p - 24 by omega]

/-- The data bytes of `SET_TEXT` (R132). -/
def setTextBytes (text : List CodePoint) : List Byte :=
  if text.length < 16 then text.map byteOfCodePoint else skipBytes 16 text

theorem setTextWords_eq (text : List CodePoint) : setTextWords text = (setTextBytes text).map dataWord := by
  rw [setTextWords, charWords_skip, charWords_eq, setTextBytes, apply_ite (List.map dataWord)]

theorem length_setTextBytes (text : List CodePoint) : (setTextBytes text).length = setTextEnd text.length := by
  rw [← length_setTextWords, setTextWords_eq, List.length_map]

/-- The data bytes of `APPEND` from position `c` (R143). -/
def appendBytes (c : Nat) (text : List CodePoint) : List Byte :=
  if c ≤ 16 ∧ 16 < c + text.length then skipBytes (16 - c) text else text.map byteOfCodePoint

theorem appendWords_eq (c : Nat) (text : List CodePoint) : appendWords c text = (appendBytes c text).map dataWord := by
  rw [appendWords, charWords_skip, charWords_eq, appendBytes, apply_ite (List.map dataWord)]

theorem length_appendBytes (c : Nat) (text : List CodePoint) :
    c + (appendBytes c text).length = appendEnd c text.length := by
  rw [← length_appendWords, appendWords_eq, List.length_map]

/-- After the clear, byte `p` of a `SET_TEXT` is in cell `p`, and no other cell is known (R86). -/
theorem mapGet_cells_setText {text : List CodePoint} (hl : text.length ≤ 32) (p : Nat) :
    mapGet (cellsAfterWords (setTextWords text) 0 []) p = (setTextBytes text)[p]? := by
  have hlen := length_setTextBytes text
  have hfit : 0 + (setTextBytes text).length ≤ 63 := by
    rw [hlen, setTextEnd]
    split <;> omega
  rw [setTextWords_eq, mapGet_cellsAfterWords_data _ _ _ hfit, Nat.sub_zero]
  split_ifs with hp
  · rfl
  · exact (List.getElem?_eq_none (by omega)).symm

/-- Byte `p - c` of an `APPEND` from position `c` is in cell `p`, and every cell outside keeps what it had (R86). -/
theorem mapGet_cells_append {c : Nat} {text : List CodePoint} (hc : capacityOk c text.length = true) (m : Memory)
    (p : Nat) :
    mapGet (cellsAfterWords (appendWords c text) c m) p =
      if c ≤ p ∧ p < appendEnd c text.length then (appendBytes c text)[p - c]? else mapGet m p := by
  have hlen := length_appendBytes c text
  have hfit : c + (appendBytes c text).length ≤ 63 := by
    rw [capacityOk_iff] at hc
    rw [hlen, appendEnd]
    split <;> omega
  rw [appendWords_eq, mapGet_cellsAfterWords_data _ _ _ hfit, hlen]

theorem map_byteOfCodePoint_getElem? {text : List CodePoint} {k : Nat} (h : k < text.length) :
    text[k]?.map byteOfCodePoint = some (byteOfCodePoint text[k]) := by
  rw [List.getElem?_eq_getElem h, Option.map_some]

/-- Character `k` of a `SET_TEXT` is past the hidden cells from `k` = 16 on (R135). -/
theorem setTextBytes_character {text : List CodePoint} {k : Nat} (h : k < text.length) :
    (setTextBytes text)[if k < 16 then k else k + 24]? = some (byteOfCodePoint text[k]) := by
  rw [← map_byteOfCodePoint_getElem? h, setTextBytes]
  split_ifs with hl hk hk
  · exact List.getElem?_map
  · omega
  · rw [getElem?_skipBytes (by omega), if_pos hk]
  · rw [getElem?_skipBytes (by omega), if_neg (by omega), if_neg (by omega), Nat.add_sub_cancel]

/-- The hidden cells receive the nulls of the skip, if there is one (R135). -/
theorem setTextBytes_hidden (text : List CodePoint) {p : Nat} (h : 16 ≤ p ∧ p ≤ 39) :
    (setTextBytes text)[p]? = if 16 ≤ text.length then some 0x00#8 else none := by
  rw [setTextBytes]
  split_ifs with hl h16 h16
  · omega
  · exact List.getElem?_eq_none (by rw [List.length_map]; omega)
  · rw [getElem?_skipBytes h16, if_neg (by omega), if_pos (by omega)]
  · omega

/-- Character `k` of an `APPEND` is as far from the entry position as its cell (R139, R142). -/
theorem appendBytes_character {c : Nat} {text : List CodePoint} {k : Nat} (h : k < text.length) :
    (appendBytes c text)[appendCell c k - c]? = some (byteOfCodePoint text[k]) := by
  rw [← map_byteOfCodePoint_getElem? h, appendBytes, appendCell]
  split_ifs with hskip hk hk
  · rw [getElem?_skipBytes (by omega), if_neg (by omega), if_neg (by omega), show c + k + 24 - c - 24 = k by omega]
  · rw [getElem?_skipBytes (by omega), if_pos (by omega), Nat.add_sub_cancel_left]
  · omega
  · rw [List.getElem?_map, Nat.add_sub_cancel_left]

/-- A skip fills the hidden cells with nulls (R142). -/
theorem appendBytes_hidden {c : Nat} {text : List CodePoint} (hskip : c ≤ 16 ∧ 16 < c + text.length) {p : Nat}
    (h : 16 ≤ p ∧ p ≤ 39) : (appendBytes c text)[p - c]? = some 0x00#8 := by
  rw [appendBytes, if_pos hskip, getElem?_skipBytes (by omega), if_neg (by omega), if_pos (by omega)]

theorem appendCell_within {c k l : Nat} (h : k < l) : c ≤ appendCell c k ∧ appendCell c k < appendEnd c l := by
  unfold appendCell appendEnd
  split_ifs <;> omega

/-- Row 0 shows the first 16 positions, and the cells of its skip are hidden (R31). -/
theorem cell_row0 {p : Nat} (h : p < 40) :
    cellRow p = 0 ∧ cellColumn p = p ∧ cellVisible p = decide (p < 16) := by
  have hcolumn : cellColumn p = p := if_pos h
  have hcount : p < cellCount := Nat.lt_of_lt_of_le h (by decide)
  exact ⟨if_pos h, hcolumn, by simp only [cellVisible, hcolumn, hcount, decide_true, Bool.true_and, Config.visible]⟩

/-- Row 1 begins at position 40 (R31). -/
theorem cell_row1 {p : Nat} (h : 40 ≤ p ∧ p < 80) :
    cellRow p = 1 ∧ cellColumn p = p - 40 ∧ cellVisible p = decide (p - 40 < 16) := by
  have hrow : ¬ p < 40 := Nat.not_lt.2 h.1
  have hcolumn : cellColumn p = p - 40 := if_neg hrow
  have hcount : p < cellCount := h.2
  exact ⟨if_neg hrow, hcolumn, by
    simp only [cellVisible, hcolumn, hcount, decide_true, Bool.true_and, Config.visible]⟩

/-- The cell of character `k` of a `SET_TEXT` is column `k` of row 0 or column `k - 16` of row 1, where it is seen
(R31, R135). -/
theorem setText_cell_place {k : Nat} (h : k < 32) :
    cellRow (if k < 16 then k else k + 24) = (if k < 16 then 0 else 1) ∧
      cellColumn (if k < 16 then k else k + 24) = (if k < 16 then k else k - 16) ∧
      cellVisible (if k < 16 then k else k + 24) = true := by
  split_ifs with hk
  · obtain ⟨hrow, hcolumn, hvisible⟩ := cell_row0 (p := k) (by omega)
    exact ⟨hrow, hcolumn, hvisible.trans (decide_eq_true hk)⟩
  · obtain ⟨hrow, hcolumn, hvisible⟩ := cell_row1 (p := k + 24) (by omega)
    exact ⟨hrow, hcolumn.trans (by omega), hvisible.trans (decide_eq_true (by omega))⟩

/-- Settles O34: the cells are the bytes sent since the clear, so each clause is a fact about `setTextBytes` or about
the map of the cells. -/
theorem setTextPlacesItsCharacters : Obligations.SetTextPlacesItsCharacters := by
  intro s text hs hl ha hq hd htm
  obtain ⟨t, ht, -, -, -, -, -, -, hcells⟩ := setText_ends hs hl ha hq
  have hread : ∀ p, t.readCell p = (setTextBytes text)[p]? := fun p => by
    rw [State.readCell, hcells hd htm, mapGet_cells_setText hl]
  refine ⟨t, ht, fun k hk => ?_, fun p h16 h39 => ?_⟩
  · exact ⟨(hread _).trans (setTextBytes_character hk), setText_cell_place (Nat.lt_of_lt_of_le hk hl)⟩
  · obtain ⟨-, -, hvisible⟩ := cell_row0 (Nat.lt_succ_of_le h39)
    exact ⟨hvisible.trans (decide_eq_false (Nat.not_lt.2 h16)),
      (hread p).trans (setTextBytes_hidden text ⟨h16, h39⟩)⟩

/-- Settles O40: inside the range from the entry position to the end the cells are the bytes sent, outside it they are
as they were. -/
theorem appendPlacesItsCharacters : Obligations.AppendPlacesItsCharacters := by
  intro s text hs hne hc ha hq hd htm
  obtain ⟨t, ht, hcursor, -, -, -, -, -, hcells⟩ := append_ends hs hne hc ha hq
  have hread : ∀ p, t.readCell p = if s.cursorPosition.toNat ≤ p ∧ p < t.cursorPosition.toNat then
      (appendBytes s.cursorPosition.toNat text)[p - s.cursorPosition.toNat]? else s.readCell p := fun p => by
    rw [State.readCell, hcells hd htm, mapGet_cells_append hc, hcursor]
    rfl
  refine ⟨t, ht, fun k hk => ?_, fun hrow hskip p h16 h39 => ?_, fun p hp => ?_⟩
  · rw [hread, hcursor, if_pos (appendCell_within hk)]
    exact appendBytes_character hk
  · have hend : t.cursorPosition.toNat = s.cursorPosition.toNat + text.length + 24 :=
      hcursor.trans (if_pos ⟨hrow, hskip⟩)
    rw [hread, if_pos (by omega)]
    exact appendBytes_hidden ⟨hrow, hskip⟩ ⟨h16, h39⟩
  · rw [hread, if_neg (by omega)]

end Sys2Proof.Proofs

namespace Sys2Proof.Proofs
open Sys2Proof.Machine

/-! ## Lines stay claimed (R164) -/

/-- A line that is claimed stays so under every act of an operation but the release. -/
theorem keptByWrites_claimed (l : LineId) : KeptByWrites fun s => s.levelOf l ≠ .unclaimed where
  record _ _ h := h
  apply _ _ hc h := applyCall_claimed h hc
  fault _ _ hc h := faultCall_claimed h hc
  faulted _ h := h
  indeterminate _ h := h
  cursor _ _ h := h
  ends _ _ h := h
  lifecycle _ _ h := h
  bind _ _ _ _ h := h
  display _ _ h := h
  cursorFlag _ _ h := h
  blink _ _ h := h

/-- Settles O48: the release is the one act that unclaims a line, and it is `DESTRUCT`'s alone. -/
theorem claimedLinesStayClaimed : Obligations.ClaimedLinesStayClaimed :=
  fun _ _ _ l hi h hl => exec_all_but_destruct (keptByWrites_claimed l) hi hl h

/-! ## What the checks refuse -/

theorem refusalOf_construct_wrongCount {s : State} {d : List LineId} (rs e : LineId)
    (h : s.lifecycle = .unbound ∨ s.lifecycle = .released) (hd : d.length ≠ 8) :
    refusalOf (.construct rs e d) s = some .validationError := by
  have hcheck : checkConstruct d s = .error .validationError := by
    rw [checkConstruct, if_neg (by rcases h with h | h <;> simp [h]), dataLinesOf_error hd]
  simp only [refusalOf, hcheck]

theorem refusalOf_construct_bound {s : State} (rs e : LineId) (d : List LineId) (hu : s.lifecycle ≠ .unbound)
    (hr : s.lifecycle ≠ .released) : refusalOf (.construct rs e d) s = some .lifecycleFault := by
  have hcheck : checkConstruct d s = .error .lifecycleFault := if_pos ⟨hu, hr⟩
  simp only [refusalOf, hcheck]

/-- Outside READY the lifecycle check comes before every other (R187, R190). -/
theorem refusalOf_sending_not_ready {i : Instr} (hi : Instr.isSending i) {s : State} (h : s.lifecycle ≠ .ready) :
    refusalOf i s = some .lifecycleFault := by
  obtain ⟨hi, hc, hd⟩ := hi
  have hcheck := checkReady_error h
  cases i with
  | iClear | iFunc | iDisp _ _ _ | iEntry | iHome | dChar _ | dNull => cases hi
  | construct rs e d => exact absurd rfl (hc rs e d)
  | destruct => exact absurd rfl hd
  | setText text => simp only [refusalOf, checkSetText, if_pos h]
  | append text => simp only [refusalOf, checkAppend, if_pos h]
  | _ => simp only [refusalOf, hcheck]

/-- An idle block answers a `CONSTRUCT` that its checks refuse with the status, and changes nothing else (R191). -/
theorem construct_refused {rs e : LineId} {d : List LineId} {s : State} (hs : s.seq = .idle) {er : Status}
    (h : refusalOf (.construct rs e d) s = some er) : exec (.construct rs e d) s = .next (s.setReturned er) := by
  rcases construct_cases rs e d hs with ⟨er', her', -, hx⟩ | ⟨v, hnone, -⟩
  · cases h.symm.trans her'
    exact hx
  · rw [hnone] at h
    cases h

/-- Settles O28: past the lifecycle check the length of the list is the only test (R163). -/
theorem wrongLineCountIsRefused : Obligations.WrongLineCountIsRefused :=
  fun _ rs e _ hs hlife hd => construct_refused hs (refusalOf_construct_wrongCount rs e hlife hd)

/-- A FAULTED block refuses everything but `DESTRUCT` (R164, R187). -/
theorem exec_faulted {i : Instr} (hi : i.isEmitted = false) (hd : i ≠ .destruct) {s : State} (hs : s.seq = .idle)
    (hf : s.lifecycle = .faulted) : exec i s = .next (s.setReturned .lifecycleFault) := by
  by_cases hc : ∃ rs e d, i = .construct rs e d
  · obtain ⟨rs, e, d, rfl⟩ := hc
    exact construct_refused hs (refusalOf_construct_bound rs e d (by simp [hf]) (by simp [hf]))
  · have hsend : Instr.isSending i := ⟨hi, fun rs e d h => hc ⟨rs, e, d, h⟩, hd⟩
    exact exec_refused hsend hs (refusalOf_sending_not_ready hsend (by simp [hf]))

/-! ## DESTRUCT -/

/-- The block after `DESTRUCT`'s `Rel()`, whose answer makes no difference (R165). -/
def afterRelease (s : State) : State := (applyCall .rel (s.recordCall .rel)).setLifecycle .released

theorem exec_destruct_eq {s : State} (hs : s.seq = .idle) : exec .destruct s = .next ((afterRelease s).endWith .ok) := by
  rw [exec_destruct_idle hs, destructOp, emit_eq]
  split <;> rfl

/-- `Rel()` itself latches nothing (U6). -/
theorem applyCall_rel_latched (s : State) : (applyCall .rel s).latched = s.latched := faultCall_latched .rel s

/-- With E not high `Rel()` is no fall of E (U6). -/
theorem applyCall_rel_of_not_high {s : State} (h : s.levelOf s.eLine ≠ .high) : applyCall .rel s = s.setLevels [] := by
  rw [applyCall, if_neg h]

/-- The release touches the record of calls, the lifecycle, the lines and what the controller is known to hold. -/
theorem afterRelease_frame (s : State) :
    SameLines s (afterRelease s) ∧ SameFlags s (afterRelease s) ∧ SameInputs s (afterRelease s) ∧
      (afterRelease s).cursorPosition = s.cursorPosition ∧ (afterRelease s).events = s.events ++ [.rel] ∧
      (afterRelease s).calls = s.calls + 1 := by
  obtain ⟨hlines, hflags, hcursor, -, -, hevents, hcalls, -, hinputs⟩ :=
    rest_fields (applyCall_rest .rel (s.recordCall .rel))
  exact ⟨hlines, hflags, hinputs, hcursor, hevents, hcalls⟩

theorem afterRelease_seen {s : State} (h : s.levelOf s.eLine ≠ .high) :
    (afterRelease s).stray = s.stray ∧ (afterRelease s).cells = s.cells := by
  rw [afterRelease, applyCall_rel_of_not_high (s := s.recordCall .rel) h]
  exact ⟨rfl, rfl⟩

/-- Settles O29: the release acts on the lines and, if it finds E high, on what the controller is known to hold. -/
theorem destructAlwaysCompletes : Obligations.DestructAlwaysCompletes := by
  intro s hs
  obtain ⟨hlines, hflags, hinputs, hcursor, hevents, hcalls⟩ := afterRelease_frame s
  refine ⟨_, exec_destruct_eq hs, rfl, rfl, rfl, hevents, hcalls, fun l => rfl, hlines, hflags, hinputs,
    hcursor, applyCall_rel_latched _, fun hE => ?_⟩
  obtain ⟨hstray, hcells⟩ := afterRelease_seen hE
  exact ⟨hstray, fun p => congrArg (mapGet · p) hcells⟩

end Sys2Proof.Proofs

namespace Sys2Proof.Proofs
open Sys2Proof.Machine

/-! ## The line set-up (R162) -/

/-- The two calls of line `l` in the set-up (R162). -/
def claimCalls (l : LineId) : List BackendCall := [.cfg l, .write l false]

theorem setupCalls_eq (s : State) : setupCalls s = s.lines.flatMap claimCalls := rfl

theorem length_claimCalls (ls : List LineId) : (ls.flatMap claimCalls).length = 2 * ls.length := by
  simp [List.length_flatMap, claimCalls, Nat.mul_comm]

theorem length_lines (s : State) : s.lines.length = 10 := by
  rw [lines_eq]
  rfl

/-- The set-up, cut at the calls of line `j`. -/
theorem setupCalls_split {s : State} {j : Nat} {l : LineId} (h : s.lines[j]? = some l) :
    ∃ as bs, s.lines = as ++ l :: bs ∧ as.length = j ∧
      setupCalls s = as.flatMap claimCalls ++ (claimCalls l ++ bs.flatMap claimCalls) := by
  obtain ⟨hj, rfl⟩ := List.getElem?_eq_some_iff.1 h
  have hsplit : s.lines = s.lines.take j ++ s.lines[j] :: s.lines.drop (j + 1) := by
    rw [← List.drop_eq_getElem_cons hj, List.take_append_drop]
  refine ⟨s.lines.take j, s.lines.drop (j + 1), hsplit, List.length_take_of_le hj.le, ?_⟩
  rw [setupCalls_eq, ← List.flatMap_cons, ← List.flatMap_append, ← hsplit]

/-- A line whose claim is among the calls made is claimed after them (R164). -/
theorem applyAll_claims {l : LineId} {cs : List BackendCall} (hrel : .rel ∉ cs) {s : State}
    (h : .cfg l ∈ cs ∨ s.levelOf l ≠ .unclaimed) : (applyAll cs s).levelOf l ≠ .unclaimed := by
  induction cs generalizing s with
  | nil => exact h.resolve_left (by simp)
  | cons c cs ih =>
    rw [List.mem_cons, not_or] at hrel
    refine ih hrel.2 ?_
    rcases h with h | h
    · rcases List.mem_cons.1 h with rfl | h
      · exact .inr (by simp)
      · exact .inl h
    · exact .inr (applyCall_claimed (s := s.recordCall c) h (Ne.symm hrel.1))

/-- `CONSTRUCT` past its checks and its first writes (R161). -/
def constructBody (u : State) : Run :=
  (emitAll (setupCalls u) u).bind fun u => (clearSeq u).bind fun u => .going (u.setLifecycle .ready)

/-- From UNBOUND or RELEASED, eight lines pass the checks (R161). -/
theorem exec_construct {rs e : LineId} {d : Vector LineId 8} {s : State} (hs : s.seq = .idle)
    (h : s.lifecycle = .unbound ∨ s.lifecycle = .released) :
    exec (.construct rs e d.toList) s = finish (constructBody (constructed rs e d s)) := by
  simp only [exec, execConstruct, hostOp_idle hs, constructOp, afterChecks_ok (checkConstruct_ok h)]
  rfl

/-- The clear sequence finds the cursor at 0 already: `CONSTRUCT` wrote it before the set-up (R161). -/
theorem clearSeq_sends_of_cursor {s : State} (h : s.cursorPosition = 0#6) :
    (clearSeq s).Sends s (clearWords s.dcb) := by
  have hs : s.setCursorPosition 0#6 = s := congrArg s.setCursorPosition h.symm
  have hsends := clearSeq_sends s
  rwa [hs] at hsends

/-- The block after a set-up in which every call is answered *done*. -/
def afterSetup (u : State) : State := applyAll (setupCalls u) u

theorem afterSetup_fields (u : State) :
    SameLines u (afterSetup u) ∧ SameFlags u (afterSetup u) ∧ (afterSetup u).cursorPosition = u.cursorPosition ∧
      (afterSetup u).events = u.events ++ setupCalls u ∧ (afterSetup u).calls = u.calls + 20 ∧
      SameInputs u (afterSetup u) := by
  obtain ⟨hlines, hflags, hcursor, -, -, hevents, hcalls, -, hinputs⟩ := applyAll_fields (setupCalls u) u
  exact ⟨hlines, hflags, hcursor, hevents, hcalls.trans (by rw [length_setupCalls]), hinputs⟩

/-- The clear sequence of a `CONSTRUCT`, from the set-up on. -/
theorem clearSeq_afterSetup_sends {u : State} (h : u.cursorPosition = 0#6) :
    (clearSeq (afterSetup u)).Sends (afterSetup u) (clearWords u.dcb) := by
  obtain ⟨-, hflags, hcursor, -⟩ := afterSetup_fields u
  rw [← dcb_congr hflags]
  exact clearSeq_sends_of_cursor (hcursor.trans h)

theorem emitAll_setup {u : State} (hq : u.quietFor 20) : emitAll (setupCalls u) u = .going (afterSetup u) :=
  (emitAll_going_iff _ _ _).2 ⟨by rwa [length_setupCalls], rfl⟩

/-! ## CONSTRUCT without a fault -/

theorem constructBody_completes {u : State} (hcur : u.cursorPosition = 0#6) (hq : u.quietFor 125) :
    ∃ w, constructBody u = .going (w.setLifecycle .ready) ∧ SentWords (afterSetup u) w (clearWords u.dcb) := by
  obtain ⟨-, -, -, -, hcalls, -, hfault, -⟩ := afterSetup_fields u
  obtain ⟨w, hw, hsent⟩ := (clearSeq_afterSetup_sends hcur).ok (quietFor_later (a := 20) hq hcalls hfault)
  refine ⟨w, ?_, hsent⟩
  simp only [constructBody, emitAll_setup (quietFor_add (b := 105) hq), Run.bind, hw]

/-- The clear sequence of a `CONSTRUCT` leaves every cell unknown (U9). -/
theorem cells_after_construct {rs e : LineId} {d : Vector LineId 8} {s w : State}
    (h : SentWords (afterSetup (constructed rs e d s)) w (clearWords 0x0C#8)) (hd : w.linesDistinct)
    (htm : w.timingMet) : w.cells = [] := by
  obtain ⟨-, -, hlines, hinputs, -⟩ := h.transmitted
  obtain ⟨-, -, hcursor, -⟩ := afterSetup_fields (constructed rs e d s)
  rw [h.cells (by rw [hcursor]; exact Nat.zero_le 63) ((linesDistinct_congr hlines).1 hd)
    ((timingMet_congr hinputs).1 htm)]
  exact cellsAfterWords_clearWords true false false _ _

/-- Settles O26: the set-up drives the ten lines low and shows the controller nothing, then the five words are sent
whole; none of them is data, and the first clears the cells, which the other four do not write. -/
theorem constructCompletes : Obligations.ConstructCompletes := by
  intro s rs e d hs hlife hq
  obtain ⟨w, hw, hsent⟩ := constructBody_completes (u := constructed rs e d s) rfl hq
  obtain ⟨hlines, hflags, hcursor, hevents, hcalls, hinputs⟩ := afterSetup_fields (constructed rs e d s)
  obtain ⟨hlatched, hstray, -⟩ := setup_seen (constructed rs e d s)
  obtain ⟨wevents, wcalls, wlines, winputs, wother, we, wseen⟩ := hsent.transmitted
  obtain ⟨hrs, he, hd⟩ := sameLines_trans hlines wlines
  obtain ⟨hon, hc, hb⟩ := sameFlags_trans hflags hsent.flags
  have ⟨_, heLine, _⟩ := hlines
  have ⟨_, _, hdelay, _⟩ := winputs
  have hwords := wordCalls_congr wlines hdelay (clearWords 0x0C#8)
  refine ⟨(w.setLifecycle .ready).endWith .ok, by rw [exec_construct hs hlife, hw]; rfl, hrs, he, hd, hon, hc, hb,
    (hsent.instrCursor rfl).trans hcursor, ⟨rfl, rfl⟩, rfl, sameInputs_trans hinputs winputs, ?_, ?_, ?_,
    fun l hl => ?_, fun hdist htm => ?_⟩
  · exact wcalls.trans (by rw [hcalls]; rfl)
  · exact wevents.trans (by rw [hevents]; exact congrArg _ hwords.symm)
  · exact (congrArg w.levelOf heLine).symm.trans (we nofun)
  · rw [levelOf_endWith, levelOf_setLifecycle, wother l (.inr (by rw [lines_congr hlines]; exact hl))]
    exact (levelOf_setup _ l).trans (if_neg hl)
  · obtain ⟨wlatched, wstray, wshows⟩ := wseen ((linesDistinct_congr wlines).1 hdist) ((timingMet_congr winputs).1 htm)
    exact ⟨wlatched.trans (congrArg (· ++ _) hlatched), wstray.trans hstray, wshows _ rfl,
      fun p => congrArg (mapGet · p) (cells_after_construct hsent hdist htm)⟩

/-- Settles O30: the release leaves the block RELEASED and idle, whatever it was, so `CONSTRUCT` is accepted. -/
theorem destructThenConstructStartsAfresh : Obligations.DestructThenConstructStartsAfresh := by
  intro s rs e d hs hq
  obtain ⟨t, ht, -, hlife, hidle, -, hcalls, -, -, -, ⟨-, hfault, -⟩, -⟩ := destructAlwaysCompletes s hs
  have hq' : t.quietFor 125 := fun n hn => by
    rw [hcalls]
    exact hq n (hfault ▸ hn)
  obtain ⟨u, hu, hrs, he, hd, hon, hc, hb, hcursor, hready, hret, -⟩ :=
    constructCompletes t rs e d hidle (.inr hlife) hq'
  exact ⟨t, u, ht, hu, hready, hret, hrs, he, hd, hcursor, hon, hc, hb⟩

/-! ## CONSTRUCT with a fault (R164) -/

/-- `w` is `u` after the body of a `CONSTRUCT` was cut short by the *fault* answer to its call `n` (R164, R186). -/
structure ConstructCut (u w : State) (n : Nat) : Prop where
  lifecycle : w.lifecycle = .faulted
  calls : w.calls = u.calls + n
  lines : SameLines u w
  flags : SameFlags u w
  cursor : w.cursorPosition = u.cursorPosition
  claimed : ∀ j l, u.lines[j]? = some l → 2 * j + 1 < n → w.levelOf l ≠ .unclaimed
  untouched : u.lines.Nodup → ∀ j l, u.lines[j]? = some l → n < 2 * j + 1 → w.levelOf l = u.levelOf l

/-- The calls of the other lines leave a line alone. -/
theorem sparesLine_claimCalls {l : LineId} {ls : List LineId} (h : l ∉ ls) :
    ∀ c ∈ ls.flatMap claimCalls, SparesLine l c := by
  intro c hc
  obtain ⟨j, hj, hcj⟩ := List.mem_flatMap.1 hc
  have hne : l ≠ j := fun heq => h (heq ▸ hj)
  simp only [claimCalls, List.mem_cons, List.not_mem_nil, or_false] at hcj
  rcases hcj with rfl | rfl <;> exact hne

/-- Cut inside the set-up: the lines before the faulting call have been claimed, those after it not been touched. -/
theorem constructCut_of_setup {u : State} {pre post : List BackendCall} {c : BackendCall}
    (h : setupCalls u = pre ++ c :: post) : ConstructCut u (cutAt pre c u) (pre.length + 1) := by
  obtain ⟨hlines, hflags, hcursor, hlife, -, -, hcalls, -⟩ := cutAt_fields pre c u
  have hrel : .rel ∉ pre ++ c :: post := h ▸ rel_notMem_setupCalls u
  have hc : c ≠ .rel := fun hr => hrel (by simp [hr])
  refine ⟨hlife, hcalls, hlines, hflags, hcursor, fun j l hj hn => ?_, fun hnodup j l hj hn => ?_⟩
  · obtain ⟨as, bs, -, rfl, hsplit⟩ := setupCalls_split hj
    have hpre : as.flatMap claimCalls ++ [.cfg l] <+: pre :=
      List.prefix_of_prefix_length_le (l₃ := setupCalls u)
        ⟨.write l false :: bs.flatMap claimCalls, by simp [hsplit, claimCalls]⟩ ⟨c :: post, h.symm⟩
        (by simp only [List.length_append, length_claimCalls, List.length_singleton]; omega)
    have hclaim : (applyAll pre u).levelOf l ≠ .unclaimed :=
      applyAll_claims (fun hr => hrel (List.mem_append_left _ hr)) (.inl (hpre.subset (by simp)))
    exact faultCall_claimed (s := (applyAll pre u).recordCall c) hclaim hc
  · obtain ⟨as, bs, hls, rfl, hsplit⟩ := setupCalls_split hj
    have hpre : pre ++ [c] <+: as.flatMap claimCalls :=
      List.prefix_of_prefix_length_le (l₃ := setupCalls u) ⟨post, by simp [h]⟩
        ⟨claimCalls l ++ bs.flatMap claimCalls, hsplit.symm⟩
        (by simp only [List.length_append, length_claimCalls, List.length_singleton]; omega)
    obtain ⟨-, -, hapart⟩ := List.nodup_append.1 (hls ▸ hnodup)
    have hl : l ∉ as := fun hm => hapart l hm l List.mem_cons_self rfl
    have hspare : ∀ d ∈ pre ++ [c], SparesLine l d := fun d hd => sparesLine_claimCalls hl d (hpre.subset hd)
    rw [levelOf_cutAt_spared (hspare c (by simp))]
    exact levelOf_applyAll_spared (fun d hd => hspare d (List.mem_append_left _ hd)) u

/-- Cut inside the clear sequence: all ten lines have been claimed. -/
theorem constructCut_of_clear {u w : State} {e : Status} {m : Nat} (hclear : clearSeq (afterSetup u) = .raised e w)
    (hcut : CutWords (afterSetup u) w (clearWords u.dcb) m) (hcur : u.cursorPosition = 0#6) :
    ConstructCut u w (20 + m) := by
  obtain ⟨hlines, hflags, hcursor, -, hcalls, -⟩ := afterSetup_fields u
  have hnodata : dataCount ((clearWords u.dcb).take ((m - 1) / 21)) = 0 :=
    Nat.le_zero.1 ((List.take_sublist _ _).countP_le)
  have hcount := hcut.cursor (by rw [hcursor, hcur]; exact Nat.zero_le 63)
  rw [hnodata] at hcount
  refine ⟨hcut.lifecycle, by rw [hcut.calls, hcalls, Nat.add_assoc], sameLines_trans hlines hcut.lines,
    sameFlags_trans hflags hcut.flags, (BitVec.eq_of_toNat_eq hcount).trans hcursor, fun j l hj _ => ?_,
    fun _ j l hj hn => ?_⟩
  · have hlow : (afterSetup u).levelOf l = .low :=
      (levelOf_setup u l).trans (if_pos (List.mem_of_getElem? hj))
    have hkept := clearSeq_all (keptByWrites_claimed l).toKeptByActs (s := afterSetup u) (by rw [hlow]; nofun)
    rwa [hclear] at hkept
  · have hpos := hcut.pos
    have hlt : j < u.lines.length := (List.getElem?_eq_some_iff.1 hj).1
    rw [length_lines] at hlt
    omega

/-- A first fault at call `n` of the 125 cuts the body there. -/
theorem constructBody_fault {u : State} {n : Nat} (hcur : u.cursorPosition = 0#6) (h1 : 1 ≤ n) (hn : n ≤ 125)
    (hq : u.quietFor (n - 1)) (hf : u.calls + n ∈ u.faultAt) :
    ∃ w, constructBody u = .raised .hardwareFault w ∧ ConstructCut u w n := by
  by_cases h20 : n ≤ 20
  · obtain ⟨m, rfl⟩ := Nat.exists_eq_add_of_le' h1
    have hnot : ¬ u.quietFor (setupCalls u).length := not_quietFor_of_fault hf h1 (by rwa [length_setupCalls])
    obtain ⟨w, hw, pre, c, post, hsplit, hpre, hfault, rfl⟩ := emitAll_not_quiet hnot
    obtain rfl : pre.length = m := firstFault_unique hpre hfault hq hf
    exact ⟨_, by simp only [constructBody, hw, Run.bind], constructCut_of_setup hsplit⟩
  · obtain ⟨m, rfl⟩ : ∃ m, n = 20 + (m + 1) := ⟨n - 21, by omega⟩
    obtain ⟨-, -, -, -, hcalls, -, hfault, -⟩ := afterSetup_fields u
    have hq' : (afterSetup u).quietFor m := quietFor_later (a := 20) hq hcalls hfault
    have hf' : (afterSetup u).calls + (m + 1) ∈ (afterSetup u).faultAt := by
      rwa [hcalls, hfault, Nat.add_assoc]
    obtain ⟨w, k, hw, hcut⟩ := (clearSeq_afterSetup_sends hcur).cut
      (not_quietFor_of_fault hf' (Nat.succ_pos m) (show m + 1 ≤ 105 by omega))
    obtain ⟨j, rfl⟩ := Nat.exists_eq_add_of_le' hcut.pos
    obtain rfl : j = m := firstFault_unique hcut.quiet hcut.fault hq' hf'
    refine ⟨w, ?_, constructCut_of_clear hw hcut hcur⟩
    simp only [constructBody, emitAll_setup (quietFor_add (b := j) hq), Run.bind, hw]

/-- Settles O27: the fault cuts the set-up or the clear sequence, and leaves the block FAULTED and idle. -/
theorem failedConstructKeepsItsLines : Obligations.FailedConstructKeepsItsLines := by
  intro s rs e d n hs hlife h1 hn hq hf
  obtain ⟨w, hw, hcut⟩ := constructBody_fault (u := constructed rs e d s) rfl h1 hn hq hf
  obtain ⟨hrs, he, hd⟩ := hcut.lines
  obtain ⟨hon, hc, hb⟩ := hcut.flags
  obtain ⟨u, hu, hret, hrel, -⟩ := destructAlwaysCompletes (w.endWith .hardwareFault) rfl
  exact ⟨w.endWith .hardwareFault, by rw [exec_construct hs hlife, hw]; rfl, rfl, hcut.lifecycle, rfl, hcut.calls,
    hcut.claimed, hcut.untouched, hrs, he, hd, hon, hc, hb, hcut.cursor,
    fun i hi hne => exec_faulted hi hne rfl hcut.lifecycle, u, hu, hret, hrel⟩

end Sys2Proof.Proofs

namespace Sys2Proof.Proofs
open Sys2Proof.Machine

/-! ## Every step answers -/

/-- However a host operation's run ends, the outcome is a next state (R180, R191). -/
theorem finish_answers (r : Run) : ∃ t, finish r = .next t := by
  cases r with
  | going t => exact ⟨_, rfl⟩
  | raised e t => exact ⟨_, rfl⟩

/-- The same of one emitted word (R89). -/
theorem finishWord_answers (r : Run) : ∃ t, finishWord r = .next t := by
  cases r with
  | going t => exact ⟨_, rfl⟩
  | raised e t => exact ⟨_, rfl⟩

/-- Every host operation is a run under the one test that no other is in progress (R197). -/
theorem exec_eq_hostOp {i : Instr} (hi : i.isEmitted = false) : ∃ k, exec i = hostOp k := by
  cases i with
  | iClear | iFunc | iDisp _ _ _ | iEntry | iHome | dChar _ | dNull => cases hi
  | _ => exact ⟨_, rfl⟩

theorem exec_answers_of_idle {i : Instr} (hi : i.isEmitted = false) {s : State} (hs : s.seq = .idle) :
    ∃ t, exec i s = .next t := by
  obtain ⟨k, hk⟩ := exec_eq_hostOp hi
  rw [hk, hostOp_idle hs]
  exact finish_answers (k s)

/-- An emitted word answers in every state: it has no check (R190). -/
theorem exec_answers_of_isEmitted {i : Instr} (hi : i.isEmitted = true) (s : State) : ∃ t, exec i s = .next t := by
  obtain ⟨v, rs, hw⟩ := wordParts_of_isEmitted hi
  obtain ⟨r, hr, -⟩ := emitted_sends hw s
  rw [hr]
  exact finishWord_answers r

/-- The multiplexer selects emitted words only (R62). -/
theorem isEmitted_of_selectWord {p : SeqPos} {s : State} {i : Instr} (h : selectWord p s = some i) :
    i.isEmitted = true := by
  unfold selectWord at h
  split at h
  case h_1 | h_2 | h_9 => cases h
  case h_3 | h_4 | h_5 | h_6 | h_7 | h_8 =>
    cases h
    rfl
  case h_10 =>
    split at h
    · cases h
      rfl
    · split at h
      · cases h
      · split at h <;> cases h <;> rfl

theorem resumeWord_answers (k : Nat) (i : Instr) (s : State) : ∃ t, resumeWord k i s = .next t := by
  unfold resumeWord
  split
  · exact finishWord_answers _
  · exact ⟨_, rfl⟩

theorem resumeStage_answers (p : SeqPos) (s : State) : ∃ t, resumeStage p s = .next t := by
  unfold resumeStage
  split
  case h_1 k _ =>
    unfold resumeSetup
    split
    · exact ⟨_, rfl⟩
    · exact ⟨_, rfl⟩
  case h_2 => exact finish_answers _
  case h_3 | h_4 | h_5 => exact ⟨_, rfl⟩

theorem afterWord_answers (op : OpName) (q : Option SeqPos) (t : State) : ∃ u, afterWord op q (.next t) = .next u := by
  unfold afterWord
  dsimp only
  split_ifs
  · exact ⟨_, rfl⟩
  · cases q with
    | some p => exact ⟨_, rfl⟩
    | none => exact ⟨_, rfl⟩

/-- Settles O9: an idle sequencer looks for the host's next call and finds none. -/
theorem idleBlockHoldsItsState : Obligations.IdleBlockHoldsItsState := by
  intro s hidle hhost
  simp only [step, hidle, hhost]

/-- Settles O10: between operations the step is a host operation of an idle block or the answer to a reserved word;
inside one it is an emitted word, which has no check to fail, or a stage without a word. -/
theorem everyStepAnswersNext : Obligations.EveryStepAnswersNext := by
  intro s
  unfold step
  split
  case h_1 hidle =>
    split
    · exact ⟨s, rfl⟩
    next c rest =>
      split
      next i hdecode => exact exec_answers_of_idle (not_isEmitted_of_decodeCall hdecode) hidle
      next => exact finish_answers _
  case h_2 p _ =>
    split
    next => exact resumeStage_answers p s
    next i hsel =>
      have hword : ∃ t, (if p.phase = 0 then exec i s else resumeWord p.phase i s) = .next t := by
        split_ifs
        · exact exec_answers_of_isEmitted (isEmitted_of_selectWord hsel) s
        · exact resumeWord_answers p.phase i s
      obtain ⟨t, ht⟩ := hword
      rw [ht]
      exact afterWord_answers p.op (nextPos p s) t

/-- Settles O50: the test of `hostOp` alone decides, and what passes it ends the operation. -/
theorem overlappingOperationIsRefused : Obligations.OverlappingOperationIsRefused := by
  intro s i hi
  obtain ⟨k, hk⟩ := exec_eq_hostOp hi
  refine ⟨fun p hbusy => ?_, fun hidle => ?_⟩
  · rw [hk, hostOp, if_neg (by rw [hbusy]; nofun)]
  · obtain ⟨t, ht⟩ := exec_answers_of_idle hi hidle
    exact ⟨t, ht, idle_after_exec hi ht⟩

end Sys2Proof.Proofs

namespace Sys2Proof.Proofs
open Sys2Proof.Machine

/-! ## Where a fault cuts an operation -/

/-- `t` is `s` after the calls `cs`, begun at `s`, were cut short by the *fault* answer to call `n` of them, the first
one there is (R186). -/
structure CutCalls (s t : State) (cs : List BackendCall) (n : Nat) : Prop where
  pos : 1 ≤ n
  bound : n ≤ cs.length
  quiet : s.quietFor (n - 1)
  fault : s.calls + n ∈ s.faultAt
  calls : t.calls = s.calls + n
  events : t.events = s.events ++ cs.take n
  lines : SameLines s t
  flags : SameFlags s t
  inputs : SameInputs s t
  lifecycle : t.lifecycle = .faulted

theorem cutCalls_of_cutWords {s t : State} {ws : List Latch} {n : Nat} (h : CutWords s t ws n) :
    CutCalls s t (wordCalls s ws) n :=
  ⟨h.pos, by rw [length_wordCalls]; exact h.bound, h.quiet, h.fault, h.calls, h.events, h.lines, h.flags, h.inputs,
    h.lifecycle⟩

theorem cutCalls_cutAt {s : State} {pre post : List BackendCall} {c : BackendCall} (hq : s.quietFor pre.length)
    (hf : s.calls + pre.length + 1 ∈ s.faultAt) : CutCalls s (cutAt pre c s) (pre ++ c :: post) (pre.length + 1) := by
  obtain ⟨hlines, hflags, -, hlife, -, hevents, hcalls, -, hinputs⟩ := cutAt_fields pre c s
  refine ⟨Nat.succ_pos _, by simp, hq, hf, hcalls, ?_, hlines, hflags, hinputs, hlife⟩
  rw [hevents, List.take_length_add_append]
  rfl

/-- A cut stays where it is if more calls were to come. -/
theorem CutCalls.append {s t : State} {cs : List BackendCall} {n : Nat} (h : CutCalls s t cs n)
    (ds : List BackendCall) : CutCalls s t (cs ++ ds) n :=
  { h with
    bound := h.bound.trans (by simp)
    events := by rw [h.events, List.take_append_of_le_length h.bound] }

/-- Calls that were all answered *done*, and then a cut. -/
theorem CutCalls.after {s t : State} {cs ds : List BackendCall} {n : Nat} (hq : s.quietFor cs.length)
    (h : CutCalls (applyAll cs s) t ds n) : CutCalls s t (cs ++ ds) (cs.length + n) := by
  obtain ⟨hlines, hflags, -, -, -, hevents, hcalls, -, hinputs⟩ := applyAll_fields cs s
  have hpos := h.pos
  refine ⟨by omega, by simpa using h.bound, ?_, ?_, ?_, ?_, sameLines_trans hlines h.lines,
    sameFlags_trans hflags h.flags, sameInputs_trans hinputs h.inputs, h.lifecycle⟩
  · rw [Nat.add_sub_assoc hpos]
    exact quietFor_join hq h.quiet hcalls hinputs.2.1
  · rw [← Nat.add_assoc, ← hcalls, ← hinputs.2.1]
    exact h.fault
  · rw [h.calls, hcalls, Nat.add_assoc]
  · rw [h.events, hevents, List.take_length_add_append, List.append_assoc]

/-! ## An accepted operation with a fault -/

/-- A host operation is `CONSTRUCT`, `DESTRUCT`, or one that only sends words. -/
theorem hostOperation_cases {i : Instr} (hi : i.isEmitted = false) :
    (∃ rs e d, i = .construct rs e d) ∨ i = .destruct ∨ Instr.isSending i := by
  cases i with
  | iClear | iFunc | iDisp _ _ _ | iEntry | iHome | dChar _ | dNull => cases hi
  | construct rs e d => exact .inl ⟨rs, e, d, rfl⟩
  | destruct => exact .inr (.inl rfl)
  | _ => exact .inr (.inr ⟨hi, nofun, nofun⟩)

/-- The operation's run was cut short at its call `n`, and its cursor counts the data words that had completed
(R86, R186). -/
structure OperationCut (i : Instr) (s w : State) (n : Nat) : Prop where
  outcome : exec i s = .next (w.endWith .hardwareFault)
  cut : CutCalls (firstWrites i s) w (opCalls i s) n
  cursor : w.cursorPosition.toNat = (firstWrites i s).cursorPosition.toNat + dataSentBefore i s n

/-- Operations that only send words make no call before them. -/
theorem callsBeforeWords_of_isSending {i : Instr} (hi : Instr.isSending i) (s : State) : callsBeforeWords i s = [] := by
  obtain ⟨hi, hc, hd⟩ := hi
  cases i with
  | iClear | iFunc | iDisp _ _ _ | iEntry | iHome | dChar _ | dNull => cases hi
  | construct rs e d => exact absurd rfl (hc rs e d)
  | destruct => exact absurd rfl hd
  | _ => rfl

theorem sending_cut {i : Instr} (hi : Instr.isSending i) {s : State} (hs : s.seq = .idle) (hacc : refusalOf i s = none)
    (hq : ¬ s.quietFor (callCount i s)) : ∃ w n, OperationCut i s w n := by
  obtain ⟨hcalls, -, -, -, -, -, -, -, -, hfault, -⟩ := firstWrites_frame i s
  rcases sending_cases hi hs with ⟨e, he, -⟩ | ⟨-, -, r, hr, hsends⟩
  · rw [hacc] at he
    cases he
  · obtain ⟨w, n, rfl, hcut⟩ := hsends.cut (by rwa [length_opWords hi, State.quietFor, hcalls, hfault])
    refine ⟨w, n, hr, opCalls_of_isSending hi s ▸ cutCalls_of_cutWords hcut, ?_⟩
    rw [dataSentBefore, callsBeforeWords_of_isSending hi]
    exact hcut.cursor (cursor_opWords hacc)

/-- The body of a `CONSTRUCT` that meets a fault is cut in the set-up or in the clear sequence (R164). -/
theorem constructBody_cut {u : State} (hcur : u.cursorPosition = 0#6) (hq : ¬ u.quietFor 125) :
    ∃ w n, constructBody u = .raised .hardwareFault w ∧
      CutCalls u w (setupCalls u ++ wordCalls u (clearWords u.dcb)) n ∧ w.cursorPosition = 0#6 := by
  obtain ⟨hlines, -, hcursor, -, hcalls, hinputs⟩ := afterSetup_fields u
  by_cases hsetup : u.quietFor (setupCalls u).length
  · have hclear : ¬ (afterSetup u).quietFor 105 := fun h =>
      hq (quietFor_join (a := 20) (length_setupCalls u ▸ hsetup) h hcalls hinputs.2.1)
    obtain ⟨w, n, hw, hcut⟩ := (clearSeq_afterSetup_sends hcur).cut hclear
    have hcut' := cutCalls_of_cutWords hcut
    rw [wordCalls_congr hlines hinputs.2.2.1] at hcut'
    refine ⟨w, _, ?_, hcut'.after hsetup, (constructCut_of_clear hw hcut hcur).cursor.trans hcur⟩
    simp only [constructBody, emitAll_setup (length_setupCalls u ▸ hsetup), Run.bind, hw]
  · obtain ⟨w, hw, pre, c, post, hsplit, hpre, hfault, rfl⟩ := emitAll_not_quiet hsetup
    obtain ⟨-, -, hkept, -⟩ := cutAt_fields pre c u
    refine ⟨_, pre.length + 1, by rw [constructBody, hw]; rfl, ?_, hkept.trans hcur⟩
    rw [hsplit]
    exact (cutCalls_cutAt hpre hfault).append _

/-- A `CONSTRUCT` that passes its checks has eight lines and runs its body (R161). -/
theorem construct_accepted {rs e : LineId} {d : List LineId} {s : State} (hs : s.seq = .idle)
    (hacc : refusalOf (.construct rs e d) s = none) :
    ∃ v : Vector LineId 8, d = v.toList ∧
      exec (.construct rs e d) s = finish (constructBody (constructed rs e v s)) := by
  rcases construct_cases rs e d hs with ⟨er, her, -⟩ | ⟨v, -, hd, -, hx⟩
  · rw [hacc] at her
    cases her
  · exact ⟨v, hd.symm, hx⟩

/-- The calls of a `CONSTRUCT` are those of its body. -/
theorem opCalls_construct (rs e : LineId) (v : Vector LineId 8) (s : State) :
    opCalls (.construct rs e v.toList) s =
      setupCalls (constructed rs e v s) ++
        wordCalls (constructed rs e v s) (clearWords (constructed rs e v s).dcb) := by
  simp only [opCalls, callsBeforeWords, firstWrites_construct]
  rfl

/-- No word of the clear sequence is data. -/
theorem dataCount_take_clearWords (v : Byte) (k : Nat) : dataCount ((clearWords v).take k) = 0 :=
  Nat.le_zero.1 (dataCount_clearWords v ▸ (List.take_sublist k _).countP_le)

theorem construct_cut {rs e : LineId} {d : List LineId} {s : State} (hs : s.seq = .idle)
    (hacc : refusalOf (.construct rs e d) s = none) (hq : ¬ s.quietFor 125) :
    ∃ w n, OperationCut (.construct rs e d) s w n := by
  obtain ⟨v, rfl, hx⟩ := construct_accepted hs hacc
  obtain ⟨w, n, hw, hcut, hcursor⟩ := constructBody_cut (u := constructed rs e v s) rfl hq
  have hnone : dataSentBefore (.construct rs e v.toList) s n = 0 := dataCount_take_clearWords _ _
  refine ⟨w, n, by rw [hx, hw]; rfl, ?_, ?_⟩
  · rwa [firstWrites_construct, opCalls_construct]
  · rw [hnone, hcursor, firstWrites_construct]
    rfl

/-- An accepted operation other than `DESTRUCT` is cut if one of its calls answers *fault*. -/
theorem operation_cut {i : Instr} (hi : i.isEmitted = false) (hd : i ≠ .destruct) {s : State} (hs : s.seq = .idle)
    (hacc : refusalOf i s = none) (hq : ¬ s.quietFor (callCount i s)) : ∃ w n, OperationCut i s w n := by
  rcases hostOperation_cases hi with ⟨rs, e, d, rfl⟩ | rfl | hsend
  · exact construct_cut hs hacc hq
  · exact absurd rfl hd
  · exact sending_cut hsend hs hacc hq

/-- The calls of an operation are as many as R230 counts. -/
theorem length_opCalls {i : Instr} (hi : i.isEmitted = false) (s : State) :
    (opCalls i s).length = callCount i s := by
  rcases hostOperation_cases hi with ⟨rs, e, d, rfl⟩ | rfl | hsend
  · rw [opCalls, List.length_append]
    exact congrArg₂ (· + ·) (length_setupCalls _) (length_wordCalls _ _)
  · rfl
  · rw [opCalls_of_isSending hsend, length_wordCalls, length_opWords hsend]

/-- Settles O47: the cut is one of the operation's calls as its first writes leave it, which touch neither the record of
calls nor the inputs. -/
theorem hardwareFaultEndsTheOperation : Obligations.HardwareFaultEndsTheOperation := by
  intro s i hi hd hs hacc hq
  obtain ⟨w, n, houtcome, hcut, hcursor⟩ := operation_cut hi hd hs hacc hq
  obtain ⟨hcalls, hevents, -, -, -, -, -, -, hinputs⟩ := firstWrites_frame i s
  have hfault := hcut.fault
  have hquiet := hcut.quiet
  rw [State.quietFor, hcalls, hinputs.2.1] at hquiet
  rw [hcalls, hinputs.2.1] at hfault
  exact ⟨_, n, houtcome, rfl, hcut.lifecycle, rfl, hcut.pos, length_opCalls hi s ▸ hcut.bound, hfault, hquiet,
    hcut.calls.trans (by rw [hcalls]), hcut.events.trans (by rw [hevents]), sameInputs_trans hinputs hcut.inputs,
    hcut.lines, hcut.flags, hcursor⟩

end Sys2Proof.Proofs

namespace Sys2Proof.Proofs
open Sys2Proof.Machine

/-! ## The statuses an operation ends with -/

/-- An idle block answers an operation that its checks refuse with the status, and changes nothing else (R191). -/
theorem operation_refused {i : Instr} (hi : i.isEmitted = false) {s : State} (hs : s.seq = .idle) {e : Status}
    (h : refusalOf i s = some e) : exec i s = .next (s.setReturned e) := by
  rcases hostOperation_cases hi with ⟨rs, e', d, rfl⟩ | rfl | hsend
  · exact construct_refused hs h
  · cases h
  · exact exec_refused hsend hs h

/-- Settles O43: the lifecycle check comes before every other, and its status changes nothing (R187, R190). -/
theorem lifecycleFaultChangesNothing : Obligations.LifecycleFaultChangesNothing := by
  intro s i hi hd hs
  refine ⟨fun ⟨rs, e, d, hc⟩ hlife => ?_, fun hc hlife => ?_⟩
  · subst hc
    refine operation_refused hi hs (refusalOf_construct_bound rs e d ?_ ?_) <;> rcases hlife with h | h <;> simp [h]
  · exact operation_refused hi hs (refusalOf_sending_not_ready ⟨hi, hc, hd⟩ hlife)

/-- The statuses the checks of an operation raise (R182, R183, R187). -/
def CheckStatus (i : Instr) (e : Status) : Prop :=
  (e = .validationError ∧ ((∃ rs e d, i = .construct rs e d) ∨ (∃ x, i = .setText x) ∨ ∃ x, i = .append x)) ∨
    (e = .encodingError ∧ ((∃ x, i = .setText x) ∨ ∃ x, i = .append x)) ∨
    (e = .lifecycleFault ∧ i ≠ .destruct)

theorem checkStatus_lifecycleFault {i : Instr} (hd : i ≠ .destruct) : CheckStatus i .lifecycleFault :=
  .inr (.inr ⟨rfl, hd⟩)

/-- A text operation can raise all three statuses of its checks. -/
theorem checkStatus_text {i : Instr} (hi : (∃ x, i = .setText x) ∨ ∃ x, i = .append x) {e : Status}
    (he : Precise e) : CheckStatus i e := by
  rcases he with rfl | rfl | rfl
  · exact .inl ⟨rfl, .inr hi⟩
  · exact .inr (.inl ⟨rfl, hi⟩)
  · exact checkStatus_lifecycleFault (by rcases hi with ⟨x, rfl⟩ | ⟨x, rfl⟩ <;> nofun)

/-- The status a check raises, if it does: what `refusalOf` answers for each operation that has a check. -/
def raisedBy {α : Type} : Except Status α → Option Status
  | .error e => some e
  | .ok _ => none

theorem error_of_raisedBy {α : Type} {c : Except Status α} {e : Status} (h : raisedBy c = some e) :
    c = .error e := by
  cases c <;> cases h
  rfl

theorem checkReady_status {s : State} {e : Status} (h : checkReady s = .error e) : e = .lifecycleFault := by
  rcases checkReady_cases h with ⟨hr, -⟩ | ⟨hr, -⟩ <;> cases hr
  rfl

theorem checkConstruct_status {d : List LineId} {s : State} {e : Status} (h : checkConstruct d s = .error e) :
    e = .lifecycleFault ∨ e = .validationError := by
  rcases checkConstruct_cases h with ⟨v, hr, -⟩ | ⟨hr, -⟩ | hr <;> cases hr
  · exact .inl rfl
  · exact .inr rfl

/-- The checks of an operation raise no status but those of its row. -/
theorem checkStatus_of_refusalOf {i : Instr} {s : State} {e : Status} (h : refusalOf i s = some e) :
    CheckStatus i e := by
  cases i with
  | iClear | iFunc | iDisp _ _ _ | iEntry | iHome | dChar _ | dNull | destruct => cases h
  | construct rs el d =>
    rcases checkConstruct_status (error_of_raisedBy (c := checkConstruct d s) h) with rfl | rfl
    · exact checkStatus_lifecycleFault nofun
    · exact .inl ⟨rfl, .inl ⟨rs, el, d, rfl⟩⟩
  | setText text =>
    exact checkStatus_text (.inl ⟨text, rfl⟩) (checkSetText_precise (error_of_raisedBy (c := checkSetText text s) h))
  | append text =>
    exact checkStatus_text (.inr ⟨text, rfl⟩) (checkAppend_precise (error_of_raisedBy (c := checkAppend text s) h))
  | _ =>
    obtain rfl := checkReady_status (error_of_raisedBy (c := checkReady s) h)
    exact checkStatus_lifecycleFault nofun

/-- A quiet accepted operation answers OK. -/
theorem operation_completes {i : Instr} (hi : i.isEmitted = false) {s : State} (hs : s.seq = .idle)
    (hacc : refusalOf i s = none) (hq : s.quietFor (callCount i s)) : ∃ u : State, exec i s = .next (u.endWith .ok) := by
  rcases hostOperation_cases hi with ⟨rs, e, d, rfl⟩ | rfl | hsend
  · obtain ⟨v, rfl, hx⟩ := construct_accepted hs hacc
    obtain ⟨w, hw, -⟩ := constructBody_completes (u := constructed rs e v s) rfl hq
    exact ⟨_, by rw [hx, hw]; rfl⟩
  · exact ⟨_, exec_destruct_eq hs⟩
  · obtain ⟨u, hu, -⟩ := sending_completes hsend hs hacc hq
    exact ⟨u, hu⟩

/-- `DESTRUCT` answers OK whatever the backend answers; every other accepted operation ends with OK or with
`HardwareFault` (R184). -/
theorem returned_of_accepted {i : Instr} (hi : i.isEmitted = false) {s t : State} (hacc : refusalOf i s = none)
    (h : exec i s = .next t) : t.returned = some .ok ∨ (t.returned = some .hardwareFault ∧ i ≠ .destruct) := by
  have hs := idle_of_next hi h
  by_cases hd : i = .destruct
  · subst hd
    rw [exec_destruct_eq hs] at h
    cases h
    exact .inl rfl
  by_cases hq : s.quietFor (callCount i s)
  · obtain ⟨u, hu⟩ := operation_completes hi hs hacc hq
    rw [hu] at h
    cases h
    exact .inl rfl
  · obtain ⟨w, n, hcut⟩ := operation_cut hi hd hs hacc hq
    rw [hcut.outcome] at h
    cases h
    exact .inr ⟨rfl, hd⟩

/-- Settles O44: the checks raise the statuses of their row; past them there are OK and `HardwareFault`. -/
theorem operationsEndOnlyWithTheirStatuses : Obligations.OperationsEndOnlyWithTheirStatuses := by
  intro s t i hi h
  cases href : refusalOf i s with
  | none =>
    rcases returned_of_accepted hi href h with hok | hfault
    · exact .inl hok
    · exact .inr (.inr (.inr (.inl hfault)))
  | some e =>
    rw [operation_refused hi (idle_of_next hi h) href] at h
    cases h
    rcases checkStatus_of_refusalOf href with ⟨rfl, hv⟩ | ⟨rfl, he⟩ | ⟨rfl, hl⟩
    · exact .inr (.inl ⟨rfl, hv⟩)
    · exact .inr (.inr (.inl ⟨rfl, he⟩))
    · exact .inr (.inr (.inr (.inr ⟨rfl, hl⟩)))

/-- Settles O45: the three statuses come from the checks alone, which change nothing (R191). -/
theorem preciseErrorsChangeNothing : Obligations.PreciseErrorsChangeNothing := by
  intro s t i e hi h hret hprecise
  cases href : refusalOf i s with
  | none =>
    have hends : e = .ok ∨ e = .hardwareFault := by
      rcases returned_of_accepted hi href h with hok | ⟨hfault, -⟩
      · exact .inl (Option.some.inj (hret.symm.trans hok))
      · exact .inr (Option.some.inj (hret.symm.trans hfault))
    rcases hends with rfl | rfl <;> simp at hprecise
  | some e' =>
    rw [operation_refused hi (idle_of_next hi h) href] at h
    cases h
    cases hret
    rfl

end Sys2Proof.Proofs

namespace Sys2Proof.Proofs
open Sys2Proof.Machine

/-! ## The calls of an accepted operation without a fault -/

/-- Between `s` and `t` exactly the calls `cs` were made: they are in the event trace in their order, and counted. -/
structure MadeCalls (s t : State) (cs : List BackendCall) : Prop where
  events : t.events = s.events ++ cs
  calls : t.calls = s.calls + cs.length

theorem MadeCalls.trans {s t u : State} {cs ds : List BackendCall} (h : MadeCalls s t cs) (h' : MadeCalls t u ds) :
    MadeCalls s u (cs ++ ds) :=
  ⟨by rw [h'.events, h.events, List.append_assoc], by rw [h'.calls, h.calls, List.length_append, Nat.add_assoc]⟩

/-- Words sent whole make the 21 calls of each. -/
theorem madeCalls_of_sentWords {s t : State} {ws : List Latch} (h : SentWords s t ws) :
    MadeCalls s t (wordCalls s ws) := by
  obtain ⟨hevents, hcalls, -⟩ := h.transmitted
  exact ⟨hevents, by rw [length_wordCalls, hcalls]⟩

/-- `exec` answers OK, and the calls it made are those of the operation. -/
def MakesItsCalls (i : Instr) (s : State) : Prop :=
  ∃ u, exec i s = .next (u.endWith .ok) ∧ MadeCalls s u (opCalls i s)

theorem sending_makesItsCalls {i : Instr} (hi : Instr.isSending i) {s : State} (hs : s.seq = .idle)
    (hacc : refusalOf i s = none) (hq : s.quietFor (callCount i s)) : MakesItsCalls i s := by
  obtain ⟨hcalls, hevents, -⟩ := firstWrites_frame i s
  obtain ⟨u, hu, hsent⟩ := sending_completes hi hs hacc hq
  obtain ⟨uevents, ucalls⟩ := madeCalls_of_sentWords hsent
  rw [← opCalls_of_isSending hi] at uevents ucalls
  exact ⟨u, hu, uevents.trans (by rw [hevents]), ucalls.trans (by rw [hcalls])⟩

/-- The ten lines are set up, and the words of the clear sequence follow (R161, R162). -/
theorem construct_makesItsCalls {rs e : LineId} {d : List LineId} {s : State} (hs : s.seq = .idle)
    (hacc : refusalOf (.construct rs e d) s = none) (hq : s.quietFor 125) :
    MakesItsCalls (.construct rs e d) s := by
  obtain ⟨v, rfl, hx⟩ := construct_accepted hs hacc
  obtain ⟨w, hw, hsent⟩ := constructBody_completes (u := constructed rs e v s) rfl hq
  obtain ⟨hlines, -, -, hevents, hcalls, hinputs⟩ := afterSetup_fields (constructed rs e v s)
  have hclear := madeCalls_of_sentWords hsent
  rw [wordCalls_congr hlines hinputs.2.2.1] at hclear
  have hsetup : MadeCalls (constructed rs e v s) (afterSetup (constructed rs e v s))
      (setupCalls (constructed rs e v s)) := ⟨hevents, by rw [length_setupCalls, hcalls]⟩
  obtain ⟨wevents, wcalls⟩ := hsetup.trans hclear
  rw [← opCalls_construct] at wevents wcalls
  exact ⟨w.setLifecycle .ready, by rw [hx, hw]; rfl, wevents, wcalls⟩

theorem destruct_makesItsCalls {s : State} (hs : s.seq = .idle) : MakesItsCalls .destruct s := by
  obtain ⟨-, -, -, -, hevents, hcalls⟩ := afterRelease_frame s
  exact ⟨afterRelease s, exec_destruct_eq hs, hevents, hcalls⟩

/-- An accepted operation whose calls are quiet makes all of them and answers OK. -/
theorem operation_makesItsCalls {i : Instr} (hi : i.isEmitted = false) {s : State} (hs : s.seq = .idle)
    (hacc : refusalOf i s = none) (hq : s.quietFor (callCount i s)) : MakesItsCalls i s := by
  rcases hostOperation_cases hi with ⟨rs, e, d, rfl⟩ | rfl | hsend
  · exact construct_makesItsCalls hs hacc hq
  · exact destruct_makesItsCalls hs
  · exact sending_makesItsCalls hsend hs hacc hq

/-- Settles O46: the calls made are `opCalls`, and those are as many as R230 counts. -/
theorem acceptedOperationMakesItsCalls : Obligations.AcceptedOperationMakesItsCalls := by
  intro s i hi hs hacc hq
  obtain ⟨u, hu, hevents, hcalls⟩ := operation_makesItsCalls hi hs hacc hq
  rw [length_opCalls hi] at hcalls
  refine ⟨_, hu, rfl, rfl, hcalls, ?_⟩
  calc u.events.length = s.events.length + (opCalls i s).length := by rw [hevents, List.length_append]
    _ = s.events.length + callCount i s := by rw [length_opCalls hi]

end Sys2Proof.Proofs
